-- ==== Sys2Proof/Word.lean ====
section
/-! DEFINITION. The words of the machine: bytes, 16-bit words, register indices (spec/00_scope.md R10, R12). -/

namespace Sys2Proof

/-- An 8-bit value: a general register, a memory byte, a timer counter. -/
abbrev Byte := BitVec 8

/-- A 16-bit value: `I`, `PC`, a stack entry, an instruction word. -/
abbrev Word := BitVec 16

/-- A 12-bit address literal `nnn` (spec/30_encoding.md R82). -/
abbrev Addr12 := BitVec 12

/-- The index of a general register V0..VF: a 4-bit field, always in range (spec/30_encoding.md R92). -/
abbrev Reg := Fin 16

/-- VF, the register that also serves as the flag (spec/10_state.md R22). -/
abbrev VF : Reg := 15

end Sys2Proof
end

