-- ==== Sys2Proof/Config.lean ====
section
/-! DEFINITION. What is fixed before a run (spec/00_scope.md R11) and the values the spec leaves free. -/

namespace Sys2Proof

/-- The 80 bytes of the glyph table, 16 glyphs of 5 rows (spec/10_state.md R33). -/
abbrev GlyphTable := Vector Byte 80

/-- The configuration port: parameters fixed before reset for the whole run
(spec/60_exceptions.md R262, spec/92_eei_decisions.md open parameters). -/
structure Config where
  /-- `GLYPH_TABLE`: the bytes reset writes at address 0. -/
  glyphTable : GlyphTable
  /-- `HAS_8XY0`: whether 8xy0 decodes as LD Vx,Vy. -/
  has8xy0 : Bool
  /-- `DT_DISABLED`: DT is plain storage. -/
  dtDisabled : Bool
  /-- `ST_DISABLED`: ST is plain storage. -/
  stDisabled : Bool
  deriving DecidableEq, Repr

/-- The default font of spec/10_state.md R33, one line a digit 0..F. PRESUMED by the spec (its decision D27, log 3). -/
def Config.defaultGlyphs : GlyphTable := #v[
  0xF0, 0x90, 0x90, 0x90, 0xF0,
  0x20, 0x60, 0x20, 0x20, 0x70,
  0xF0, 0x10, 0xF0, 0x80, 0xF0,
  0xF0, 0x10, 0xF0, 0x10, 0xF0,
  0x90, 0x90, 0xF0, 0x10, 0x10,
  0xF0, 0x80, 0xF0, 0x10, 0xF0,
  0xF0, 0x80, 0xF0, 0x90, 0xF0,
  0xF0, 0x10, 0x20, 0x40, 0x40,
  0xF0, 0x90, 0xF0, 0x90, 0xF0,
  0xF0, 0x90, 0xF0, 0x10, 0xF0,
  0xF0, 0x90, 0xF0, 0x90, 0x90,
  0xE0, 0x90, 0xE0, 0x90, 0xE0,
  0xF0, 0x80, 0x80, 0x80, 0xF0,
  0xE0, 0x90, 0x90, 0x90, 0xE0,
  0xF0, 0x80, 0xF0, 0x80, 0xF0,
  0xF0, 0x80, 0xF0, 0x80, 0x80]

/-- The defaults of spec/00_scope.md R11 (log 3, log 4). -/
def Config.default : Config where
  glyphTable := Config.defaultGlyphs
  has8xy0 := true
  dtDisabled := false
  stDisabled := false

/-- FREE VALUE: the byte an execution of RND draws when the host has supplied none, the `n`-th such draw.
The spec gives the draw no law (spec/42_alu.md R152, spec/93_implementation_defined.md U1; log 14). -/
opaque Config.freeByte : Nat → Byte

end Sys2Proof
end

