-- ==== Sys2Proof/Syntax.lean ====
section
/-! DEFINITION. The instructions: one constructor for each of the 34 rows of spec/opcode_table.json
(spec/30_encoding.md R86), in the table's order. A constructor carries the fields its row's format uses
(R83); a field the row ignores (R88) is no argument (log 18). -/

namespace Sys2Proof

inductive Instr where
  /-- `0-E0` CLS: clear the framebuffer (R190). -/
  | cls
  /-- `0-EE` RET: return from subroutine (R120). -/
  | ret
  /-- `1nnn` JP NNN (R121). -/
  | jp (nnn : Addr12)
  /-- `2nnn` CALL NNN (R122). -/
  | call (nnn : Addr12)
  /-- `3xkk` SE Vx,KK (R123). -/
  | seVxKK (x : Reg) (kk : Byte)
  /-- `4xkk` SNE Vx,KK (R124). -/
  | sneVxKK (x : Reg) (kk : Byte)
  /-- `5xy-` SE Vx,Vy (n ignored) (R125). -/
  | seVxVy (x y : Reg)
  /-- `6xkk` LD Vx,KK (R141). -/
  | ldVxKK (x : Reg) (kk : Byte)
  /-- `7xkk` ADD Vx,KK (R142). -/
  | addVxKK (x : Reg) (kk : Byte)
  /-- `8xy0` LD Vx,Vy, present when `HAS_8XY0` (R143). -/
  | ldVxVy (x y : Reg)
  /-- `8xy1` OR Vx,Vy (R144). -/
  | orVxVy (x y : Reg)
  /-- `8xy2` AND Vx,Vy (R145). -/
  | andVxVy (x y : Reg)
  /-- `8xy3` XOR Vx,Vy (R146). -/
  | xorVxVy (x y : Reg)
  /-- `8xy4` ADD Vx,Vy (R147). -/
  | addVxVy (x y : Reg)
  /-- `8xy5` SUB Vx,Vy (R148). -/
  | subVxVy (x y : Reg)
  /-- `8x-6` SHR Vx (y ignored) (R149). -/
  | shrVx (x : Reg)
  /-- `8xy7` SUBN Vx,Vy (R150). -/
  | subnVxVy (x y : Reg)
  /-- `8x-E` SHL Vx (y ignored) (R151). -/
  | shlVx (x : Reg)
  /-- `9xy-` SNE Vx,Vy (n ignored) (R126). -/
  | sneVxVy (x y : Reg)
  /-- `Annn` LD I,NNN (R170). -/
  | ldI (nnn : Addr12)
  /-- `Bnnn` JP V0,NNN (R127). -/
  | jpV0 (nnn : Addr12)
  /-- `Cxkk` RND Vx,KK (R152). -/
  | rnd (x : Reg) (kk : Byte)
  /-- `Dxyn` DRW Vx,Vy,N (R191). -/
  | drw (x y n : Fin 16)
  /-- `Ex9E` SKP Vx (R194). -/
  | skp (x : Reg)
  /-- `ExA1` SKNP Vx (R195). -/
  | sknp (x : Reg)
  /-- `Fx07` LD Vx,DT (R210). -/
  | ldVxDT (x : Reg)
  /-- `Fx0A` LD Vx,K (R196). -/
  | ldVxK (x : Reg)
  /-- `Fx15` LD DT,Vx (R211). -/
  | ldDTVx (x : Reg)
  /-- `Fx18` LD ST,Vx (R212). -/
  | ldSTVx (x : Reg)
  /-- `Fx1E` ADD I,Vx (R171). -/
  | addIVx (x : Reg)
  /-- `Fx29` LD F,Vx (R172). -/
  | ldFVx (x : Reg)
  /-- `Fx33` LD B,Vx (R173). -/
  | ldBVx (x : Reg)
  /-- `Fx55` LD [I],Vx (R175). -/
  | ldMemVx (x : Reg)
  /-- `Fx65` LD Vx,[I] (R176). -/
  | ldVxMem (x : Reg)
  deriving DecidableEq, Repr

end Sys2Proof
end

