-- ==== Sys2Proof/Decode.lean ====
section
/-! DEFINITION. From the 16-bit word to the instruction and back (spec/30_encoding.md). Decoding is total: a word
gives one instruction or the named error `invalidOpcode` (R91). The key values are the spec's (R86, log 2). -/

namespace Sys2Proof

/-! ## The fields of a word (R82) -/

/-- `x = op[11:8]`. -/
def fieldX (op : Word) : Reg := (op.extractLsb' 8 4).toFin
/-- `y = op[7:4]`. -/
def fieldY (op : Word) : Reg := (op.extractLsb' 4 4).toFin
/-- `n = op[3:0]`. -/
def fieldN (op : Word) : Fin 16 := (op.extractLsb' 0 4).toFin
/-- `kk = op[7:0]`. -/
def fieldKK (op : Word) : Byte := op.extractLsb' 0 8
/-- `nnn = op[11:0]`. -/
def fieldNNN (op : Word) : Addr12 := op.extractLsb' 0 12
/-- `t = op[15:12]`, the family. -/
def fieldT (op : Word) : BitVec 4 := op.extractLsb' 12 4

/-! ## Decode (R85, R86) -/

/-- The family mask of R85. -/
def familyMask (op : Word) : Word :=
  if fieldT op = 0x0 then 0xF0FF
  else if fieldT op = 0x8 then 0xF00F
  else if fieldT op = 0xE then 0xF0FF
  else if fieldT op = 0xF then 0xF0FF
  else 0xF000

/-- `key(op) = op & mask(op)` (R85). -/
def keyOf (op : Word) : Word := op &&& familyMask op

/-- One row of the dispatch table: its key, whether the row is present only under `HAS_8XY0`, and the
instruction the handler reads from the raw word (R81). -/
structure Row where
  key : Word
  needs8xy0 : Bool
  build : Word → Instr

/-- A row that is always present. -/
def row (key : Word) (build : Word → Instr) : Row := { key := key, needs8xy0 := false, build := build }

/-- Families 0x0 to 0x7. -/
def dispatchLow : List Row :=
  [ row 0x00E0 (fun _ => .cls),
    row 0x00EE (fun _ => .ret),
    row 0x1000 (fun op => .jp (fieldNNN op)),
    row 0x2000 (fun op => .call (fieldNNN op)),
    row 0x3000 (fun op => .seVxKK (fieldX op) (fieldKK op)),
    row 0x4000 (fun op => .sneVxKK (fieldX op) (fieldKK op)),
    row 0x5000 (fun op => .seVxVy (fieldX op) (fieldY op)),
    row 0x6000 (fun op => .ldVxKK (fieldX op) (fieldKK op)),
    row 0x7000 (fun op => .addVxKK (fieldX op) (fieldKK op)) ]

/-- Family 0x8. -/
def dispatchAlu : List Row :=
  [ { key := 0x8000, needs8xy0 := true, build := fun op => .ldVxVy (fieldX op) (fieldY op) },
    row 0x8001 (fun op => .orVxVy (fieldX op) (fieldY op)),
    row 0x8002 (fun op => .andVxVy (fieldX op) (fieldY op)),
    row 0x8003 (fun op => .xorVxVy (fieldX op) (fieldY op)),
    row 0x8004 (fun op => .addVxVy (fieldX op) (fieldY op)),
    row 0x8005 (fun op => .subVxVy (fieldX op) (fieldY op)),
    row 0x8006 (fun op => .shrVx (fieldX op)),
    row 0x8007 (fun op => .subnVxVy (fieldX op) (fieldY op)),
    row 0x800E (fun op => .shlVx (fieldX op)) ]

/-- Families 0x9 to 0xE. -/
def dispatchMid : List Row :=
  [ row 0x9000 (fun op => .sneVxVy (fieldX op) (fieldY op)),
    row 0xA000 (fun op => .ldI (fieldNNN op)),
    row 0xB000 (fun op => .jpV0 (fieldNNN op)),
    row 0xC000 (fun op => .rnd (fieldX op) (fieldKK op)),
    row 0xD000 (fun op => .drw (fieldX op) (fieldY op) (fieldN op)),
    row 0xE09E (fun op => .skp (fieldX op)),
    row 0xE0A1 (fun op => .sknp (fieldX op)) ]

/-- Family 0xF. -/
def dispatchHigh : List Row :=
  [ row 0xF007 (fun op => .ldVxDT (fieldX op)),
    row 0xF00A (fun op => .ldVxK (fieldX op)),
    row 0xF015 (fun op => .ldDTVx (fieldX op)),
    row 0xF018 (fun op => .ldSTVx (fieldX op)),
    row 0xF01E (fun op => .addIVx (fieldX op)),
    row 0xF029 (fun op => .ldFVx (fieldX op)),
    row 0xF033 (fun op => .ldBVx (fieldX op)),
    row 0xF055 (fun op => .ldMemVx (fieldX op)),
    row 0xF065 (fun op => .ldVxMem (fieldX op)) ]

/-- The table `DISPATCH` of R86: 34 rows in the spec's order. -/
def dispatch : List Row := dispatchLow ++ dispatchAlu ++ dispatchMid ++ dispatchHigh

/-- Why a word or a byte sequence gives no instruction. -/
inductive DecodeError where
  /-- The word has no row in `DISPATCH` (R89): the machine raises InvalidOpcode. -/
  | invalidOpcode (op : Word)
  /-- Fewer than two bytes: there is no word to decode. The machine never asks for this (log 23). -/
  | truncated (bytes : Nat)
  deriving DecidableEq, Repr

/-- Decode one word on a machine whose parameter `HAS_8XY0` is `has8xy0` (R85, R86, R89). -/
def decodeWord (has8xy0 : Bool) (op : Word) : Except DecodeError Instr :=
  match dispatch.find? (fun r => r.key == keyOf op && (has8xy0 || !r.needs8xy0)) with
  | some r => .ok (r.build op)
  | none => .error (.invalidOpcode op)

/-- The word of two bytes in memory order: the byte at the lower address is bits 15:8 (spec/20_memory.md R64). -/
def wordOfBytes (hi lo : Byte) : Word := hi ++ lo
/-- Bits 15:8 of a word, the byte at the lower address. -/
def hiByte (w : Word) : Byte := w.extractLsb' 8 8
/-- Bits 7:0 of a word. -/
def loByte (w : Word) : Byte := w.extractLsb' 0 8

/-- Decode the instruction at the head of a byte sequence and give the rest: every instruction is two bytes (R80). -/
def decodeBytes (has8xy0 : Bool) : List Byte → Except DecodeError (Instr × List Byte)
  | hi :: lo :: rest =>
    match decodeWord has8xy0 (wordOfBytes hi lo) with
    | .ok i => .ok (i, rest)
    | .error e => .error e
  | bytes => .error (.truncated bytes.length)

/-! ## Encode (R82, R86). An ignored field is encoded 0, as R97 has an assembler do (log 18). -/

/-- A word of the layout `t nnn`. -/
def packNNN (t : BitVec 4) (nnn : Addr12) : Word := t ++ nnn
/-- A word of the layout `t x kk`. -/
def packXKK (t : BitVec 4) (x : Reg) (kk : Byte) : Word := (t ++ BitVec.ofFin (w := 4) x) ++ kk
/-- A word of the layout `t x y n`. -/
def packXYN (t : BitVec 4) (x y n : Fin 16) : Word :=
  (t ++ BitVec.ofFin (w := 4) x) ++ (BitVec.ofFin (w := 4) y ++ BitVec.ofFin (w := 4) n)

/-- The word of an instruction. -/
def encode : Instr → Word
  | .cls => packXKK 0x0 0 0xe0
  | .ret => packXKK 0x0 0 0xee
  | .jp nnn => packNNN 0x1 nnn
  | .call nnn => packNNN 0x2 nnn
  | .seVxKK x kk => packXKK 0x3 x kk
  | .sneVxKK x kk => packXKK 0x4 x kk
  | .seVxVy x y => packXYN 0x5 x y 0x0
  | .ldVxKK x kk => packXKK 0x6 x kk
  | .addVxKK x kk => packXKK 0x7 x kk
  | .ldVxVy x y => packXYN 0x8 x y 0x0
  | .orVxVy x y => packXYN 0x8 x y 0x1
  | .andVxVy x y => packXYN 0x8 x y 0x2
  | .xorVxVy x y => packXYN 0x8 x y 0x3
  | .addVxVy x y => packXYN 0x8 x y 0x4
  | .subVxVy x y => packXYN 0x8 x y 0x5
  | .shrVx x => packXYN 0x8 x 0 0x6
  | .subnVxVy x y => packXYN 0x8 x y 0x7
  | .shlVx x => packXYN 0x8 x 0 0xe
  | .sneVxVy x y => packXYN 0x9 x y 0x0
  | .ldI nnn => packNNN 0xa nnn
  | .jpV0 nnn => packNNN 0xb nnn
  | .rnd x kk => packXKK 0xc x kk
  | .drw x y n => packXYN 0xd x y n
  | .skp x => packXKK 0xe x 0x9e
  | .sknp x => packXKK 0xe x 0xa1
  | .ldVxDT x => packXKK 0xf x 0x07
  | .ldVxK x => packXKK 0xf x 0x0a
  | .ldDTVx x => packXKK 0xf x 0x15
  | .ldSTVx x => packXKK 0xf x 0x18
  | .addIVx x => packXKK 0xf x 0x1e
  | .ldFVx x => packXKK 0xf x 0x29
  | .ldBVx x => packXKK 0xf x 0x33
  | .ldMemVx x => packXKK 0xf x 0x55
  | .ldVxMem x => packXKK 0xf x 0x65

/-- The bytes of an instruction, in memory order. -/
def encodeBytes (i : Instr) : List Byte := [hiByte (encode i), loByte (encode i)]

/-! ## The opcode table's numbering -/

/-- The instruction read from an instruction whose bits are `w`, numbered as spec/opcode_table.json numbers them
(bit 0 the least significant of the one 16-bit word), every bit from `nbits` up being 0: the word is laid out
high byte first (spec/20_memory.md R64) and given to the decoder of the default configuration (`HAS_8XY0` true). -/
def decodeTableWord (nbits w : Nat) : Option Instr :=
  let op : Word := BitVec.ofNat 16 (w % 2 ^ nbits)
  match decodeBytes Config.default.has8xy0 [hiByte op, loByte op] with
  | .ok (i, _) => some i
  | .error _ => none

end Sys2Proof
end

