-- ==== Sys2Proof/Machine/State.lean ====
section
/-! DEFINITION. The state of the machine as plain data (spec/10_state.md), the reasons a step can stop, and reset
(spec/70_reset_and_hazards.md R280, spec/10_state.md R41). INVENTORY.md lists every field with its rule. -/

namespace Sys2Proof.Machine

/-- The memory (spec/20_memory.md R60): `cells` lists the bytes that differ from what an unlisted address reads as,
by strictly rising address. An unlisted address reads as reset left it: the glyph table at 0..79, else 0
(`Memory.unlisted`; log 7). `glyphs` never changes during a run. -/
structure Memory where
  glyphs : GlyphTable
  cells : List Host.Cell
  deriving DecidableEq, Repr

/-- One timer (spec/10_state.md R30). `disabled` is fixed for a run. -/
structure Timer where
  value : Byte
  running : Bool
  disabled : Bool
  deriving DecidableEq, Repr

/-- The framebuffer: 32 rows of 64 one-bit cells (spec/10_state.md R32). -/
abbrev FrameBuffer := Vector (Vector Bool 64) 32

/-- The sixteen keys, `true` = pressed (spec/10_state.md R31). -/
abbrev Keys := Vector Bool 16

/-- A debugger command (spec/60_exceptions.md R251). -/
inductive DbgCommand where
  | setBreakpoint (a : Word)
  | clearBreakpoint (a : Word)
  | step
  | deactivate
  | pause
  deriving DecidableEq, Repr

/-- The Execution Monitor (spec/10_state.md R35). `bp` lists the addresses whose breakpoint bit is set, by strictly
rising address (log 22). Running = not `active`; Paused = `active`, not `step`; Step-armed = `active` and `step`. -/
structure Monitor where
  bp : List Word
  active : Bool
  step : Bool
  skipOnce : Bool
  deriving DecidableEq, Repr

/-- The CPU's phase (spec/10_state.md R37). -/
inductive Phase where
  | idle
  | ready
  | waitKey (x : Reg)
  | ended
  | loadFailed
  deriving DecidableEq, Repr

/-- The five conditions (spec/60_exceptions.md R221). -/
inductive Cond where
  | programTooLarge
  | invalidOpcode
  | stackOverflow
  | stackUnderflow
  | outOfBoundsAddress
  deriving DecidableEq, Repr

/-- A condition record (spec/60_exceptions.md R226). `op` is absent for a fetch failure, `ipc` and `op` for
ProgramTooLarge, which no instruction raises (log 19). -/
structure CondRecord where
  code : Cond
  ipc : Option Word
  op : Option Word
  info : Nat
  deriving DecidableEq, Repr

/-- An event on the port `tone` (spec/60_exceptions.md R267). -/
inductive ToneEvent where
  | on
  | off
  deriving DecidableEq, Repr

/-- One atomic step of one agent (spec/20_memory.md R70): which agent moves, and what a host move carries. A key
answer is a code 0..15 by its type (spec/60_exceptions.md R271). -/
inductive Move where
  /-- The CPU takes its step. -/
  | cpu
  /-- The delay timer's task ticks (spec/60_exceptions.md R237). -/
  | tickDT
  /-- The sound timer's task ticks (spec/60_exceptions.md R237). -/
  | tickST
  /-- The host presents a level on `alive` (spec/60_exceptions.md R263). -/
  | setAlive (b : Bool)
  /-- The host presents key states on `keys` (spec/60_exceptions.md R264). -/
  | setKeys (k : Keys)
  /-- The host supplies the next byte on `rnd` (spec/60_exceptions.md R270, R271). -/
  | supplyRnd (b : Byte)
  /-- The host appends a debugger command (spec/60_exceptions.md R268). -/
  | command (c : DbgCommand)
  /-- The host answers a key request (spec/60_exceptions.md R265). -/
  | keyAnswer (k : Fin 16)
  /-- The host loads a program (spec/70_reset_and_hazards.md R281). -/
  | load (bytes : List Byte)
  deriving DecidableEq, Repr

/-- Everything the machine holds. The fields from `alive` on are the model's own: the levels and queues of the
ports, the latch a condition record is made from, and the schedule (log 8, log 13 to log 16). -/
structure State where
  /-- `MEM[0..4095]`. -/
  mem : Memory
  /-- `V[0..15]`. -/
  v : Vector Byte 16
  /-- `I`. -/
  i : Word
  /-- `PC`. -/
  pc : Word
  /-- `STACK[0..15]`. -/
  stack : Vector Word 16
  /-- The number of free stack entries, `SP + 1` (log 6). -/
  free : Fin 17
  /-- `DT`. -/
  dt : Timer
  /-- `ST`. -/
  st : Timer
  /-- `KEY[0..15]`. -/
  key : Keys
  /-- `FB`. -/
  fb : FrameBuffer
  /-- `BP`, `active`, `step`, `skip_once`. -/
  mon : Monitor
  /-- `CMDQ`, oldest first. -/
  cmdq : List DbgCommand
  /-- `PHASE`. -/
  phase : Phase
  /-- `CLOG`, oldest first; also the stream of the port `cond`. -/
  clog : List CondRecord
  /-- The parameter `HAS_8XY0`, fixed for a run. -/
  has8xy0 : Bool
  /-- The level on the port `alive`. -/
  alive : Bool
  /-- The levels on the port `keys`. -/
  keys : Keys
  /-- The bytes supplied on the port `rnd` and not yet drawn, oldest first. -/
  rnd : List Byte
  /-- How many free bytes RND has drawn (`Config.freeByte`). -/
  draws : Nat
  /-- The last snapshot emitted on the port `frame`. -/
  frame : Option FrameBuffer
  /-- How many snapshots were emitted. -/
  frames : Nat
  /-- The events emitted on the port `tone`, oldest first. -/
  tone : List ToneEvent
  /-- The address of the instruction being executed, latched for a record. -/
  ipc : Word
  /-- The raw word being executed, latched for a record; absent until the fetch succeeds. -/
  op : Option Word
  /-- The moves to come, oldest first; when there is none the CPU moves. -/
  sched : List Move
  deriving DecidableEq, Repr

/-- Why the CPU takes no further step. No instruction raises one: the spec's conditions are records in `CLOG`
and execution goes on (spec/60_exceptions.md R220). -/
inductive Fault where
  /-- Raised by the CPU's move in `PHASE = Ended`: no later CPU step exists (spec/40_cycle.md R101; log 11). Safe: the
  model stops where the spec gives no step. The host's moves still run there. -/
  | runEnded
  /-- Raised by the CPU's move in `PHASE = LoadFailed`: no cycle ever runs (spec/70_reset_and_hazards.md R282; log 11).
  Safe. The host's moves still run there. -/
  | loadFailed
  deriving DecidableEq, Repr

/-- What the model gives no transition for. -/
inductive Refusal where
  /-- Raised by `exec` for an instruction that has no meaning yet. Safe. -/
  | notModelled (mnemonic : String)
  /-- Raised by the host's move `load` outside `PHASE = Idle`, against the host's duties (spec/60_exceptions.md
  R271, spec/93_implementation_defined.md U6). UNSAFE as the spec says there: a claim holds only for hosts that
  keep their duties (log 12). -/
  | loadOutsideIdle
  /-- Raised by the host's move `keyAnswer` when no key is requested, against the host's duties
  (spec/60_exceptions.md R265, R271). UNSAFE in the same way (log 12). -/
  | keyNotRequested
  deriving DecidableEq, Repr

/-- What a meaning and a step answer. -/
abbrev Result := Host.Outcome State Fault Refusal

/-- Reset under a configuration (spec/70_reset_and_hazards.md R280, spec/10_state.md R41; log 5, log 13 to log 16). -/
def State.resetWith (c : Config) : State where
  mem := ⟨c.glyphTable, []⟩
  v := Vector.replicate 16 0
  i := 0
  pc := 0x200
  stack := Vector.replicate 16 0
  free := 16
  dt := ⟨0, false, c.dtDisabled⟩
  st := ⟨0, false, c.stDisabled⟩
  key := Vector.replicate 16 false
  fb := Vector.replicate 32 (Vector.replicate 64 false)
  mon := ⟨[], false, false, false⟩
  cmdq := []
  phase := .idle
  clog := []
  has8xy0 := c.has8xy0
  alive := true
  keys := Vector.replicate 16 false
  rnd := []
  draws := 0
  frame := none
  frames := 0
  tone := []
  ipc := 0
  op := none
  sched := []

/-- The machine right after reset, with the default configuration (spec/00_scope.md R11). -/
def State.reset : State := State.resetWith Config.default

end Sys2Proof.Machine
end

