-- ==== Sys2Proof/Machine/Ops.lean ====
section
/-! DEFINITION. The named operations over memory, registers, the stack, the timers and the condition log. Every
access of an instruction goes through these. -/

namespace Sys2Proof.Machine

/-! ## Memory (spec/20_memory.md) -/

/-- What an address not listed in `cells` reads as: the contents reset gave it (spec/70_reset_and_hazards.md R280). -/
def Memory.unlisted (m : Memory) (a : Nat) : Byte :=
  if h : a < 80 then m.glyphs[a] else 0

/-- The byte listed for `a`, if any. -/
def Memory.lookup : List Host.Cell → Nat → Option Byte
  | [], _ => none
  | (k, b) :: t, a => if k = a then some b else Memory.lookup t a

/-- List the byte `b` for `a`, keeping the addresses rising. -/
def Memory.insert : List Host.Cell → Nat → Byte → List Host.Cell
  | [], a, b => [(a, b)]
  | (k, c) :: t, a, b =>
    if a < k then (a, b) :: (k, c) :: t
    else if a = k then (a, b) :: t
    else (k, c) :: Memory.insert t a b

/-- Unlist `a`. -/
def Memory.erase : List Host.Cell → Nat → List Host.Cell
  | [], _ => []
  | (k, c) :: t, a => if k = a then Memory.erase t a else (k, c) :: Memory.erase t a

/-- The byte at `a`, with no check. -/
def Memory.peek (m : Memory) (a : Nat) : Byte := (Memory.lookup m.cells a).getD (m.unlisted a)

/-- Put the byte `b` at `a`, with no check, in canonical form. -/
def Memory.poke (m : Memory) (a : Nat) (b : Byte) : Memory :=
  { m with cells := if b = m.unlisted a then Memory.erase m.cells a else Memory.insert m.cells a b }

/-- `MemRead(a, 1)` of R63; `none` where it raises OutOfBoundsAddress(a). -/
def Memory.read (m : Memory) (a : Nat) : Option Byte := if a < 4096 then some (m.peek a) else none

/-- `MemWrite(a, 1, b)` of R63; `none`, and nothing written, where it raises OutOfBoundsAddress(a). -/
def Memory.write (m : Memory) (a : Nat) (b : Byte) : Option Memory :=
  if a < 4096 then some (m.poke a b) else none

/-- Put bytes at consecutive addresses from `a`, with no check. -/
def Memory.pokeAll (m : Memory) (a : Nat) : List Byte → Memory
  | [] => m
  | b :: bs => (m.pokeAll (a + 1) bs).poke a b

/-- The canonical form: addresses strictly rising and in the address space, and no entry equal to what an unlisted
address reads as. Equal contents are then equal data. -/
abbrev Memory.wf (m : Memory) : Prop :=
  m.cells.Pairwise (fun p q => p.1 < q.1) ∧ ∀ c ∈ m.cells, c.1 < 4096 ∧ c.2 ≠ m.unlisted c.1

/-! ## Registers (spec/10_state.md R21) -/

/-- Read general register `x`. -/
def State.reg (s : State) (x : Reg) : Byte := s.v[x.val]

/-- Write general register `x`. -/
def State.setReg (s : State) (x : Reg) (b : Byte) : State := { s with v := s.v.set x.val b }

/-! ## Conditions (spec/60_exceptions.md R226) -/

/-- `raise Cond(info)`: append the record to `CLOG`. Nothing is saved, no mode changes and control does not move
(R220): the caller ends the instruction here, and execution goes on at `PC`. -/
def State.raise (s : State) (c : Cond) (info : Nat) : State :=
  { s with clog := s.clog ++ [⟨c, some s.ipc, s.op, info⟩] }

/-- The code of a condition (R221). -/
def Cond.number : Cond → Nat
  | .programTooLarge => 1
  | .invalidOpcode => 2
  | .stackOverflow => 3
  | .stackUnderflow => 4
  | .outOfBoundsAddress => 5

/-! ## The call stack (spec/10_state.md R26 to R28) -/

/-- `SP`: the index of the next free entry, -1 when the stack is full. -/
def State.sp (s : State) : Int := (s.free.val : Int) - 1

/-- The depth, `15 - SP`. -/
def State.depth (s : State) : Nat := 16 - s.free.val

/-- `Push(w)`; `none` where it raises StackOverflow. -/
def State.push (s : State) (w : Word) : Option State :=
  if h : s.free.val = 0 then none
  else some { s with
    stack := s.stack.set (s.free.val - 1) w (by omega)
    free := ⟨s.free.val - 1, by omega⟩ }

/-- `Pop()`: the entry and the state after it; `none` where it raises StackUnderflow. -/
def State.pop (s : State) : Option (Word × State) :=
  if h : s.free.val < 16 then
    some (s.stack[s.free.val], { s with free := ⟨s.free.val + 1, by omega⟩ })
  else none

/-! ## Control (spec/40_cycle.md R111) -/

/-- `pc <- target`. No control transfer checks its target (spec/41_control_flow.md R128). -/
def State.jump (s : State) (target : Word) : State := { s with pc := target }

/-- A skip: if the condition is true, `pc <- trunc16(PC + 2)`. -/
def State.skipIf (s : State) (c : Bool) : State := if c then { s with pc := s.pc + 2 } else s

/-! ## Timers (spec/60_exceptions.md R236, R237) -/

/-- The timer's fields after `TimerSet(T, v)`. -/
def Timer.set (t : Timer) (v : Byte) : Timer :=
  if t.disabled then { t with value := v } else { t with value := v, running := v != 0 }

/-- The timer's fields after a tick. -/
def Timer.tick (t : Timer) : Timer :=
  { t with value := t.value - 1, running := t.value - 1 != 0 }

/-- `TimerSet(DT, v)`. -/
def State.setDT (s : State) (v : Byte) : State := { s with dt := s.dt.set v }

/-- `TimerSet(ST, v)`: a set to 0 of an enabled timer that was running emits ToneOff. -/
def State.setST (s : State) (v : Byte) : State :=
  { s with
    st := s.st.set v
    tone := if !s.st.disabled && v == 0 && s.st.running then s.tone ++ [.off] else s.tone }

/-- `TimerGet(DT)` (R241). -/
def State.getDT (s : State) : Byte := s.dt.value

/-- A step of the DT task: it has one only while the timer runs (R237, log 10). -/
def State.tickDT (s : State) : State := if s.dt.running then { s with dt := s.dt.tick } else s

/-- A step of the ST task: ToneOn, then the decrement, then ToneOff if the count reached 0 (R237, log 10). -/
def State.tickST (s : State) : State :=
  if s.st.running then
    { s with
      st := s.st.tick
      tone := s.tone ++ .on :: (if s.st.value - 1 = 0 then [.off] else []) }
  else s

/-! ## The random port (spec/42_alu.md R152, spec/60_exceptions.md R270) -/

/-- `RandomByte()`: the next byte the host has supplied, or else a free value (log 14). -/
def State.drawByte (s : State) : Byte × State :=
  match s.rnd with
  | b :: rest => (b, { s with rnd := rest })
  | [] => (Config.freeByte s.draws, { s with draws := s.draws + 1 })

/-! ## The framebuffer (spec/10_state.md R32) -/

/-- The cell at row `r`, column `c`; false outside the screen. -/
def FrameBuffer.cell (fb : FrameBuffer) (r c : Nat) : Bool :=
  if h : r < 32 ∧ c < 64 then fb[r][c] else false

/-- The framebuffer with the cell at row `r`, column `c` inverted. -/
def FrameBuffer.toggle (fb : FrameBuffer) (r c : Nat) : FrameBuffer :=
  if h : r < 32 ∧ c < 64 then fb.set r (fb[r].set c (!fb[r][c])) else fb

/-- All cells 0. -/
def FrameBuffer.clear : FrameBuffer := Vector.replicate 32 (Vector.replicate 64 false)

/-- Emit a snapshot of `FB` on the port `frame` (spec/60_exceptions.md R266). -/
def State.render (s : State) : State := { s with frame := some s.fb, frames := s.frames + 1 }

end Sys2Proof.Machine
end

