-- ==== Sys2Proof/Machine/Operands.lean ====
section
/-! DEFINITION. The operand forms (spec/30_encoding.md R84, spec/43_index_memory.md R177) and the narrowing of an
exact result (spec/00_scope.md R13). -/

namespace Sys2Proof.Machine

/-- `trunc8(v) = v mod 256`. -/
def trunc8 (v : Nat) : Byte := BitVec.ofNat 8 v

/-- `trunc16(v) = v mod 65536`. -/
def trunc16 (v : Nat) : Word := BitVec.ofNat 16 v

/-- `zext_16(nnn)`: the address literal as a 16-bit value. -/
def addrOf (nnn : Addr12) : Word := nnn.setWidth 16

/-- The effective address `I + k`, an unbounded sum (spec/20_memory.md R62). -/
def State.indexAddr (s : State) (k : Nat) : Nat := s.i.toNat + k

/-- The register index of the `k`-th register of a block transfer (spec/43_index_memory.md R175), `k` below 16. -/
def regOf (k : Nat) : Reg := Fin.ofNat 16 k

/-- Read the byte at `I + k`; `none` where it raises. -/
def State.readIndexed (s : State) (k : Nat) : Option Byte := s.mem.read (s.indexAddr k)

/-- Write the byte `b` at `I + k`, or raise OutOfBoundsAddress(I + k); with whether the write happened. -/
def State.writeIndexed (s : State) (k : Nat) (b : Byte) : Option State :=
  match s.mem.write (s.indexAddr k) b with
  | some m => some { s with mem := m }
  | none => none

/-- Raise OutOfBoundsAddress(I + k) (spec/20_memory.md R63). -/
def State.raiseIndexed (s : State) (k : Nat) : State := s.raise .outOfBoundsAddress (s.indexAddr k)

/-- Write bytes at `I + k`, `I + k + 1`, …, in ascending order, stopping with the condition at the first index
outside memory; the earlier bytes stay written (spec/20_memory.md R66). -/
def State.storeIndexed (s : State) (k : Nat) : List Byte → State
  | [] => s
  | b :: bs =>
    match s.writeIndexed k b with
    | some s' => s'.storeIndexed (k + 1) bs
    | none => s.raiseIndexed k

/-- Load `count` registers from V[k] on from the bytes at `I + k` on, in ascending order, stopping with the condition
at the first index outside memory; the earlier registers stay loaded (spec/43_index_memory.md R176). -/
def State.loadIndexed (s : State) (k : Nat) : (count : Nat) → State
  | 0 => s
  | count + 1 =>
    match s.readIndexed k with
    | some b => (s.setReg (regOf k) b).loadIndexed (k + 1) count
    | none => s.raiseIndexed k

end Sys2Proof.Machine
end

