-- ==== Sys2Proof/Machine/Flags.lean ====
section
/-! DEFINITION. The flag computations, whose one home is VF (spec/10_state.md R39, spec/42_alu.md). -/

namespace Sys2Proof.Machine

/-- A condition as the byte 1 or 0. -/
def flag (c : Bool) : Byte := if c then 1 else 0

/-- Carry of ADD Vx,Vy: "VF=1 iff unsigned sum > 255" (R147). -/
def carryFlag (vx vy : Byte) : Byte := flag (decide (vx.toNat + vy.toNat > 255))

/-- Not-borrow of `a - b`: 1 iff `a >= b` (R148, R150). -/
def noBorrowFlag (a b : Byte) : Byte := flag (decide (b.toNat ≤ a.toNat))

/-- The bit SHR shifts out: the pre-shift LSB (R149). -/
def lsbFlag (vx : Byte) : Byte := vx &&& 1

/-- The bit SHL shifts out: the pre-shift MSB (R151). -/
def msbFlag (vx : Byte) : Byte := vx >>> 7

/-- Write the result, then VF last, so that with x = F the flag overwrites the result (R140). -/
def State.setResultFlag (s : State) (x : Reg) (result fl : Byte) : State := (s.setReg x result).setReg VF fl

end Sys2Proof.Machine
end

