-- ==== Sys2Proof/Machine/Alu.lean ====
section
/-! DEFINITION. The meanings of spec/42_alu.md. Both operands are read before any write, the result is written,
then VF (R140). -/

namespace Sys2Proof.Machine

/-- LD Vx,KK (R141). -/
def execLdVxKK (x : Reg) (kk : Byte) (s : State) : Result := .next (s.setReg x kk)

/-- ADD Vx,KK (R142): no flag. -/
def execAddVxKK (x : Reg) (kk : Byte) (s : State) : Result :=
  .next (s.setReg x (trunc8 ((s.reg x).toNat + kk.toNat)))

/-- LD Vx,Vy (R143). Whether the word 8xy0 is this instruction is the decoder's question (log 20). -/
def execLdVxVy (x y : Reg) (s : State) : Result := .next (s.setReg x (s.reg y))

/-- OR Vx,Vy (R144). -/
def execOrVxVy (x y : Reg) (s : State) : Result := .next (s.setReg x (s.reg x ||| s.reg y))

/-- AND Vx,Vy (R145). -/
def execAndVxVy (x y : Reg) (s : State) : Result := .next (s.setReg x (s.reg x &&& s.reg y))

/-- XOR Vx,Vy (R146). -/
def execXorVxVy (x y : Reg) (s : State) : Result := .next (s.setReg x (s.reg x ^^^ s.reg y))

/-- ADD Vx,Vy (R147). -/
def execAddVxVy (x y : Reg) (s : State) : Result :=
  let vx := s.reg x
  let vy := s.reg y
  .next (s.setResultFlag x (trunc8 (vx.toNat + vy.toNat)) (carryFlag vx vy))

/-- SUB Vx,Vy (R148): Vx - Vy, VF = not borrow. -/
def execSubVxVy (x y : Reg) (s : State) : Result :=
  let vx := s.reg x
  let vy := s.reg y
  .next (s.setResultFlag x (trunc8 (vx.toNat + 256 - vy.toNat)) (noBorrowFlag vx vy))

/-- SHR Vx (R149): the y field is ignored. -/
def execShrVx (x : Reg) (s : State) : Result :=
  let vx := s.reg x
  .next (s.setResultFlag x (vx >>> 1) (lsbFlag vx))

/-- SUBN Vx,Vy (R150): Vy - Vx, VF = not borrow. -/
def execSubnVxVy (x y : Reg) (s : State) : Result :=
  let vx := s.reg x
  let vy := s.reg y
  .next (s.setResultFlag x (trunc8 (vy.toNat + 256 - vx.toNat)) (noBorrowFlag vy vx))

/-- SHL Vx (R151): the y field is ignored. -/
def execShlVx (x : Reg) (s : State) : Result :=
  let vx := s.reg x
  .next (s.setResultFlag x (trunc8 (vx.toNat <<< 1)) (msbFlag vx))

/-- RND Vx,KK (R152): a fresh draw from the random port, masked. -/
def execRnd (x : Reg) (kk : Byte) (s : State) : Result :=
  let (r, s') := s.drawByte
  .next (s'.setReg x (r &&& kk))

end Sys2Proof.Machine
end

