-- ==== Sys2Proof/Machine/ControlFlow.lean ====
section
/-! DEFINITION. The meanings of spec/41_control_flow.md. On entry `PC` is the instruction's own address plus 2
(spec/40_cycle.md R106). -/

namespace Sys2Proof.Machine

/-- RET (R120). -/
def execRet (s : State) : Result :=
  match s.pop with
  | some (t, s') => .next (s'.jump t)
  | none => .next (s.raise .stackUnderflow s.depth)

/-- JP NNN (R121). -/
def execJp (nnn : Addr12) (s : State) : Result := .next (s.jump (addrOf nnn))

/-- CALL NNN (R122): on a full stack nothing is pushed and control does not move. -/
def execCall (nnn : Addr12) (s : State) : Result :=
  match s.push s.pc with
  | some s' => .next (s'.jump (addrOf nnn))
  | none => .next (s.raise .stackOverflow s.depth)

/-- SE Vx,KK (R123). -/
def execSeVxKK (x : Reg) (kk : Byte) (s : State) : Result := .next (s.skipIf (s.reg x == kk))

/-- SNE Vx,KK (R124). -/
def execSneVxKK (x : Reg) (kk : Byte) (s : State) : Result := .next (s.skipIf (s.reg x != kk))

/-- SE Vx,Vy (R125). -/
def execSeVxVy (x y : Reg) (s : State) : Result := .next (s.skipIf (s.reg x == s.reg y))

/-- SNE Vx,Vy (R126). -/
def execSneVxVy (x y : Reg) (s : State) : Result := .next (s.skipIf (s.reg x != s.reg y))

/-- JP V0,NNN (R127): always V0, and the sum is not reduced to 12 bits. -/
def execJpV0 (nnn : Addr12) (s : State) : Result :=
  .next (s.jump (trunc16 ((addrOf nnn).toNat + (s.reg 0).toNat)))

end Sys2Proof.Machine
end

