-- ==== Sys2Proof/Machine/DisplayInput.lean ====
section
/-! DEFINITION. The meanings of spec/44_display_input.md. -/

namespace Sys2Proof.Machine

/-- CLS (R190). -/
def execCls (s : State) : Result := .next { s with fb := FrameBuffer.clear }

/-- Draw one set sprite pixel at row `py`, column `px` of the screen: VF becomes 1 if the cell was set, and the cell
is inverted (R191, R193). -/
def State.plot (s : State) (py px : Nat) : State :=
  let s' := if s.fb.cell py px then s.setReg VF 1 else s
  { s' with fb := s.fb.toggle py px }

/-- Column `c` of a sprite row: bit 7 - c, the leftmost pixel being bit 7; a column of 64 or more is skipped (R191, R192). -/
def State.plotColumn (bits : Byte) (vx py : Nat) (s : State) (c : Nat) : State :=
  if bits.getLsbD (7 - c) && decide (vx + c < 64) then s.plot py (vx + c) else s

/-- One sprite row at row `py` of the screen; a row of 32 or more is skipped (R191, R192). -/
def State.drawRow (s : State) (bits : Byte) (vx py : Nat) : State :=
  if py < 32 then [0, 1, 2, 3, 4, 5, 6, 7].foldl (State.plotColumn bits vx py) s else s

/-- Sprite rows `r`, `r + 1`, …, `count` of them: each byte is read, in ascending order, before its row is clipped; the
first index outside memory raises and the rows before it stay drawn (R191). -/
def State.drawRows (s : State) (vx vy r : Nat) : (count : Nat) → State
  | 0 => s
  | count + 1 =>
    match s.readIndexed r with
    | some bits => (s.drawRow bits vx (vy + r)).drawRows vx vy (r + 1) count
    | none => s.raiseIndexed r

/-- DRW Vx,Vy,N (R191): the coordinates are latched, VF is cleared, then N rows are drawn. -/
def execDrw (x y n : Fin 16) (s : State) : Result :=
  let vx := (s.reg x).toNat
  let vy := (s.reg y).toNat
  .next ((s.setReg VF 0).drawRows vx vy 0 n.val)

/-- The state of the key whose code is a register's value; `none` where the code is 16 or more and the access raises
OutOfBoundsAddress(code) (R194). -/
def State.keyAt (s : State) (k : Nat) : Option Bool := if h : k < 16 then some s.key[k] else none

/-- SKP Vx (R194). -/
def execSkp (x : Reg) (s : State) : Result :=
  let k := (s.reg x).toNat
  match s.keyAt k with
  | some pressed => .next (s.skipIf pressed)
  | none => .next (s.raise .outOfBoundsAddress k)

/-- SKNP Vx (R195). -/
def execSknp (x : Reg) (s : State) : Result :=
  let k := (s.reg x).toNat
  match s.keyAt k with
  | some pressed => .next (s.skipIf (!pressed))
  | none => .next (s.raise .outOfBoundsAddress k)

/-- LD Vx,K, its first step (R196): the CPU blocks and the host is asked for a key. The second step is the host's
answer (`State.answerKey`, spec/40_cycle.md R113). -/
def execLdVxK (x : Reg) (s : State) : Result := .next { s with phase := .waitKey x }

end Sys2Proof.Machine
end

