-- ==== Sys2Proof/Machine/IndexMemory.lean ====
section
/-! DEFINITION. The meanings of spec/43_index_memory.md. None of them changes `I` as a side effect of an access (R177). -/

namespace Sys2Proof.Machine

/-- LD I,NNN (R170). -/
def execLdI (nnn : Addr12) (s : State) : Result := .next { s with i := addrOf nnn }

/-- ADD I,Vx (R171): no flag and no condition. -/
def execAddIVx (x : Reg) (s : State) : Result :=
  .next { s with i := trunc16 (s.i.toNat + (s.reg x).toNat) }

/-- LD F,Vx (R172): 5 bytes a glyph from address 0, the digit not masked. -/
def execLdFVx (x : Reg) (s : State) : Result := .next { s with i := trunc16 (5 * (s.reg x).toNat) }

/-- The three 4-bit accumulators of the double-dabble: hundreds, tens, ones (R174). -/
structure BcdAcc where
  h : BitVec 4
  t : BitVec 4
  o : BitVec 4
  deriving DecidableEq, Repr

/-- "Correct": a digit of 5 or more gets 3 added (R174). -/
def bcdCorrect (d : BitVec 4) : BitVec 4 := if 5 ≤ d.toNat then d + 3 else d

/-- "Shift": the 12-bit h:t:o left by one, bringing in `b` (R174). -/
def bcdShift (a : BcdAcc) (b : Bool) : BcdAcc where
  h := (a.h <<< 1) ||| (a.t >>> 3)
  t := (a.t <<< 1) ||| (a.o >>> 3)
  o := (a.o <<< 1) ||| (if b then 1 else 0)

/-- One iteration: correct each digit, then shift in bit `i` of `v` (R174). -/
def bcdStep (v : Byte) (a : BcdAcc) (i : Nat) : BcdAcc :=
  bcdShift ⟨bcdCorrect a.h, bcdCorrect a.t, bcdCorrect a.o⟩ (v.getLsbD i)

/-- `BCD(v)`: 8 iterations from bit 7 down to bit 0 (R174). -/
def bcd (v : Byte) : BcdAcc := [7, 6, 5, 4, 3, 2, 1, 0].foldl (bcdStep v) ⟨0, 0, 0⟩

/-- The 12-bit packing of the digits, `h << 8 | t << 4 | o` (R174). -/
def BcdAcc.packed (a : BcdAcc) : BitVec 12 := a.h ++ a.t ++ a.o

/-- LD B,Vx (R173): the three digits, a byte each, at I, I + 1, I + 2. -/
def execLdBVx (x : Reg) (s : State) : Result :=
  let b := bcd (s.reg x)
  .next (s.storeIndexed 0 [b.h.setWidth 8, b.t.setWidth 8, b.o.setWidth 8])

/-- LD [I],Vx (R175): V0..Vx at I.. ascending. -/
def execLdMemVx (x : Reg) (s : State) : Result :=
  .next (s.storeIndexed 0 (s.v.toList.take (x.val + 1)))

/-- LD Vx,[I] (R176): V0..Vx from I.. ascending. -/
def execLdVxMem (x : Reg) (s : State) : Result := .next (s.loadIndexed 0 (x.val + 1))

end Sys2Proof.Machine
end

