-- ==== Sys2Proof/Machine/TimerAccess.lean ====
section
/-! DEFINITION. The meanings of spec/45_timer_access.md, each one atomic access. -/

namespace Sys2Proof.Machine

/-- LD Vx,DT (R210). -/
def execLdVxDT (x : Reg) (s : State) : Result := .next (s.setReg x s.getDT)

/-- LD DT,Vx (R211). -/
def execLdDTVx (x : Reg) (s : State) : Result := .next (s.setDT (s.reg x))

/-- LD ST,Vx (R212). -/
def execLdSTVx (x : Reg) (s : State) : Result := .next (s.setST (s.reg x))

end Sys2Proof.Machine
end

