-- ==== Sys2Proof/Machine/Monitor.lean ====
section
/-! DEFINITION. The Execution Monitor (spec/60_exceptions.md R245 to R253). It writes only its own state. -/

namespace Sys2Proof.Machine

/-- Set the bit `BP[a]`, keeping the list rising. -/
def setBreak : List Word → Word → List Word
  | [], a => [a]
  | b :: t, a =>
    if a.toNat < b.toNat then a :: b :: t
    else if a = b then b :: t
    else b :: setBreak t a

/-- Clear the bit `BP[a]`. -/
def clearBreak : List Word → Word → List Word
  | [], _ => []
  | b :: t, a => if b = a then clearBreak t a else b :: clearBreak t a

/-- The bit `BP[a]`. -/
def Monitor.breakAt (m : Monitor) (a : Word) : Bool := m.bp.contains a

/-- The form of the breakpoint list: rising, so that equal sets are equal data (log 22). -/
abbrev Monitor.bpWf (m : Monitor) : Prop := m.bp.Pairwise (fun a b => a.toNat < b.toNat)

/-- One debugger command (R248 to R251). -/
def Monitor.apply (m : Monitor) : DbgCommand → Monitor
  | .setBreakpoint a => { m with bp := setBreak m.bp a }
  | .clearBreakpoint a => { m with bp := clearBreak m.bp a }
  | .step => if m.active then { m with step := true } else m
  | .deactivate => if m.active then { m with active := false, step := false, skipOnce := true } else m
  | .pause => if m.active then m else { m with active := true, step := false, skipOnce := false }

/-- `MonitorPermit()` at `pc`: whether the cycle may fetch, and the Monitor after the check (R246). -/
def Monitor.permit (m : Monitor) (pc : Word) : Bool × Monitor :=
  if m.active then (m.step, m)
  else if m.breakAt pc && !m.skipOnce then (false, { m with active := true, step := false, skipOnce := false })
  else (true, { m with skipOnce := false })

end Sys2Proof.Machine
end

