-- ==== Sys2Proof/Machine/Cycle.lean ====
section
/-! DEFINITION. The CPU's cycle (spec/40_cycle.md), the second half of LD Vx,K, program load
(spec/70_reset_and_hazards.md R281) and the moves of the other agents. -/

namespace Sys2Proof.Machine

/-! ## Polling and commands -/

/-- Step 2 of the cycle: `KEY <- HandleInput()` (R102). -/
def State.pollKeys (s : State) : State := { s with key := s.keys }

/-- Step 3 of the cycle: apply every queued command in arrival order (spec/60_exceptions.md R251). -/
def State.drainCommands (s : State) : State :=
  { s with mon := s.cmdq.foldl Monitor.apply s.mon, cmdq := [] }

/-! ## Fetch, advance, decode, execute -/

/-- Latch the instruction's own address, before the fetch (R104). -/
def State.latchIpc (s : State) : State := { s with ipc := s.pc, op := none }

/-- The word at `PC`, high byte first, or the first index that is out of bounds (R105). -/
def State.fetchWord (s : State) : Except Nat Word :=
  match s.mem.read s.pc.toNat with
  | none => .error s.pc.toNat
  | some hi =>
    match s.mem.read (s.pc.toNat + 1) with
    | none => .error (s.pc.toNat + 1)
    | some lo => .ok (wordOfBytes hi lo)

/-- After a successful fetch: the word is latched and `PC <- trunc16(PC + 2)` (R106). -/
def State.advance (s : State) (w : Word) : State := { s with op := some w, pc := s.pc + 2 }

/-- Decode the fetched word and execute it, or raise InvalidOpcode(op) (R107, R108). -/
def State.runWord (s : State) (w : Word) : Result :=
  match decodeWord s.has8xy0 w with
  | .ok i => exec i s
  | .error _ => .next (s.raise .invalidOpcode w.toNat)

/-- `FetchExecute()`: a failed fetch raises OutOfBoundsAddress and leaves `PC` (R104 to R108). -/
def State.fetchExecute (s : State) : Result :=
  match s.latchIpc.fetchWord with
  | .error a => .next (s.latchIpc.raise .outOfBoundsAddress a)
  | .ok w => (s.latchIpc.advance w).runWord w

/-- The end of a permitted cycle: `step <- 0` and Render, unless LD Vx,K has blocked the CPU (R100, R113). -/
def State.endCycle (s : State) : State :=
  match s.phase with
  | .waitKey _ => s
  | _ => State.render { s with mon := { s.mon with step := false } }

/-- The end of the cycle on the outcome of its instruction. -/
def endCycleOf : Result → Result
  | .next s => .next s.endCycle
  | .fault f => .fault f
  | .refused r => .refused r

/-- Steps 4 to 6 of the cycle: the permission check, then the instruction if it is permitted, then Render (R100). -/
def State.permittedPart (s : State) : Result :=
  let (permitted, mon) := s.mon.permit s.pc
  let s' := { s with mon := mon }
  if permitted then endCycleOf s'.fetchExecute else .next s'.render

/-- One cycle of the CPU (R100). -/
def State.cycle (s : State) : Result :=
  if s.alive then s.pollKeys.drainCommands.permittedPart
  else .next { s with phase := .ended }

/-- The CPU's move: a cycle when it is Ready; in Idle and WaitKey it has no step and waits (R113, R114; log 10); in the
final phases it never has one again (R101, spec/70_reset_and_hazards.md R282; log 11). -/
def State.cpuStep (s : State) : Result :=
  match s.phase with
  | .ready => s.cycle
  | .idle | .waitKey _ => .next s
  | .ended => .fault .runEnded
  | .loadFailed => .fault .loadFailed

/-! ## The host's moves -/

/-- The host answers the key request of register `x`: the second step of LD Vx,K (R113). -/
def State.finishWait (s : State) (x : Reg) (k : Fin 16) : State :=
  State.render { s.setReg x (BitVec.ofNat 8 k.val) with
    phase := .ready
    mon := { s.mon with step := false } }

/-- The host answers with key `k`: a move it has only while a key is requested (spec/60_exceptions.md R265, R271). -/
def State.answerKey (s : State) (k : Fin 16) : Result :=
  match s.phase with
  | .waitKey x => .next (s.finishWait x k)
  | _ => .refused .keyNotRequested

/-- `LoadProgram(bytes)`: a move the host has only in Idle (spec/70_reset_and_hazards.md R281, R282). -/
def State.loadProgram (s : State) (bytes : List Byte) : Result :=
  match s.phase with
  | .idle =>
    if bytes.length > 3584 then
      .next { s with
        clog := s.clog ++ [⟨.programTooLarge, none, none, bytes.length⟩]
        phase := .loadFailed }
    else .next { s with mem := s.mem.pokeAll 0x200 bytes, phase := .ready }
  | _ => .refused .loadOutsideIdle

/-! ## One atomic step of one agent (spec/20_memory.md R70) -/

/-- A tick's outcome: the timers stop with the run, so in Ended a tick is no step (spec/60_exceptions.md R240; log 10). -/
def State.unlessEnded (s ticked : State) : State :=
  match s.phase with
  | .ended => s
  | _ => ticked

/-- The step a move stands for. The host presents levels, supplies random bytes and appends commands at any time, in
every phase (spec/60_exceptions.md R271, spec/10_state.md R36). -/
def State.runMove (s : State) : Move → Result
  | .cpu => s.cpuStep
  | .tickDT => .next (s.unlessEnded s.tickDT)
  | .tickST => .next (s.unlessEnded s.tickST)
  | .setAlive b => .next { s with alive := b }
  | .setKeys k => .next { s with keys := k }
  | .supplyRnd b => .next { s with rnd := s.rnd ++ [b] }
  | .command c => .next { s with cmdq := s.cmdq ++ [c] }
  | .keyAnswer k => s.answerKey k
  | .load bytes => s.loadProgram bytes

/-- One step: the move the schedule names next; when the schedule is empty the CPU moves (log 8). -/
def State.stepOnce (s : State) : Result :=
  match s.sched with
  | [] => s.cpuStep
  | m :: rest => State.runMove { s with sched := rest } m

/-! ## Placing an instruction where the next step fetches it (log 17) -/

/-- Where the next step fetches: `PC`, or the entry 0x200 if no word can be fetched at `PC`. -/
def State.fetchAddr (s : State) : Word := if s.pc.toNat + 1 < 4096 then s.pc else 0x200

/-- The state with the word `op` at the place the next step fetches, the CPU Ready and about to move, and the Monitor
letting the cycle run. -/
def State.placeWord (s : State) (op : Word) : State :=
  { s with
    pc := s.fetchAddr
    mem := (s.mem.poke s.fetchAddr.toNat (hiByte op)).poke (s.fetchAddr.toNat + 1) (loByte op)
    phase := .ready
    alive := true
    cmdq := []
    sched := []
    mon := { s.mon with
      active := s.mon.active && s.mon.step
      step := s.mon.active && s.mon.step
      skipOnce := s.mon.skipOnce || s.mon.breakAt s.fetchAddr } }

end Sys2Proof.Machine
end

