-- ==== Sys2Proof/Machine/Step.lean ====
section
/-! DEFINITION. The step of the machine: one atomic step of one agent (spec/20_memory.md R70). -/

namespace Sys2Proof.Machine

/-- One step of the machine. -/
def step (s : State) : Host.Outcome State Fault Refusal := s.stepOnce

/-- The state in which the very next step fetches and runs the instruction whose bits are `w`, numbered as
spec/opcode_table.json numbers them, every bit from `nbits` up being 0 (log 17). -/
def State.withFetchWord (s : State) (nbits w : Nat) : State :=
  s.placeWord (BitVec.ofNat 16 (w % 2 ^ nbits))

end Sys2Proof.Machine
end

