-- ==== Sys2Proof/Safety.lean ====
section
/-! DEFINITION. The terms claims are stated in: what an instruction leaves unchanged (its frame), what is not a
program's to write, and the invariants of the machine. -/

namespace Sys2Proof.Machine

/-! ## Frames -/

/-- What an instruction may write: the general registers in `regs` and the parts marked `true`. -/
structure Writes where
  regs : List Reg := []
  pc : Bool := false
  i : Bool := false
  /-- The addresses of the bytes stored. -/
  mem : List Nat := []
  stack : Bool := false
  dt : Bool := false
  /-- ST and the tone port, ST's only side effect. -/
  st : Bool := false
  fb : Bool := false
  phase : Bool := false
  clog : Bool := false
  /-- The random port. -/
  rnd : Bool := false

/-- What no instruction writes: the keypad (spec/10_state.md R31), the Monitor and its command queue
(spec/60_exceptions.md R254), the configuration, the levels of the input ports, the frames emitted, the latch and the
schedule. -/
structure SameSurroundings (s t : State) : Prop where
  key : t.key = s.key
  mon : t.mon = s.mon
  cmdq : t.cmdq = s.cmdq
  has8xy0 : t.has8xy0 = s.has8xy0
  glyphs : t.mem.glyphs = s.mem.glyphs
  dtDisabled : t.dt.disabled = s.dt.disabled
  stDisabled : t.st.disabled = s.st.disabled
  alive : t.alive = s.alive
  keys : t.keys = s.keys
  frame : t.frame = s.frame
  frames : t.frames = s.frames
  ipc : t.ipc = s.ipc
  op : t.op = s.op
  sched : t.sched = s.sched

/-- From `s` to `t` nothing changed but what `w` lets be written. Memory is compared through the read of one byte. -/
structure Frame (w : Writes) (s t : State) : Prop where
  regs : ∀ r : Reg, r ∉ w.regs → t.reg r = s.reg r
  pc : w.pc = false → t.pc = s.pc
  i : w.i = false → t.i = s.i
  mem : ∀ a : Nat, a ∉ w.mem → t.mem.read a = s.mem.read a
  stack : w.stack = false → t.stack = s.stack ∧ t.free = s.free
  dt : w.dt = false → t.dt = s.dt
  st : w.st = false → t.st = s.st ∧ t.tone = s.tone
  fb : w.fb = false → t.fb = s.fb
  phase : w.phase = false → t.phase = s.phase
  clog : w.clog = false → t.clog = s.clog
  rnd : w.rnd = false → t.rnd = s.rnd ∧ t.draws = s.draws
  surroundings : SameSurroundings s t

/-- Registers V0 to Vx. -/
def regsUpTo (x : Reg) : List Reg := (List.finRange 16).filter (fun r => decide (r.val ≤ x.val))

/-- The addresses of the `n` bytes from `I` on, each computed as the meanings compute it. -/
def State.bytesFromI (s : State) (n : Nat) : List Nat := (List.range n).map s.indexAddr

/-- What each instruction may write in `s`: its registers by spec/10_state.md R22, R23; `I` by R24; `PC` beyond the
fetch's advance by R25; the stack by R29; the framebuffer by R32; the bytes of memory by spec/20_memory.md R61; `CLOG`
where its rule names a condition. LD Vx,K is here its first step, which only blocks the CPU. -/
def writesOf (s : State) : Instr → Writes
  | .cls => { fb := true }
  | .ret => { pc := true, stack := true, clog := true }
  | .jp _ => { pc := true }
  | .call _ => { pc := true, stack := true, clog := true }
  | .seVxKK _ _ | .sneVxKK _ _ | .seVxVy _ _ | .sneVxVy _ _ => { pc := true }
  | .ldVxKK x _ | .addVxKK x _ => { regs := [x] }
  | .ldVxVy x _ | .orVxVy x _ | .andVxVy x _ | .xorVxVy x _ => { regs := [x] }
  | .addVxVy x _ | .subVxVy x _ | .subnVxVy x _ => { regs := [x, VF] }
  | .shrVx x | .shlVx x => { regs := [x, VF] }
  | .ldI _ => { i := true }
  | .jpV0 _ => { pc := true }
  | .rnd x _ => { regs := [x], rnd := true }
  | .drw _ _ _ => { regs := [VF], fb := true, clog := true }
  | .skp _ | .sknp _ => { pc := true, clog := true }
  | .ldVxDT x => { regs := [x] }
  | .ldVxK _ => { phase := true }
  | .ldDTVx _ => { dt := true }
  | .ldSTVx _ => { st := true }
  | .addIVx _ | .ldFVx _ => { i := true }
  | .ldBVx _ => { mem := s.bytesFromI 3, clog := true }
  | .ldMemVx x => { mem := s.bytesFromI (x.val + 1), clog := true }
  | .ldVxMem x => { regs := regsUpTo x, clog := true }

/-! ## When the CPU is about to run an instruction -/

/-- The next step is the CPU's: the schedule is empty or names the CPU. -/
def State.cpuNext (s : State) : Prop := s.sched = [] ∨ ∃ rest, s.sched = .cpu :: rest

/-- The Monitor as the queued commands leave it, at the permission check of the next cycle. -/
def State.monAtCheck (s : State) : Monitor := s.cmdq.foldl Monitor.apply s.mon

/-- The next step is a cycle: the CPU moves, is Ready and finds the run alive. -/
def State.atCycle (s : State) : Prop := s.cpuNext ∧ s.phase = .ready ∧ s.alive = true

/-- The next step is a permitted cycle (spec/60_exceptions.md R246). -/
def State.atPermitted (s : State) : Prop := s.atCycle ∧ (s.monAtCheck.permit s.pc).1 = true

/-- What polling, the command queue and the permission check make of the state before step 5 of a cycle
(spec/40_cycle.md R100), the schedule moved on. -/
def State.checked (s : State) : State :=
  { s with
    sched := s.sched.tail
    key := s.keys
    cmdq := []
    mon := (s.monAtCheck.permit s.pc).2 }

/-- The state a handler runs in: the instruction's address and word latched, `PC` advanced (spec/40_cycle.md R104,
R106). -/
def State.fetched (s : State) (op : Word) : State :=
  { s with ipc := s.pc, op := some op, pc := s.pc + 2 }

/-! ## Drawing -/

/-- The sprite of `rows` rows at `I`, placed with its corner at column `vx`, row `vy` of the plane, has its bit set
at row `r`, column `c` (spec/44_display_input.md R191: bit 7 is the leftmost pixel). -/
def State.spriteBit (s : State) (vx vy rows r c : Nat) : Bool :=
  decide (vy ≤ r ∧ r < vy + rows ∧ vx ≤ c ∧ c < vx + 8) &&
    (s.mem.peek (s.i.toNat + (r - vy))).getLsbD (7 - (c - vx))

/-- How many of `n` bytes from `I` on lie in memory. -/
def State.bytesInMemory (s : State) (n : Nat) : Nat := min n (4096 - s.i.toNat)

/-- The condition log after an access to the `n` bytes from `I` on: one record, with the first index outside memory,
if any of them is outside (spec/20_memory.md R66, spec/60_exceptions.md R230). -/
def State.logAfterAccess (s : State) (n : Nat) : List CondRecord :=
  if n = 0 ∨ s.i.toNat + n ≤ 4096 then s.clog
  else s.clog ++ [⟨.outOfBoundsAddress, some s.ipc, s.op, max s.i.toNat 4096⟩]

/-! ## Words -/

/-- The bits of a word that decide the instruction and its operands; the others are ignored
(spec/30_encoding.md R88). -/
def usedBits : Instr → Word
  | .cls | .ret => 0xF0FF
  | .seVxVy _ _ | .sneVxVy _ _ => 0xFFF0
  | .shrVx _ | .shlVx _ => 0xFF0F
  | .jp _ | .call _ | .ldI _ | .jpV0 _ => 0xFFFF
  | .seVxKK _ _ | .sneVxKK _ _ | .ldVxKK _ _ | .addVxKK _ _ | .rnd _ _ => 0xFFFF
  | .ldVxVy _ _ | .orVxVy _ _ | .andVxVy _ _ | .xorVxVy _ _ => 0xFFFF
  | .addVxVy _ _ | .subVxVy _ _ | .subnVxVy _ _ => 0xFFFF
  | .drw _ _ _ | .skp _ | .sknp _ => 0xFFFF
  | .ldVxDT _ | .ldVxK _ | .ldDTVx _ | .ldSTVx _ => 0xFFFF
  | .addIVx _ | .ldFVx _ | .ldBVx _ | .ldMemVx _ | .ldVxMem _ => 0xFFFF

/-- The invalid words, family by family, as the table of spec/30_encoding.md R89 lists them. -/
def invalidWord (has8xy0 : Bool) (op : Word) : Prop :=
  (fieldT op = 0x0 ∧ fieldKK op ≠ 0xE0 ∧ fieldKK op ≠ 0xEE) ∨
  (fieldT op = 0x8 ∧ (fieldN op = 0x8 ∨ fieldN op = 0x9 ∨ fieldN op = 0xA ∨ fieldN op = 0xB ∨ fieldN op = 0xC ∨
    fieldN op = 0xD ∨ fieldN op = 0xF ∨ (fieldN op = 0x0 ∧ has8xy0 = false))) ∨
  (fieldT op = 0xE ∧ fieldKK op ≠ 0x9E ∧ fieldKK op ≠ 0xA1) ∨
  (fieldT op = 0xF ∧ fieldKK op ∉ ([0x07, 0x0A, 0x15, 0x18, 0x1E, 0x29, 0x33, 0x55, 0x65] : List Byte))

/-! ## Invariants -/

/-- A running timer counts and is not disabled (spec/10_state.md R43). -/
def Timer.ok (t : Timer) : Prop := t.running = true → t.value ≠ 0 ∧ t.disabled = false

/-- The invariants of spec/10_state.md R43 (those on `SP` and on the register of `WaitKey` hold by type), and the
form of the breakpoint list (log 22). -/
structure State.Consistent (s : State) : Prop where
  dt : s.dt.ok
  st : s.st.ok
  mon : s.mon.active = false → s.mon.step = false
  bp : s.mon.bpWf

/-- The bound on `PC` of spec/40_cycle.md R112, with the bound on the pushed values it needs. -/
structure State.PcBounded (s : State) : Prop where
  pc : s.pc.toNat ≤ 0x10FE
  stack : ∀ k : Fin 16, s.stack[k.val].toNat ≤ 0x1000

/-- The record an instruction raises in `s`. -/
def State.recordOf (s : State) (c : Cond) (info : Nat) : CondRecord := ⟨c, some s.ipc, s.op, info⟩

end Sys2Proof.Machine
end

