-- ==== Sys2Proof/WellFormed.lean ====
section
/-! DEFINITION. Which instructions a configuration has. Every operand is bounded by its type (x, y, n below 16,
kk below 256, nnn below 4096: spec/30_encoding.md R82, R92), so the one check left is that an instruction present
only under a parameter is present. -/

namespace Sys2Proof

/-- The instruction belongs to the set of a machine whose parameter `HAS_8XY0` is `has8xy0`
(spec/30_encoding.md R86: the row LD Vx,Vy is present when `HAS_8XY0`). -/
def Instr.wellFormed (has8xy0 : Bool) : Instr → Bool
  | .ldVxVy _ _ => has8xy0
  | .cls | .ret => true
  | .jp _ | .call _ | .seVxKK _ _ | .sneVxKK _ _ | .seVxVy _ _ => true
  | .ldVxKK _ _ | .addVxKK _ _ | .orVxVy _ _ | .andVxVy _ _ | .xorVxVy _ _ => true
  | .addVxVy _ _ | .subVxVy _ _ | .shrVx _ | .subnVxVy _ _ | .shlVx _ => true
  | .sneVxVy _ _ | .ldI _ | .jpV0 _ | .rnd _ _ | .drw _ _ _ => true
  | .skp _ | .sknp _ | .ldVxDT _ | .ldVxK _ | .ldDTVx _ => true
  | .ldSTVx _ | .addIVx _ | .ldFVx _ | .ldBVx _ | .ldMemVx _ => true
  | .ldVxMem _ => true

end Sys2Proof
end

