-- ==== Sys2Proof/Certificates/Slice0/Obligations.lean ====
section
/-! DEFINITION. The statements about the model, from the numbered rules of spec/. A clause that rests on a decision of
the spec (D<n>), on an inference the spec marks as its own, or on an entry of the assumption log (log <n>) says so in
its docstring. -/

open Sys2Proof Sys2Proof.Machine

/-! ## Encoding -/

/-- Decoding the word of an instruction the configuration has gives the instruction back, with every operand at every
value (30_encoding.md R82, R86, R91; the keys are the spec's decision D29, log 2). -/
def Obligations.DecodeEncodeRoundTrip : Prop :=
  ∀ (b : Bool) (i : Instr), i.wellFormed b = true → decodeWord b (encode i) = .ok i

/-- A word that decodes is its instruction's word on every bit the instruction uses, so each operand is its field
unchanged (R82, R84, R88; R84 and R88 are marked derived by the spec), and the configuration has the instruction. The
key bits of the word are the spec's decision D29 (R86, log 2); the zeros in the ignored fields of `encode` are the
model's choice (log 18, as R97 has an assembler do). -/
def Obligations.DecodedWordIsItsInstruction : Prop :=
  ∀ (b : Bool) (op : Word) (i : Instr), decodeWord b op = .ok i →
    i.wellFormed b = true ∧ op &&& usedBits i = encode i

/-- The words that decode to no instruction are exactly the invalid space of R89, by the parameter `HAS_8XY0`
(the table of R89 is marked derived by the spec). -/
def Obligations.InvalidWordsExactly : Prop :=
  ∀ (b : Bool) (op : Word), decodeWord b op = .error (.invalidOpcode op) ↔ invalidWord b op

/-- Bits outside the family mask, and fields the handler does not use, do not matter: CLS and RET for every x, SE and
SNE Vx,Vy for every n, SHR and SHL for every y (R88, which the spec marks derived). -/
def Obligations.IgnoredBitsDoNotSelect : Prop :=
  ∀ (b : Bool) (x y n : Fin 16),
    decodeWord b (packXKK 0x0 x 0xE0) = .ok .cls ∧
    decodeWord b (packXKK 0x0 x 0xEE) = .ok .ret ∧
    decodeWord b (packXYN 0x5 x y n) = .ok (.seVxVy x y) ∧
    decodeWord b (packXYN 0x9 x y n) = .ok (.sneVxVy x y) ∧
    decodeWord b (packXYN 0x8 x y 0x6) = .ok (.shrVx x) ∧
    decodeWord b (packXYN 0x8 x y 0xE) = .ok (.shlVx x)

/-- Nine words written out, of the families 0, 2, 3, 8, A, D, E and F, decode to the instructions they stand for, and one
of them, 8120, is invalid where `HAS_8XY0` is false (R86; 95_test_vectors.md). The key values are the spec's decision
D29 (log 2, PRESUMED), the clauses on 8120 its decision D9. -/
def Obligations.WordsDecodeAsTheTableSays : Prop :=
  decodeWord true 0x03E0 = .ok .cls ∧
  decodeWord true 0x2300 = .ok (.call 0x300) ∧
  decodeWord true 0x3342 = .ok (.seVxKK 3 0x42) ∧
  decodeWord true 0x8127 = .ok (.subnVxVy 1 2) ∧
  decodeWord true 0xA2F0 = .ok (.ldI 0x2F0) ∧
  decodeWord true 0xD123 = .ok (.drw 1 2 3) ∧
  decodeWord true 0xE5A1 = .ok (.sknp 5) ∧
  decodeWord true 0xF355 = .ok (.ldMemVx 3) ∧
  decodeWord true 0x8120 = .ok (.ldVxVy 1 2) ∧
  decodeWord false 0x8120 = .error (.invalidOpcode 0x8120)

/-! ## Memory -/

/-- A write inside memory is read back there and nowhere else; outside memory a write does nothing and a read gives
nothing (20_memory.md R60, R63, R67). -/
def Obligations.MemoryReadAfterWrite : Prop :=
  ∀ (m : Memory) (a : Nat) (b : Byte),
    (a < 4096 → ∃ m', m.write a b = some m' ∧ ∀ k, m'.read k = if k = a then some b else m.read k) ∧
    (4096 ≤ a → m.write a b = none ∧ m.read a = none)

/-- Two memories in canonical form, of one glyph table, that read alike at every address are the same data (log 7). -/
def Obligations.CanonicalMemoriesReadAlikeOnlyIfEqual : Prop :=
  ∀ (m n : Memory), m.wf → n.wf → m.glyphs = n.glyphs → (∀ a, m.read a = n.read a) → m = n

/-! ## The cycle -/

/-- In a permitted cycle whose word decodes, the step is the instruction's effect on the fetched state: the address and
the word latched, `PC` advanced by 2, after the keys are polled and the commands applied. It ends with `step` cleared
and a snapshot emitted, unless LD Vx,K has blocked the CPU (40_cycle.md R100, R104 to R108; 20_memory.md R64; the order
of the polling is the spec's decision D21, the snapshot D32 and log 15, the latch log 16, the schedule log 8). -/
def Obligations.StepRunsTheDecodedInstruction : Prop :=
  ∀ (s t : State) (hi lo : Byte) (i : Instr), s.atPermitted →
    s.mem.read s.pc.toNat = some hi → s.mem.read (s.pc.toNat + 1) = some lo →
    decodeWord s.has8xy0 (hi ++ lo) = .ok i →
    exec i (s.checked.fetched (hi ++ lo)) = .next t →
    ((∃ x, t.phase = .waitKey x) → step s = .next t) ∧
    ((∀ x, t.phase ≠ .waitKey x) → step s = .next { t with
      mon := { t.mon with step := false }
      frame := some t.fb
      frames := t.frames + 1 })

/-- A fetch at PC of 4095 or more raises OutOfBoundsAddress with the first failing index, the word absent; PC stays,
no instruction executes, and the cycle completes (R105; that PC stays is the spec's decision D6, the record R226 with
its decisions D2 and D35, the snapshot D32 and log 15, the latch log 16, the schedule log 8). -/
def Obligations.FetchOutsideMemoryRaises : Prop :=
  ∀ (s : State), s.atPermitted → 4095 ≤ s.pc.toNat →
    step s = .next { s.checked with
      ipc := s.pc
      op := none
      clog := s.clog ++ [⟨.outOfBoundsAddress, some s.pc, none, max s.pc.toNat 4096⟩]
      mon := { s.checked.mon with step := false }
      frame := some s.fb
      frames := s.frames + 1 }

/-- A fetched word with no row raises InvalidOpcode with the word; nothing else changes in step 5 of the cycle and PC
stays at `ipc + 2` (R107). The record's form is R226 (the spec's decisions D2, D35); what the cycle does around step 5
is R100 (D21 the order of the polling, D32 and log 15 the snapshot); that the row 8xy0 depends on `HAS_8XY0` is D9; the
latch is log 16, the schedule log 8. -/
def Obligations.InvalidWordIsReportedAndSkipped : Prop :=
  ∀ (s : State) (hi lo : Byte), s.atPermitted →
    s.mem.read s.pc.toNat = some hi → s.mem.read (s.pc.toNat + 1) = some lo →
    (∀ r ∈ dispatch, r.key = keyOf (hi ++ lo) → r.needs8xy0 = true ∧ s.has8xy0 = false) →
    step s = .next { s.checked with
      ipc := s.pc
      op := some (hi ++ lo)
      pc := s.pc + 2
      clog := s.clog ++ [⟨.invalidOpcode, some s.pc, some (hi ++ lo), (hi ++ lo).toNat⟩]
      mon := { s.checked.mon with step := false }
      frame := some s.fb
      frames := s.frames + 1 }

/-- A cycle that is not permitted changes only `KEY`, the Monitor, the emptied queue and the Render output; it does not
clear `step` beyond what the check wrote (R103, which the spec marks derived; R100). -/
def Obligations.UnpermittedCycleRunsNoInstruction : Prop :=
  ∀ (s : State), s.atCycle → (s.monAtCheck.permit s.pc).1 = false →
    step s = .next { s.checked with frame := some s.fb, frames := s.frames + 1 }

/-- A Ready CPU that finds the run not alive ends it, with no poll and no Render; after the end the CPU has no step, and a
tick of a timer is none (R101, R240; the spec's decision D30; that the CPU's move after the end is a fault is log 11,
that a tick then only uses up its move log 10). -/
def Obligations.LivenessEndsTheRun : Prop :=
  (∀ (s : State), s.cpuNext → s.phase = .ready → s.alive = false →
    step s = .next { s with sched := s.sched.tail, phase := .ended }) ∧
  (∀ (s : State), s.phase = .ended →
    (s.cpuNext → step s = .fault .runEnded) ∧
    ∀ rest, s.sched = .tickDT :: rest ∨ s.sched = .tickST :: rest → step s = .next { s with sched := rest })

/-- While the CPU waits for a key it takes no step of its own, and the host's answer completes LD Vx,K: the key in Vx,
the CPU Ready, `step` cleared, a snapshot emitted (R113; the spec's decision D22; the waiting step is log 10). -/
def Obligations.KeyAnswerCompletesTheWait : Prop :=
  ∀ (s : State) (x : Reg), s.phase = .waitKey x →
    (s.cpuNext → step s = .next { s with sched := s.sched.tail }) ∧
    (∀ (k : Fin 16) (rest : List Move), s.sched = .keyAnswer k :: rest →
      ∃ t, step s = .next t ∧ (t.reg x).toNat = k.val ∧ t.phase = .ready ∧ t.mon = { s.mon with step := false } ∧
        t.frame = some s.fb ∧ t.frames = s.frames + 1 ∧ t.sched = rest ∧ (∀ r, r ≠ x → t.reg r = s.reg r) ∧
        t.pc = s.pc ∧ t.i = s.i ∧ t.mem = s.mem ∧ t.key = s.key ∧ t.cmdq = s.cmdq ∧ t.clog = s.clog)

/-! ## Control flow -/

/-- JP NNN and JP V0,NNN: PC is NNN, or the unreduced sum NNN + V0, which never wraps (41_control_flow.md R121, R127). -/
def Obligations.JumpsSetPc : Prop :=
  ∀ (nnn : Addr12) (s : State),
    decodeWord s.has8xy0 (packNNN 0x1 nnn) = .ok (.jp nnn) ∧
    decodeWord s.has8xy0 (packNNN 0xB nnn) = .ok (.jpV0 nnn) ∧
    (∃ t, exec (.jp nnn) s = .next t ∧ t.pc.toNat = nnn.toNat ∧ Frame { pc := true } s t) ∧
    (∃ t, exec (.jpV0 nnn) s = .next t ∧ t.pc.toNat = nnn.toNat + (s.reg 0).toNat ∧ Frame { pc := true } s t)

/-- SE and SNE: PC advances by 2 more exactly when the comparison holds (R123 to R126). -/
def Obligations.SkipsCompareAndAdvance : Prop :=
  ∀ (x y n : Fin 16) (kk : Byte) (s : State),
    decodeWord s.has8xy0 (packXKK 0x3 x kk) = .ok (.seVxKK x kk) ∧
    decodeWord s.has8xy0 (packXKK 0x4 x kk) = .ok (.sneVxKK x kk) ∧
    decodeWord s.has8xy0 (packXYN 0x5 x y n) = .ok (.seVxVy x y) ∧
    decodeWord s.has8xy0 (packXYN 0x9 x y n) = .ok (.sneVxVy x y) ∧
    (∃ t, exec (.seVxKK x kk) s = .next t ∧ t.pc = (if s.reg x = kk then s.pc + 2 else s.pc) ∧
      Frame { pc := true } s t) ∧
    (∃ t, exec (.sneVxKK x kk) s = .next t ∧ t.pc = (if s.reg x = kk then s.pc else s.pc + 2) ∧
      Frame { pc := true } s t) ∧
    (∃ t, exec (.seVxVy x y) s = .next t ∧ t.pc = (if s.reg x = s.reg y then s.pc + 2 else s.pc) ∧
      Frame { pc := true } s t) ∧
    (∃ t, exec (.sneVxVy x y) s = .next t ∧ t.pc = (if s.reg x = s.reg y then s.pc else s.pc + 2) ∧
      Frame { pc := true } s t)

/-- CALL NNN: with a free entry the PC is pushed at SP, SP goes down by one and PC is NNN; on a full stack StackOverflow
with depth 16 is reported and nothing is pushed and control does not move (R122, 10_state.md R27; the stack's
convention and the state after the condition are the spec's decisions D4, D14). -/
def Obligations.CallPushesTheReturnAddress : Prop :=
  ∀ (nnn : Addr12) (s : State),
    (-1 < s.sp → ∃ t, exec (.call nnn) s = .next t ∧ t.pc.toNat = nnn.toNat ∧ t.sp = s.sp - 1 ∧
      (∀ k : Fin 16, t.stack[k.val] = if (k.val : Int) = s.sp then s.pc else s.stack[k.val]) ∧
      Frame { pc := true, stack := true } s t) ∧
    (s.sp = -1 → ∃ t, exec (.call nnn) s = .next t ∧ t.clog = s.clog ++ [s.recordOf .stackOverflow 16] ∧
      Frame { clog := true } s t)

/-- RET: with an entry in use SP goes up by one and PC is the entry now at SP; on an empty stack StackUnderflow with
depth 0 is reported, nothing is popped and control does not move (R120, 10_state.md R28, R29; the spec's decisions D4,
D14). -/
def Obligations.RetPopsTheReturnAddress : Prop :=
  ∀ (s : State),
    (s.sp < 15 → ∃ t, exec .ret s = .next t ∧ t.sp = s.sp + 1 ∧ t.stack = s.stack ∧
      (∀ k : Fin 16, (k.val : Int) = s.sp + 1 → t.pc = s.stack[k.val]) ∧
      Frame { pc := true, stack := true } s t) ∧
    (s.sp = 15 → ∃ t, exec .ret s = .next t ∧ t.clog = s.clog ++ [s.recordOf .stackUnderflow 0] ∧
      Frame { clog := true } s t)

/-- A CALL with a free entry followed by a RET, whatever ran between them without touching the stack, returns to the
instruction after the CALL with the stack pointer as it was (R122, R120). -/
def Obligations.CallThenRetReturns : Prop :=
  ∀ (nnn : Addr12) (s t u : State), -1 < s.sp → exec (.call nnn) s = .next t →
    u.stack = t.stack → u.free = t.free →
    ∃ w, exec .ret u = .next w ∧ w.pc = s.pc ∧ w.free = s.free

/-! ## ALU -/

/-- LD Vx,KK and ADD Vx,KK: the byte, and the sum modulo 256 with no flag (42_alu.md R141, R142). -/
def Obligations.ByteLoadAndAdd : Prop :=
  ∀ (x : Reg) (kk : Byte) (s : State),
    decodeWord s.has8xy0 (packXKK 0x6 x kk) = .ok (.ldVxKK x kk) ∧
    decodeWord s.has8xy0 (packXKK 0x7 x kk) = .ok (.addVxKK x kk) ∧
    (∃ t, exec (.ldVxKK x kk) s = .next t ∧ t.reg x = kk ∧ Frame { regs := [x] } s t) ∧
    (∃ t, exec (.addVxKK x kk) s = .next t ∧ (t.reg x).toNat = ((s.reg x).toNat + kk.toNat) % 256 ∧
      Frame { regs := [x] } s t)

/-- OR, AND and XOR combine bit by bit into Vx and leave VF alone (R144, R145, R146). -/
def Obligations.BitwiseCombine : Prop :=
  ∀ (x y : Reg) (s : State),
    decodeWord s.has8xy0 (packXYN 0x8 x y 0x1) = .ok (.orVxVy x y) ∧
    decodeWord s.has8xy0 (packXYN 0x8 x y 0x2) = .ok (.andVxVy x y) ∧
    decodeWord s.has8xy0 (packXYN 0x8 x y 0x3) = .ok (.xorVxVy x y) ∧
    (∃ t, exec (.orVxVy x y) s = .next t ∧
      (∀ k < 8, (t.reg x).getLsbD k = ((s.reg x).getLsbD k || (s.reg y).getLsbD k)) ∧ Frame { regs := [x] } s t) ∧
    (∃ t, exec (.andVxVy x y) s = .next t ∧
      (∀ k < 8, (t.reg x).getLsbD k = ((s.reg x).getLsbD k && (s.reg y).getLsbD k)) ∧ Frame { regs := [x] } s t) ∧
    (∃ t, exec (.xorVxVy x y) s = .next t ∧
      (∀ k < 8, (t.reg x).getLsbD k = ((s.reg x).getLsbD k ^^ (s.reg y).getLsbD k)) ∧ Frame { regs := [x] } s t)

/-- LD Vx,Vy copies Vy and no flag, and 8xy0 is that instruction exactly on a machine with `HAS_8XY0`; without it the
word is invalid (R143; the spec's decision D9). -/
def Obligations.CopyRegister : Prop :=
  ∀ (x y : Reg) (s : State),
    decodeWord true (packXYN 0x8 x y 0x0) = .ok (.ldVxVy x y) ∧
    decodeWord false (packXYN 0x8 x y 0x0) = .error (.invalidOpcode (packXYN 0x8 x y 0x0)) ∧
    ∃ t, exec (.ldVxVy x y) s = .next t ∧ t.reg x = s.reg y ∧ Frame { regs := [x] } s t

/-- ADD Vx,Vy: the sum modulo 256 in Vx, and VF = 1 iff the sum exceeds 255; with x = F the flag remains (R147; that the
flag is written last is the spec's decision D8). -/
def Obligations.AddSetsCarry : Prop :=
  ∀ (x y : Reg) (s : State), ∃ t, exec (.addVxVy x y) s = .next t ∧
    (x ≠ VF → (t.reg x).toNat = ((s.reg x).toNat + (s.reg y).toNat) % 256) ∧
    (t.reg VF).toNat = (if (s.reg x).toNat + (s.reg y).toNat > 255 then 1 else 0) ∧
    Frame { regs := [x, VF] } s t

/-- SUB and SUBN: the difference modulo 256 in Vx, and VF = 1 iff there was no borrow; with x = F the flag remains (R148,
R150; the flag last is the spec's decision D8). -/
def Obligations.SubtractSetsNotBorrow : Prop :=
  ∀ (x y : Reg) (s : State),
    (∃ t, exec (.subVxVy x y) s = .next t ∧
      (x ≠ VF → t.reg x = s.reg x - s.reg y) ∧
      (t.reg VF).toNat = (if (s.reg y).toNat ≤ (s.reg x).toNat then 1 else 0) ∧ Frame { regs := [x, VF] } s t) ∧
    (∃ t, exec (.subnVxVy x y) s = .next t ∧
      (x ≠ VF → t.reg x = s.reg y - s.reg x) ∧
      (t.reg VF).toNat = (if (s.reg x).toNat ≤ (s.reg y).toNat then 1 else 0) ∧ Frame { regs := [x, VF] } s t)

/-- SHR and SHL: half, or the double modulo 256, in Vx, and the bit shifted out in VF; with x = F the flag remains (R149,
R151; the flag last is the spec's decision D8). -/
def Obligations.ShiftsSetTheBitShiftedOut : Prop :=
  ∀ (x : Reg) (s : State),
    (∃ t, exec (.shrVx x) s = .next t ∧ (x ≠ VF → (t.reg x).toNat = (s.reg x).toNat / 2) ∧
      (t.reg VF).toNat = (s.reg x).toNat % 2 ∧ Frame { regs := [x, VF] } s t) ∧
    (∃ t, exec (.shlVx x) s = .next t ∧ (x ≠ VF → (t.reg x).toNat = 2 * (s.reg x).toNat % 256) ∧
      (t.reg VF).toNat = (s.reg x).toNat / 128 ∧ Frame { regs := [x, VF] } s t)

/-- RND Vx,KK: Vx is a drawn byte masked with KK: the next byte the host supplied, or else some byte, of which nothing is
said but that its bits outside KK are cleared (R152; the draw is the spec's decision D23; log 14). -/
def Obligations.RandomByteIsMasked : Prop :=
  ∀ (x : Reg) (kk : Byte) (s : State), ∃ t, exec (.rnd x kk) s = .next t ∧
    (∃ r : Byte, t.reg x = r &&& kk ∧ ∀ b rest, s.rnd = b :: rest → r = b ∧ t.rnd = rest) ∧
    (∀ k < 8, kk.getLsbD k = false → (t.reg x).getLsbD k = false) ∧
    Frame { regs := [x], rnd := true } s t

/-! ## Index and memory -/

/-- LD I,NNN (43_index_memory.md R170). -/
def Obligations.LoadIndexLiteral : Prop :=
  ∀ (nnn : Addr12) (s : State),
    decodeWord s.has8xy0 (packNNN 0xA nnn) = .ok (.ldI nnn) ∧
    ∃ t, exec (.ldI nnn) s = .next t ∧ t.i.toNat = nnn.toNat ∧ Frame { i := true } s t

/-- ADD I,Vx adds modulo 65536 with no flag and no check, and LD F,Vx points I at 5 times the digit, unmasked (R171,
R172; no check at the add and no masking are the spec's decisions D15, D10). -/
def Obligations.IndexArithmetic : Prop :=
  ∀ (x : Reg) (s : State),
    (∃ t, exec (.addIVx x) s = .next t ∧ t.i.toNat = (s.i.toNat + (s.reg x).toNat) % 65536 ∧
      Frame { i := true } s t) ∧
    (∃ t, exec (.ldFVx x) s = .next t ∧ t.i.toNat = 5 * (s.reg x).toNat ∧ Frame { i := true } s t)

/-- LD B,Vx puts the decimal digits of Vx at I, I + 1, I + 2, each that lies in memory, and reports the first index that
does not; every other byte is as before (R173, R174; the digits kept before a failure are the spec's decision D13,
the decimal form of the double-dabble is marked derived). -/
def Obligations.BcdDigitsStored : Prop :=
  ∀ (x : Reg) (s : State), ∃ t, exec (.ldBVx x) s = .next t ∧
    (∀ a, t.mem.read a =
      if 4096 ≤ a then none
      else if a = s.i.toNat then some (BitVec.ofNat 8 ((s.reg x).toNat / 100))
      else if a = s.i.toNat + 1 then some (BitVec.ofNat 8 ((s.reg x).toNat / 10 % 10))
      else if a = s.i.toNat + 2 then some (BitVec.ofNat 8 ((s.reg x).toNat % 10))
      else s.mem.read a) ∧
    t.clog = s.logAfterAccess 3 ∧
    Frame { mem := s.bytesFromI 3, clog := true } s t

/-- LD [I],Vx puts V0..Vx at I.. ascending, each that lies in memory, and reports the first index that does not; every
other byte is as before and I is unchanged (R175; 20_memory.md R66; the spec's decisions D13, D38). -/
def Obligations.BlockStore : Prop :=
  ∀ (x : Reg) (s : State), ∃ t, exec (.ldMemVx x) s = .next t ∧
    (∀ r : Reg, r ≤ x → s.i.toNat + r.val < 4096 → t.mem.read (s.i.toNat + r.val) = some (s.reg r)) ∧
    (∀ a, (a < s.i.toNat ∨ s.i.toNat + x.val < a ∨ 4096 ≤ a) → t.mem.read a = s.mem.read a) ∧
    t.clog = s.logAfterAccess (x.val + 1) ∧
    Frame { mem := s.bytesFromI (x.val + 1), clog := true } s t

/-- LD Vx,[I] loads V0..Vx from I.. ascending, each whose index lies in memory, and reports the first index that does
not; the registers from there on keep their values (R176; the spec's decisions D13, D38). -/
def Obligations.BlockLoad : Prop :=
  ∀ (x : Reg) (s : State), ∃ t, exec (.ldVxMem x) s = .next t ∧
    (∀ r : Reg, r ≤ x → some (t.reg r) = if s.i.toNat + r.val < 4096 then s.mem.read (s.i.toNat + r.val)
      else some (s.reg r)) ∧
    t.clog = s.logAfterAccess (x.val + 1) ∧
    Frame { regs := regsUpTo x, clog := true } s t

/-- Storing V0..Vx at I inside memory and loading V0..Vx from the same I, in any later state with that memory and that
I, gives back the registers stored (R175, R176; the unchanged I is the spec's decision D38). -/
def Obligations.BlockStoreThenLoadRestores : Prop :=
  ∀ (x : Reg) (s t u : State), s.i.toNat + x.val < 4096 → exec (.ldMemVx x) s = .next t →
    u.mem = t.mem → u.i = t.i →
    ∃ w, exec (.ldVxMem x) u = .next w ∧ ∀ r : Reg, r ≤ x → w.reg r = s.reg r

/-- A store by one instruction is what the next fetch reads: after LD [I],Vx with x of 1 or more and I at PC inside
memory, the word fetched at PC is V0, V1 (20_memory.md R73; the spec's decision D26). -/
def Obligations.StoredCodeIsFetched : Prop :=
  ∀ (x : Reg) (s t : State), 1 ≤ x.val → s.i = s.pc → s.pc.toNat + 1 < 4096 → exec (.ldMemVx x) s = .next t →
    t.fetchWord = .ok (s.reg 0 ++ s.reg 1)

/-! ## Display and input -/

/-- CLS clears every cell and leaves VF alone, for every x of its word (44_display_input.md R190). -/
def Obligations.ClearScreen : Prop :=
  ∀ (x : Fin 16) (s : State), decodeWord s.has8xy0 (packXKK 0x0 x 0xE0) = .ok .cls ∧
    ∃ t, exec .cls s = .next t ∧ (∀ r < 32, ∀ c < 64, t.fb.cell r c = false) ∧ Frame { fb := true } s t

/-- DRW draws, clipped and not wrapped, the exclusive or of the framebuffer with the sprite rows that lie in memory, at
the position Vx, Vy held on entry; VF is 1 iff a set sprite bit met a set cell; the first row outside memory is
reported (R191, R192, R193; the latch of the position and the reading of clipped rows are the spec's decision D12,
R193 is marked derived). -/
def Obligations.DrawIsClippedXor : Prop :=
  ∀ (x y n : Fin 16) (s : State), ∃ t, exec (.drw x y n) s = .next t ∧
    (∀ r < 32, ∀ c < 64, t.fb.cell r c =
      (s.fb.cell r c ^^ s.spriteBit (s.reg x).toNat (s.reg y).toNat (s.bytesInMemory n.val) r c)) ∧
    ((∃ r < 32, ∃ c < 64, s.fb.cell r c = true ∧
      s.spriteBit (s.reg x).toNat (s.reg y).toNat (s.bytesInMemory n.val) r c = true) → t.reg VF = 1) ∧
    ((∀ r < 32, ∀ c < 64, s.fb.cell r c = true →
      s.spriteBit (s.reg x).toNat (s.reg y).toNat (s.bytesInMemory n.val) r c = false) → t.reg VF = 0) ∧
    t.clog = s.logAfterAccess n.val ∧
    Frame { regs := [VF], fb := true, clog := true } s t

/-- Drawing a sprite a second time at the same place restores the framebuffer (R191; x = F and y = F are the forms
where the second draw is elsewhere, since the first wrote VF). -/
def Obligations.DrawTwiceRestoresTheScreen : Prop :=
  ∀ (x y n : Fin 16) (s t : State), x ≠ VF → y ≠ VF → exec (.drw x y n) s = .next t →
    ∃ u, exec (.drw x y n) t = .next u ∧ ∀ r < 32, ∀ c < 64, u.fb.cell r c = s.fb.cell r c

/-- SKP and SKNP skip on the sampled state of key Vx; a code of 16 or more is reported and neither skips (R194, R195; the
report is the spec's decision D11). -/
def Obligations.KeySkips : Prop :=
  ∀ (x : Reg) (s : State),
    (∀ k : Fin 16, (s.reg x).toNat = k.val →
      (∃ t, exec (.skp x) s = .next t ∧ t.pc = (if s.key[k.val] = true then s.pc + 2 else s.pc) ∧
        Frame { pc := true } s t) ∧
      (∃ t, exec (.sknp x) s = .next t ∧ t.pc = (if s.key[k.val] = true then s.pc else s.pc + 2) ∧
        Frame { pc := true } s t)) ∧
    (16 ≤ (s.reg x).toNat →
      (∃ t, exec (.skp x) s = .next t ∧ t.clog = s.clog ++ [s.recordOf .outOfBoundsAddress (s.reg x).toNat] ∧
        Frame { clog := true } s t) ∧
      (∃ t, exec (.sknp x) s = .next t ∧ t.clog = s.clog ++ [s.recordOf .outOfBoundsAddress (s.reg x).toNat] ∧
        Frame { clog := true } s t))

/-- LD Vx,K blocks the CPU on its register and changes nothing else, the keypad included (R196, its first step; the
spec's decision D22). -/
def Obligations.KeyWaitBlocks : Prop :=
  ∀ (x : Reg) (s : State), ∃ t, exec (.ldVxK x) s = .next t ∧ t.phase = .waitKey x ∧ Frame { phase := true } s t

/-! ## Timers -/

/-- LD Vx,DT reads the count and does not change the timer (45_timer_access.md R210, 60_exceptions.md R241). -/
def Obligations.ReadDelayTimer : Prop :=
  ∀ (x : Reg) (s : State), decodeWord s.has8xy0 (packXKK 0xF x 0x07) = .ok (.ldVxDT x) ∧
    ∃ t, exec (.ldVxDT x) s = .next t ∧ t.reg x = s.dt.value ∧ Frame { regs := [x] } s t

/-- LD DT,Vx and LD ST,Vx: the count is Vx; an enabled timer runs exactly when it is not 0; a disabled one is plain
storage; setting an enabled running ST to 0 emits one ToneOff and no other set emits anything (R211, R212,
60_exceptions.md R236, R239; the spec's decisions D16, D18). -/
def Obligations.SetTimers : Prop :=
  ∀ (x : Reg) (s : State),
    (∃ t, exec (.ldDTVx x) s = .next t ∧ t.dt.value = s.reg x ∧ t.dt.disabled = s.dt.disabled ∧
      t.dt.running = (if s.dt.disabled = true then s.dt.running else decide (s.reg x ≠ 0)) ∧
      Frame { dt := true } s t) ∧
    (∃ t, exec (.ldSTVx x) s = .next t ∧ t.st.value = s.reg x ∧ t.st.disabled = s.st.disabled ∧
      t.st.running = (if s.st.disabled = true then s.st.running else decide (s.reg x ≠ 0)) ∧
      t.tone = (if s.st.disabled = false ∧ s.st.running = true ∧ s.reg x = 0 then s.tone ++ [.off] else s.tone) ∧
      Frame { st := true } s t)

/-- A delay timer that runs from N, left alone, is at N - k after k of its ticks, k up to N, and after exactly N has
stopped at 0; its ticks change nothing else, whatever the CPU waits for (R237, R242; the spec's decision D17). That a
running timer counts from more than 0 is the invariant of R43, stated below. -/
def Obligations.DelayTimerCountsDown : Prop :=
  ∀ (k : Nat) (s : State) (rest : List Move), s.phase ≠ .ended → s.dt.running = true → s.dt.ok →
    k ≤ s.dt.value.toNat → s.sched = List.replicate k .tickDT ++ rest →
    ∃ d : Timer, Host.Core.run Sys2Proof.core k s = .next { s with dt := d, sched := rest } ∧
      d.value.toNat = s.dt.value.toNat - k ∧ d.disabled = s.dt.disabled ∧
      d.running = decide (k < s.dt.value.toNat)

/-- A sound timer that runs from N of 1 or more, left alone, emits N times ToneOn over N ticks and one ToneOff at the
end, and stops; a further tick emits nothing (R237, R238; the spec's decision D17; the empty tick is log 10). That a
running timer counts from more than 0 is the invariant of R43, stated below. -/
def Obligations.SoundTimerTones : Prop :=
  ∀ (s : State) (rest : List Move), s.phase ≠ .ended → s.st.running = true → s.st.ok →
    s.sched = List.replicate (s.st.value.toNat + 1) .tickST ++ rest →
    Host.Core.run Sys2Proof.core (s.st.value.toNat + 1) s = .next { s with
      st := { s.st with value := 0, running := false }
      tone := s.tone ++ List.replicate s.st.value.toNat .on ++ [.off]
      sched := rest }

/-! ## The Monitor -/

/-- The permission check: Step-armed runs, Paused does not; a Running check at a breakpoint pauses the machine unless
`skip_once` guards it, and the guard lasts one check (60_exceptions.md R245, R246, R249; the guard is the spec's
decision D20). -/
def Obligations.PermissionCheck : Prop :=
  ∀ (m : Monitor) (pc : Word),
    (m.active = true → m.permit pc = (m.step, m)) ∧
    (m.active = false → pc ∈ m.bp → m.skipOnce = false →
      m.permit pc = (false, { m with active := true, step := false })) ∧
    (m.active = false → (pc ∉ m.bp ∨ m.skipOnce = true) → m.permit pc = (true, { m with skipOnce := false }))

/-- The debugger's commands: each sets or clears one breakpoint and no other, or moves between Running, Paused and
Step-armed as the table says, and is ignored elsewhere (R245, R248 to R251; the spec's decisions D19, D20). -/
def Obligations.DebuggerCommands : Prop :=
  ∀ (m : Monitor) (a b : Word),
    ((m.apply (.setBreakpoint a)).breakAt b = (decide (b = a) || m.breakAt b)) ∧
    ((m.apply (.clearBreakpoint a)).breakAt b = (decide (b ≠ a) && m.breakAt b)) ∧
    (∀ c, c = .setBreakpoint a ∨ c = .clearBreakpoint a →
      (m.apply c).active = m.active ∧ (m.apply c).step = m.step ∧ (m.apply c).skipOnce = m.skipOnce) ∧
    (m.apply .step = if m.active = true then { m with step := true } else m) ∧
    (m.apply .deactivate =
      if m.active = true then { m with active := false, step := false, skipOnce := true } else m) ∧
    (m.apply .pause =
      if m.active = true then m else { m with active := true, step := false, skipOnce := false })

/-- A breakpoint at PC stops a Running machine before the instruction there: the step leaves PC, the registers, memory and
the stack, and the machine is Paused (R247, which the spec marks derived). -/
def Obligations.BreakpointStopsBeforeTheInstruction : Prop :=
  ∀ (s : State), s.atCycle → s.monAtCheck.active = false → s.monAtCheck.breakAt s.pc = true →
    s.monAtCheck.skipOnce = false →
    ∃ t, step s = .next t ∧ t.pc = s.pc ∧ t.mon.active = true ∧ t.mon.step = false ∧ t.clog = s.clog ∧
      (∀ r, t.reg r = s.reg r) ∧ t.i = s.i ∧ t.mem = s.mem ∧ t.stack = s.stack ∧ t.free = s.free ∧ t.fb = s.fb ∧
      t.dt = s.dt ∧ t.st = s.st

/-- A Step command to a Paused machine lets exactly one cycle run, at a breakpoint too: the next cycle is permitted, and
when it ends with the CPU not blocked the Monitor is Paused again, its breakpoints as they were (R248, R252; the spec's
decisions D19, D37). -/
def Obligations.StepCommandRunsOneCycle : Prop :=
  ∀ (s : State), s.atCycle → s.mon.active = true → s.cmdq = [.step] →
    (s.monAtCheck.permit s.pc).1 = true ∧ ∃ t, step s = .next t ∧
    ((∀ x, t.phase ≠ .waitKey x) → t.mon = { s.mon with step := false }) ∧
    ((∃ x, t.phase = .waitKey x) → t.mon = { s.mon with step := true })

/-- The program cannot observe the Monitor, the command queue, the condition log's past or the screen snapshots: an
instruction does the same whatever they hold, and carries them along (60_exceptions.md R254, 10_state.md R42, both
marked derived by the spec; the snapshots are the model's fields of log 15). -/
def Obligations.ProgramCannotObserveTheMonitor : Prop :=
  ∀ (i : Instr) (s t : State) (m : Monitor) (q : List DbgCommand) (log : List CondRecord) (f : Option FrameBuffer)
    (k : Nat), exec i s = .next t →
    ∃ new, t.clog = s.clog ++ new ∧
      exec i { s with mon := m, cmdq := q, clog := log, frame := f, frames := k } =
        .next { t with mon := m, cmdq := q, clog := log ++ new, frame := f, frames := k }

/-! ## Reset and load -/

/-- Reset under a configuration: the glyph table at 0..79 and zero above it, nothing outside memory; PC 0x200, SP 15, the
timers' disabled flags as configured, and every other register 0, the Monitor Running without breakpoints, the CPU
Idle, the log empty (10_state.md R41, 70_reset_and_hazards.md R280; all but memory, PC and SP are the spec's decisions
D2, D5, D18, D21, log 5). -/
def Obligations.ResetState : Prop :=
  ∀ (c : Config) (s : State), s = State.resetWith c →
    (∀ a : Nat, s.mem.read a =
      if h : a < 80 then some c.glyphTable[a] else if a < 4096 then some 0 else none) ∧
    s.pc = 0x200 ∧ s.sp = 15 ∧ (∀ r, s.reg r = 0) ∧ s.i = 0 ∧ (∀ k : Fin 16, s.stack[k.val] = 0) ∧
    s.dt = ⟨0, false, c.dtDisabled⟩ ∧ s.st = ⟨0, false, c.stDisabled⟩ ∧ (∀ k : Fin 16, s.key[k.val] = false) ∧
    (∀ r < 32, ∀ k < 64, s.fb.cell r k = false) ∧ (∀ a, s.mon.breakAt a = false) ∧
    s.mon.active = false ∧ s.mon.step = false ∧ s.mon.skipOnce = false ∧ s.cmdq = [] ∧ s.phase = .idle ∧
    s.clog = [] ∧ s.has8xy0 = c.has8xy0

/-- LoadProgram of at most 3584 bytes in Idle places them from 0x200 on, leaves every other byte, and makes the CPU Ready;
nothing else changes (70_reset_and_hazards.md R281; the spec's decision D31; the load as a move of the schedule is
log 17). -/
def Obligations.LoadPlacesTheProgram : Prop :=
  ∀ (s : State) (bytes : List Byte) (rest : List Move), s.phase = .idle → bytes.length ≤ 3584 →
    s.sched = .load bytes :: rest →
    ∃ m, step s = .next { s with mem := m, phase := .ready, sched := rest } ∧
      ∀ a, m.read a = if 0x200 ≤ a ∧ a < 0x200 + bytes.length then bytes[a - 0x200]? else s.mem.read a

/-- A program of more than 3584 bytes is fatal at load: ProgramTooLarge with its length is reported, memory is left as it
was, and the CPU has no step from there (R282; that its move is a fault of the model is log 11, the record's form
log 19). -/
def Obligations.OversizedProgramIsFatal : Prop :=
  ∀ (s : State) (bytes : List Byte) (rest : List Move), s.phase = .idle → 3584 < bytes.length →
    s.sched = .load bytes :: rest →
    ∃ t, step s = .next t ∧ t = { s with
        phase := .loadFailed
        clog := s.clog ++ [⟨.programTooLarge, none, none, bytes.length⟩]
        sched := rest } ∧
      (t.cpuNext → step t = .fault .loadFailed)

/-! ## Rules of the whole machine -/

/-- Every instruction, in every state, answers a next state, and changes nothing but what its row of the access tables
names: registers (10_state.md R22, R23), I (R24), PC (R25), the stack (R29), the framebuffer (R32), of memory the bytes
at I + k alone, k below 3 for LD B,Vx and k up to x for LD [I],Vx (20_memory.md R61), the timers (R30); the rest, the Monitor included, never (60_exceptions.md R220, R233, R254; the tables are marked
derived by the spec). -/
def Obligations.EveryInstructionKeepsItsFrame : Prop :=
  ∀ (i : Instr) (s : State), ∃ t, exec i s = .next t ∧ Frame (writesOf s i) s t

/-- Reset meets every invariant below, under every configuration. The canonical form of memory is the model's own (log 7),
and so is the form of the breakpoint list in `Consistent` (log 22); the reset values of the timers, the Monitor and the
stack entries are the spec's decision D5 (R41, log 5); the invariants R43 and R112 are marked derived by the spec. -/
def Obligations.ResetMeetsTheInvariants : Prop :=
  ∀ (c : Config), (State.resetWith c).mem.wf ∧ (State.resetWith c).Consistent ∧ (State.resetWith c).PcBounded

/-- Every step, of any agent, keeps memory in canonical form (log 7). -/
def Obligations.StepKeepsMemoryCanonical : Prop :=
  ∀ (s t : State), s.mem.wf → step s = .next t → t.mem.wf

/-- Every step, of any agent, keeps the invariants of 10_state.md R43: a running timer counts and is enabled, and a
Running Monitor is not stepping; and the breakpoint list keeps its form (R43 is marked derived by the spec; log 22). -/
def Obligations.StepKeepsTimersAndMonitorConsistent : Prop :=
  ∀ (s t : State), s.Consistent → step s = .next t → t.Consistent

/-- Every step, of any agent, keeps PC at most 0x10FE and the stack entries at most 0x1000 (40_cycle.md R112, which the
spec marks derived). -/
def Obligations.StepKeepsPcBounded : Prop :=
  ∀ (s t : State), s.PcBounded → step s = .next t → t.PcBounded

/-- No step changes the configuration: the glyph table, `HAS_8XY0` and the timers' disabled flags (00_scope.md R11,
60_exceptions.md R239). -/
def Obligations.StepKeepsTheConfiguration : Prop :=
  ∀ (s t : State), step s = .next t →
    t.mem.glyphs = s.mem.glyphs ∧ t.has8xy0 = s.has8xy0 ∧ t.dt.disabled = s.dt.disabled ∧
      t.st.disabled = s.st.disabled

/-- A step appends at most one record to the condition log and removes none (60_exceptions.md R226, R230; R230 is marked
derived by the spec). -/
def Obligations.StepReportsAtMostOneCondition : Prop :=
  ∀ (s t : State), step s = .next t → t.clog = s.clog ∨ ∃ r, t.clog = s.clog ++ [r]

/-- The machine stops only where the spec gives no step: at the CPU's move in the final phases, and at a host move outside
the host's duties. No instruction stops it (R101, R220, R271, R282; log 11, log 12). -/
def Obligations.StepStopsOnlyWhereTheSpecDoes : Prop :=
  ∀ (s : State),
    (∀ f, step s = .fault f ↔
      s.cpuNext ∧ ((s.phase = .ended ∧ f = .runEnded) ∨ (s.phase = .loadFailed ∧ f = .loadFailed))) ∧
    (∀ r, step s = .refused r ↔
      (s.phase ≠ .idle ∧ r = .loadOutsideIdle ∧ ∃ bytes rest, s.sched = .load bytes :: rest) ∨
      ((∀ x, s.phase ≠ .waitKey x) ∧ r = .keyNotRequested ∧ ∃ k rest, s.sched = .keyAnswer k :: rest))

/-- The Monitor, the host and the timers never write what the CPU owns: in a step that is not the CPU's, nor a load, nor
a key answer, the registers, I, PC, memory, the stack and the framebuffer stay (20_memory.md R70, R75; 60_exceptions.md
R242, R253, R271). -/
def Obligations.OtherAgentsLeaveTheCpuAlone : Prop :=
  ∀ (s t : State) (m : Move) (rest : List Move), s.sched = m :: rest → m ≠ .cpu →
    (∀ bytes, m ≠ .load bytes) → (∀ k, m ≠ .keyAnswer k) → step s = .next t →
    t.v = s.v ∧ t.i = s.i ∧ t.pc = s.pc ∧ t.mem = s.mem ∧ t.stack = s.stack ∧ t.free = s.free ∧ t.fb = s.fb ∧
      t.key = s.key ∧ t.mon = s.mon ∧ t.phase = s.phase ∧ t.clog = s.clog

/-- The host's liberties, at any time and in every phase, the final ones included: it presents levels on `alive` and
`keys`, supplies the next byte of `rnd`, and appends a debugger command at the end of `CMDQ`; each changes nothing else
(10_state.md R36; 60_exceptions.md R263, R264, R268, R270, R271; the spec's decisions D22, D31 for R271; the moves are
the model's schedule log 8, the fields of the levels and of `rnd` log 13, log 14). -/
def Obligations.HostMovesAtAnyTime : Prop :=
  ∀ (s : State) (rest : List Move),
    (∀ b, s.sched = .setAlive b :: rest → step s = .next { s with alive := b, sched := rest }) ∧
    (∀ k, s.sched = .setKeys k :: rest → step s = .next { s with keys := k, sched := rest }) ∧
    (∀ b, s.sched = .supplyRnd b :: rest → step s = .next { s with rnd := s.rnd ++ [b], sched := rest }) ∧
    (∀ c, s.sched = .command c :: rest → step s = .next { s with cmdq := s.cmdq ++ [c], sched := rest })

/-- Ended and LoadFailed are final: whatever moves, the phase stays, and so does all that the CPU and the Monitor write,
and in Ended the timers and the tone port (40_cycle.md R101, R114; 60_exceptions.md R240; 70_reset_and_hazards.md R282;
the spec's decisions D30, D31). -/
def Obligations.FinalPhasesAreFinal : Prop :=
  ∀ (s t : State), (s.phase = .ended ∨ s.phase = .loadFailed) → step s = .next t →
    t.phase = s.phase ∧ t.v = s.v ∧ t.i = s.i ∧ t.pc = s.pc ∧ t.mem = s.mem ∧ t.stack = s.stack ∧ t.free = s.free ∧
      t.fb = s.fb ∧ t.key = s.key ∧ t.mon = s.mon ∧ t.clog = s.clog ∧ t.frame = s.frame ∧
      (s.phase = .ended → t.dt = s.dt ∧ t.st = s.st ∧ t.tone = s.tone)
end

