-- ==== Sys2Proof/Laws/Memory.lean ====
section
/-! SUPPORT. The laws of memory: a read after a write, and that every operation keeps the canonical form. -/

namespace Sys2Proof.Machine

/-! ## The list of cells -/

theorem Memory.lookup_insert (l : List Host.Cell) (a b : Nat) (v : Byte) :
    Memory.lookup (Memory.insert l a v) b = if a = b then some v else Memory.lookup l b := by
  induction l with
  | nil => simp [Memory.insert, Memory.lookup]
  | cons c t ih =>
    obtain ⟨k, d⟩ := c
    unfold Memory.insert
    split
    · simp [Memory.lookup]
    · split
      · rename_i h; subst h
        by_cases e : a = b <;> simp [Memory.lookup, e]
      · rename_i h
        by_cases e : k = b
        · subst e; simp [Memory.lookup, h]
        · simp [Memory.lookup, e, ih]

theorem Memory.lookup_erase (l : List Host.Cell) (a b : Nat) :
    Memory.lookup (Memory.erase l a) b = if a = b then none else Memory.lookup l b := by
  induction l with
  | nil => simp [Memory.erase, Memory.lookup]
  | cons c t ih =>
    obtain ⟨k, d⟩ := c
    unfold Memory.erase
    split
    · rename_i h; subst h
      by_cases e : k = b
      · subst e; simpa using ih
      · simp [Memory.lookup, e, ih]
    · rename_i h
      by_cases e : k = b
      · subst e; simp [Memory.lookup, Ne.symm h]
      · simp [Memory.lookup, e, ih]

theorem Memory.mem_insert {l : List Host.Cell} {a : Nat} {v : Byte} {c : Host.Cell}
    (h : c ∈ Memory.insert l a v) : c = (a, v) ∨ c ∈ l := by
  induction l with
  | nil => simpa [Memory.insert] using h
  | cons d t ih =>
    obtain ⟨k, e⟩ := d
    unfold Memory.insert at h
    split at h
    · simpa using h
    · split at h
      · rcases List.mem_cons.1 h with h | h
        · exact .inl h
        · exact .inr (List.mem_cons_of_mem _ h)
      · rcases List.mem_cons.1 h with h | h
        · exact .inr (h ▸ List.mem_cons_self)
        · exact (ih h).imp_right (List.mem_cons_of_mem _)

theorem Memory.mem_erase {l : List Host.Cell} {a : Nat} {c : Host.Cell}
    (h : c ∈ Memory.erase l a) : c ∈ l := by
  induction l with
  | nil => simp [Memory.erase] at h
  | cons d t ih =>
    obtain ⟨k, e⟩ := d
    unfold Memory.erase at h
    split at h
    · exact List.mem_cons_of_mem _ (ih h)
    · rcases List.mem_cons.1 h with h | h
      · exact h ▸ List.mem_cons_self
      · exact List.mem_cons_of_mem _ (ih h)

/-- The addresses rise strictly. -/
abbrev Memory.rising (l : List Host.Cell) : Prop := l.Pairwise (fun p q => p.1 < q.1)

theorem Memory.rising_insert {l : List Host.Cell} (a : Nat) (v : Byte) (h : Memory.rising l) :
    Memory.rising (Memory.insert l a v) := by
  induction l with
  | nil => simp [Memory.insert, Memory.rising]
  | cons d t ih =>
    obtain ⟨k, e⟩ := d
    obtain ⟨hk, ht⟩ := List.pairwise_cons.1 h
    unfold Memory.insert
    split
    · rename_i hlt
      refine List.pairwise_cons.2 ⟨fun c hc => ?_, h⟩
      rcases List.mem_cons.1 hc with rfl | hc
      · exact hlt
      · exact Nat.lt_trans hlt (hk c hc)
    · split
      · rename_i he; subst he
        exact List.pairwise_cons.2 ⟨hk, ht⟩
      · rename_i h1 h2
        refine List.pairwise_cons.2 ⟨fun c hc => ?_, ih ht⟩
        rcases Memory.mem_insert hc with rfl | hc
        · show k < a
          omega
        · exact hk c hc

theorem Memory.rising_erase {l : List Host.Cell} (a : Nat) (h : Memory.rising l) :
    Memory.rising (Memory.erase l a) := by
  induction l with
  | nil => simp [Memory.erase, Memory.rising]
  | cons d t ih =>
    obtain ⟨k, e⟩ := d
    obtain ⟨hk, ht⟩ := List.pairwise_cons.1 h
    unfold Memory.erase
    split
    · exact ih ht
    · exact List.pairwise_cons.2 ⟨fun c hc => hk c (Memory.mem_erase hc), ih ht⟩

/-! ## Reading after writing -/

@[simp] theorem Memory.poke_glyphs (m : Memory) (a : Nat) (b : Byte) : (m.poke a b).glyphs = m.glyphs := rfl

@[simp] theorem Memory.unlisted_poke (m : Memory) (a k : Nat) (b : Byte) :
    (m.poke a b).unlisted k = m.unlisted k := rfl

theorem Memory.peek_poke (m : Memory) (a k : Nat) (b : Byte) :
    (m.poke a b).peek k = if a = k then b else m.peek k := by
  unfold Memory.peek
  rw [Memory.unlisted_poke]
  unfold Memory.poke
  split
  · rename_i h
    rw [Memory.lookup_erase]
    split
    · rename_i e; subst e; simp [h]
    · rfl
  · rw [Memory.lookup_insert]
    split <;> simp

@[simp] theorem Memory.peek_poke_self (m : Memory) (a : Nat) (b : Byte) : (m.poke a b).peek a = b := by
  simp [Memory.peek_poke]

theorem Memory.read_poke (m : Memory) (a k : Nat) (b : Byte) (h : a < 4096) :
    (m.poke a b).read k = if a = k then some b else m.read k := by
  unfold Memory.read
  rw [Memory.peek_poke]
  by_cases e : a = k
  · subst e; simp [h]
  · simp [e]

theorem Memory.read_eq_none (m : Memory) (a : Nat) : m.read a = none ↔ 4096 ≤ a := by
  unfold Memory.read
  split <;> simp <;> omega

theorem Memory.read_of_lt (m : Memory) {a : Nat} (h : a < 4096) : m.read a = some (m.peek a) := by
  simp [Memory.read, h]

/-- Everything a checked write can do. -/
theorem Memory.write_cases (m : Memory) (a : Nat) (b : Byte) :
    (a < 4096 ∧ m.write a b = some (m.poke a b)) ∨ (4096 ≤ a ∧ m.write a b = none) := by
  unfold Memory.write
  by_cases h : a < 4096
  · exact .inl ⟨h, by simp [h]⟩
  · exact .inr ⟨by omega, by simp [h]⟩

theorem Memory.read_write {m m' : Memory} {a : Nat} {b : Byte} (h : m.write a b = some m') (k : Nat) :
    m'.read k = if a = k then some b else m.read k := by
  rcases m.write_cases a b with ⟨ha, e⟩ | ⟨_, e⟩
  · rw [e] at h; cases h
    exact m.read_poke a k b ha
  · rw [e] at h; cases h

@[simp] theorem Memory.pokeAll_glyphs (m : Memory) (a : Nat) (bs : List Byte) : (m.pokeAll a bs).glyphs = m.glyphs := by
  induction bs generalizing a with
  | nil => rfl
  | cons b bs ih => simpa [Memory.pokeAll] using ih (a + 1)

/-- What `pokeAll` leaves at an address: the byte of the sequence placed there, else what was there. -/
theorem Memory.peek_pokeAll (m : Memory) (a k : Nat) (bs : List Byte) :
    (m.pokeAll a bs).peek k = if h : a ≤ k ∧ k - a < bs.length then bs[k - a]'h.2 else m.peek k := by
  induction bs generalizing a with
  | nil => simp [Memory.pokeAll]
  | cons b bs ih =>
    rw [Memory.pokeAll, Memory.peek_poke, ih]
    by_cases e : a = k
    · subst e; simp
    · by_cases h : a + 1 ≤ k
      · obtain ⟨d, rfl⟩ : ∃ d, k = a + 1 + d := ⟨k - (a + 1), by omega⟩
        have e1 : a + 1 + d - a = d + 1 := by omega
        have e2 : a + 1 + d - (a + 1) = d := by omega
        simp [e, e1, show a ≤ a + 1 + d by omega]
      · have h' : ¬ a ≤ k := by omega
        simp [e, h, h']

/-! ## The canonical form -/

theorem Memory.wf_poke {m : Memory} {a : Nat} (b : Byte) (hm : m.wf) (ha : a < 4096) : (m.poke a b).wf := by
  obtain ⟨hr, hc⟩ := hm
  unfold Memory.poke
  split
  · exact ⟨Memory.rising_erase a hr, fun c h => hc c (Memory.mem_erase h)⟩
  · rename_i hb
    refine ⟨Memory.rising_insert a b hr, fun c h => ?_⟩
    rcases Memory.mem_insert h with rfl | h
    · exact ⟨ha, hb⟩
    · exact hc c h

theorem Memory.wf_write {m m' : Memory} {a : Nat} {b : Byte} (hm : m.wf) (h : m.write a b = some m') : m'.wf := by
  rcases m.write_cases a b with ⟨ha, e⟩ | ⟨_, e⟩
  · rw [e] at h; cases h; exact Memory.wf_poke b hm ha
  · rw [e] at h; cases h

theorem Memory.wf_pokeAll {m : Memory} (a : Nat) (bs : List Byte) (hm : m.wf) (h : a + bs.length ≤ 4096) :
    (m.pokeAll a bs).wf := by
  induction bs generalizing a with
  | nil => exact hm
  | cons b bs ih =>
    simp only [List.length_cons] at h
    exact Memory.wf_poke b (ih (a + 1) (by omega)) (by omega)

/-- Memory with nothing listed, as reset leaves it, is in canonical form. -/
theorem Memory.wf_reset (c : Config) : (State.resetWith c).mem.wf := by
  simp [State.resetWith, Memory.wf]

end Sys2Proof.Machine
end

