-- ==== Sys2Proof/Laws/Monitor.lean ====
section
/-! SUPPORT. The laws of the Monitor: the breakpoint list as a set, its form, and what each operation can do. -/

namespace Sys2Proof.Machine

theorem mem_setBreak (l : List Word) (a b : Word) : b ∈ setBreak l a ↔ b = a ∨ b ∈ l := by
  induction l with
  | nil => simp [setBreak]
  | cons c t ih =>
    unfold setBreak
    split
    · simp
    · split
      · rename_i h; subst h; simp
      · rw [List.mem_cons, ih, List.mem_cons]; tauto

theorem mem_clearBreak (l : List Word) (a b : Word) : b ∈ clearBreak l a ↔ b ≠ a ∧ b ∈ l := by
  induction l with
  | nil => simp [clearBreak]
  | cons c t ih =>
    unfold clearBreak
    split
    · rename_i h; subst h
      rw [ih, List.mem_cons]; tauto
    · rename_i h
      rw [List.mem_cons, ih, List.mem_cons]
      constructor
      · rintro (rfl | ⟨h1, h2⟩)
        · exact ⟨h, .inl rfl⟩
        · exact ⟨h1, .inr h2⟩
      · rintro ⟨h1, rfl | h2⟩
        · exact .inl rfl
        · exact .inr ⟨h1, h2⟩

/-- The breakpoint addresses rise strictly. -/
abbrev risingBp (l : List Word) : Prop := l.Pairwise (fun a b => a.toNat < b.toNat)

theorem rising_setBreak {l : List Word} (a : Word) (h : risingBp l) : risingBp (setBreak l a) := by
  induction l with
  | nil => simp [setBreak, risingBp]
  | cons c t ih =>
    obtain ⟨hc, ht⟩ := List.pairwise_cons.1 h
    unfold setBreak
    split
    · rename_i hlt
      refine List.pairwise_cons.2 ⟨fun b hb => ?_, h⟩
      rcases List.mem_cons.1 hb with rfl | hb
      · exact hlt
      · exact Nat.lt_trans hlt (hc b hb)
    · split
      · exact h
      · rename_i h1 h2
        refine List.pairwise_cons.2 ⟨fun b hb => ?_, ih ht⟩
        rcases (mem_setBreak t a b).1 hb with rfl | hb
        · have : b.toNat ≠ c.toNat := fun e => h2 (BitVec.eq_of_toNat_eq e)
          omega
        · exact hc b hb

theorem rising_clearBreak {l : List Word} (a : Word) (h : risingBp l) : risingBp (clearBreak l a) := by
  induction l with
  | nil => simp [clearBreak, risingBp]
  | cons c t ih =>
    obtain ⟨hc, ht⟩ := List.pairwise_cons.1 h
    unfold clearBreak
    split
    · exact ih ht
    · exact List.pairwise_cons.2 ⟨fun b hb => hc b ((mem_clearBreak t a b).1 hb).2, ih ht⟩

theorem Monitor.breakAt_iff (m : Monitor) (a : Word) : m.breakAt a = true ↔ a ∈ m.bp := by
  simp [Monitor.breakAt]

theorem Monitor.bpWf_apply {m : Monitor} (c : DbgCommand) (h : m.bpWf) : (m.apply c).bpWf := by
  cases c with
  | setBreakpoint a => exact rising_setBreak a h
  | clearBreakpoint a => exact rising_clearBreak a h
  | step => unfold Monitor.apply; dsimp only; split <;> exact h
  | deactivate => unfold Monitor.apply; dsimp only; split <;> exact h
  | pause => unfold Monitor.apply; dsimp only; split <;> exact h

/-- A command keeps "Running implies not stepping". -/
theorem Monitor.stepOk_apply {m : Monitor} (c : DbgCommand) (h : m.active = false → m.step = false) :
    (m.apply c).active = false → (m.apply c).step = false := by
  cases c <;> cases ha : m.active <;> simp_all [Monitor.apply]

/-- Everything the permission check can do. -/
theorem Monitor.permit_cases (m : Monitor) (pc : Word) :
    (m.active = true ∧ m.permit pc = (m.step, m)) ∨
    (m.active = false ∧ m.breakAt pc = true ∧ m.skipOnce = false ∧
      m.permit pc = (false, { m with active := true, step := false, skipOnce := false })) ∨
    (m.active = false ∧ (m.breakAt pc = false ∨ m.skipOnce = true) ∧
      m.permit pc = (true, { m with skipOnce := false })) := by
  unfold Monitor.permit
  cases ha : m.active <;> cases hb : m.breakAt pc <;> cases hs : m.skipOnce <;> simp

theorem Monitor.permit_bp (m : Monitor) (pc : Word) : (m.permit pc).2.bp = m.bp := by
  rcases m.permit_cases pc with ⟨_, e⟩ | ⟨_, _, _, e⟩ | ⟨_, _, e⟩ <;> rw [e]

/-- Draining the queue keeps what every command keeps. -/
theorem Monitor.foldl_apply_keeps {P : Monitor → Prop} (hP : ∀ m c, P m → P (m.apply c))
    (cs : List DbgCommand) (m : Monitor) (h : P m) : P (cs.foldl Monitor.apply m) := by
  induction cs generalizing m with
  | nil => exact h
  | cons c cs ih => exact ih _ (hP m c h)

end Sys2Proof.Machine
end

