-- ==== Sys2Proof/Laws/State.lean ====
section
/-! SUPPORT. One lemma for each field after each named update, so that no proof unfolds a record update. -/

namespace Sys2Proof.Machine

variable (s : State)

/-! ### `setReg` -/

@[simp] theorem State.setReg_mem (x : Reg) (b : Byte) : (s.setReg x b).mem = s.mem := rfl
@[simp] theorem State.setReg_v (x : Reg) (b : Byte) : (s.setReg x b).v = s.v.set x.val b := rfl
@[simp] theorem State.setReg_i (x : Reg) (b : Byte) : (s.setReg x b).i = s.i := rfl
@[simp] theorem State.setReg_pc (x : Reg) (b : Byte) : (s.setReg x b).pc = s.pc := rfl
@[simp] theorem State.setReg_stack (x : Reg) (b : Byte) : (s.setReg x b).stack = s.stack := rfl
@[simp] theorem State.setReg_free (x : Reg) (b : Byte) : (s.setReg x b).free = s.free := rfl
@[simp] theorem State.setReg_dt (x : Reg) (b : Byte) : (s.setReg x b).dt = s.dt := rfl
@[simp] theorem State.setReg_st (x : Reg) (b : Byte) : (s.setReg x b).st = s.st := rfl
@[simp] theorem State.setReg_key (x : Reg) (b : Byte) : (s.setReg x b).key = s.key := rfl
@[simp] theorem State.setReg_fb (x : Reg) (b : Byte) : (s.setReg x b).fb = s.fb := rfl
@[simp] theorem State.setReg_mon (x : Reg) (b : Byte) : (s.setReg x b).mon = s.mon := rfl
@[simp] theorem State.setReg_cmdq (x : Reg) (b : Byte) : (s.setReg x b).cmdq = s.cmdq := rfl
@[simp] theorem State.setReg_phase (x : Reg) (b : Byte) : (s.setReg x b).phase = s.phase := rfl
@[simp] theorem State.setReg_clog (x : Reg) (b : Byte) : (s.setReg x b).clog = s.clog := rfl
@[simp] theorem State.setReg_has8xy0 (x : Reg) (b : Byte) : (s.setReg x b).has8xy0 = s.has8xy0 := rfl
@[simp] theorem State.setReg_alive (x : Reg) (b : Byte) : (s.setReg x b).alive = s.alive := rfl
@[simp] theorem State.setReg_keys (x : Reg) (b : Byte) : (s.setReg x b).keys = s.keys := rfl
@[simp] theorem State.setReg_rnd (x : Reg) (b : Byte) : (s.setReg x b).rnd = s.rnd := rfl
@[simp] theorem State.setReg_draws (x : Reg) (b : Byte) : (s.setReg x b).draws = s.draws := rfl
@[simp] theorem State.setReg_frame (x : Reg) (b : Byte) : (s.setReg x b).frame = s.frame := rfl
@[simp] theorem State.setReg_frames (x : Reg) (b : Byte) : (s.setReg x b).frames = s.frames := rfl
@[simp] theorem State.setReg_tone (x : Reg) (b : Byte) : (s.setReg x b).tone = s.tone := rfl
@[simp] theorem State.setReg_ipc (x : Reg) (b : Byte) : (s.setReg x b).ipc = s.ipc := rfl
@[simp] theorem State.setReg_op (x : Reg) (b : Byte) : (s.setReg x b).op = s.op := rfl
@[simp] theorem State.setReg_sched (x : Reg) (b : Byte) : (s.setReg x b).sched = s.sched := rfl

/-! ### `raise` -/

@[simp] theorem State.raise_mem (c : Cond) (n : Nat) : (s.raise c n).mem = s.mem := rfl
@[simp] theorem State.raise_v (c : Cond) (n : Nat) : (s.raise c n).v = s.v := rfl
@[simp] theorem State.raise_i (c : Cond) (n : Nat) : (s.raise c n).i = s.i := rfl
@[simp] theorem State.raise_pc (c : Cond) (n : Nat) : (s.raise c n).pc = s.pc := rfl
@[simp] theorem State.raise_stack (c : Cond) (n : Nat) : (s.raise c n).stack = s.stack := rfl
@[simp] theorem State.raise_free (c : Cond) (n : Nat) : (s.raise c n).free = s.free := rfl
@[simp] theorem State.raise_dt (c : Cond) (n : Nat) : (s.raise c n).dt = s.dt := rfl
@[simp] theorem State.raise_st (c : Cond) (n : Nat) : (s.raise c n).st = s.st := rfl
@[simp] theorem State.raise_key (c : Cond) (n : Nat) : (s.raise c n).key = s.key := rfl
@[simp] theorem State.raise_fb (c : Cond) (n : Nat) : (s.raise c n).fb = s.fb := rfl
@[simp] theorem State.raise_mon (c : Cond) (n : Nat) : (s.raise c n).mon = s.mon := rfl
@[simp] theorem State.raise_cmdq (c : Cond) (n : Nat) : (s.raise c n).cmdq = s.cmdq := rfl
@[simp] theorem State.raise_phase (c : Cond) (n : Nat) : (s.raise c n).phase = s.phase := rfl
@[simp] theorem State.raise_clog (c : Cond) (n : Nat) : (s.raise c n).clog = s.clog ++ [⟨c, some s.ipc, s.op, n⟩] := rfl
@[simp] theorem State.raise_has8xy0 (c : Cond) (n : Nat) : (s.raise c n).has8xy0 = s.has8xy0 := rfl
@[simp] theorem State.raise_alive (c : Cond) (n : Nat) : (s.raise c n).alive = s.alive := rfl
@[simp] theorem State.raise_keys (c : Cond) (n : Nat) : (s.raise c n).keys = s.keys := rfl
@[simp] theorem State.raise_rnd (c : Cond) (n : Nat) : (s.raise c n).rnd = s.rnd := rfl
@[simp] theorem State.raise_draws (c : Cond) (n : Nat) : (s.raise c n).draws = s.draws := rfl
@[simp] theorem State.raise_frame (c : Cond) (n : Nat) : (s.raise c n).frame = s.frame := rfl
@[simp] theorem State.raise_frames (c : Cond) (n : Nat) : (s.raise c n).frames = s.frames := rfl
@[simp] theorem State.raise_tone (c : Cond) (n : Nat) : (s.raise c n).tone = s.tone := rfl
@[simp] theorem State.raise_ipc (c : Cond) (n : Nat) : (s.raise c n).ipc = s.ipc := rfl
@[simp] theorem State.raise_op (c : Cond) (n : Nat) : (s.raise c n).op = s.op := rfl
@[simp] theorem State.raise_sched (c : Cond) (n : Nat) : (s.raise c n).sched = s.sched := rfl

/-! ### `jump` -/

@[simp] theorem State.jump_mem (a : Word) : (s.jump a).mem = s.mem := rfl
@[simp] theorem State.jump_v (a : Word) : (s.jump a).v = s.v := rfl
@[simp] theorem State.jump_i (a : Word) : (s.jump a).i = s.i := rfl
@[simp] theorem State.jump_pc (a : Word) : (s.jump a).pc = a := rfl
@[simp] theorem State.jump_stack (a : Word) : (s.jump a).stack = s.stack := rfl
@[simp] theorem State.jump_free (a : Word) : (s.jump a).free = s.free := rfl
@[simp] theorem State.jump_dt (a : Word) : (s.jump a).dt = s.dt := rfl
@[simp] theorem State.jump_st (a : Word) : (s.jump a).st = s.st := rfl
@[simp] theorem State.jump_key (a : Word) : (s.jump a).key = s.key := rfl
@[simp] theorem State.jump_fb (a : Word) : (s.jump a).fb = s.fb := rfl
@[simp] theorem State.jump_mon (a : Word) : (s.jump a).mon = s.mon := rfl
@[simp] theorem State.jump_cmdq (a : Word) : (s.jump a).cmdq = s.cmdq := rfl
@[simp] theorem State.jump_phase (a : Word) : (s.jump a).phase = s.phase := rfl
@[simp] theorem State.jump_clog (a : Word) : (s.jump a).clog = s.clog := rfl
@[simp] theorem State.jump_has8xy0 (a : Word) : (s.jump a).has8xy0 = s.has8xy0 := rfl
@[simp] theorem State.jump_alive (a : Word) : (s.jump a).alive = s.alive := rfl
@[simp] theorem State.jump_keys (a : Word) : (s.jump a).keys = s.keys := rfl
@[simp] theorem State.jump_rnd (a : Word) : (s.jump a).rnd = s.rnd := rfl
@[simp] theorem State.jump_draws (a : Word) : (s.jump a).draws = s.draws := rfl
@[simp] theorem State.jump_frame (a : Word) : (s.jump a).frame = s.frame := rfl
@[simp] theorem State.jump_frames (a : Word) : (s.jump a).frames = s.frames := rfl
@[simp] theorem State.jump_tone (a : Word) : (s.jump a).tone = s.tone := rfl
@[simp] theorem State.jump_ipc (a : Word) : (s.jump a).ipc = s.ipc := rfl
@[simp] theorem State.jump_op (a : Word) : (s.jump a).op = s.op := rfl
@[simp] theorem State.jump_sched (a : Word) : (s.jump a).sched = s.sched := rfl

/-! ### `setDT` -/

@[simp] theorem State.setDT_mem (b : Byte) : (s.setDT b).mem = s.mem := rfl
@[simp] theorem State.setDT_v (b : Byte) : (s.setDT b).v = s.v := rfl
@[simp] theorem State.setDT_i (b : Byte) : (s.setDT b).i = s.i := rfl
@[simp] theorem State.setDT_pc (b : Byte) : (s.setDT b).pc = s.pc := rfl
@[simp] theorem State.setDT_stack (b : Byte) : (s.setDT b).stack = s.stack := rfl
@[simp] theorem State.setDT_free (b : Byte) : (s.setDT b).free = s.free := rfl
@[simp] theorem State.setDT_dt (b : Byte) : (s.setDT b).dt = s.dt.set b := rfl
@[simp] theorem State.setDT_st (b : Byte) : (s.setDT b).st = s.st := rfl
@[simp] theorem State.setDT_key (b : Byte) : (s.setDT b).key = s.key := rfl
@[simp] theorem State.setDT_fb (b : Byte) : (s.setDT b).fb = s.fb := rfl
@[simp] theorem State.setDT_mon (b : Byte) : (s.setDT b).mon = s.mon := rfl
@[simp] theorem State.setDT_cmdq (b : Byte) : (s.setDT b).cmdq = s.cmdq := rfl
@[simp] theorem State.setDT_phase (b : Byte) : (s.setDT b).phase = s.phase := rfl
@[simp] theorem State.setDT_clog (b : Byte) : (s.setDT b).clog = s.clog := rfl
@[simp] theorem State.setDT_has8xy0 (b : Byte) : (s.setDT b).has8xy0 = s.has8xy0 := rfl
@[simp] theorem State.setDT_alive (b : Byte) : (s.setDT b).alive = s.alive := rfl
@[simp] theorem State.setDT_keys (b : Byte) : (s.setDT b).keys = s.keys := rfl
@[simp] theorem State.setDT_rnd (b : Byte) : (s.setDT b).rnd = s.rnd := rfl
@[simp] theorem State.setDT_draws (b : Byte) : (s.setDT b).draws = s.draws := rfl
@[simp] theorem State.setDT_frame (b : Byte) : (s.setDT b).frame = s.frame := rfl
@[simp] theorem State.setDT_frames (b : Byte) : (s.setDT b).frames = s.frames := rfl
@[simp] theorem State.setDT_tone (b : Byte) : (s.setDT b).tone = s.tone := rfl
@[simp] theorem State.setDT_ipc (b : Byte) : (s.setDT b).ipc = s.ipc := rfl
@[simp] theorem State.setDT_op (b : Byte) : (s.setDT b).op = s.op := rfl
@[simp] theorem State.setDT_sched (b : Byte) : (s.setDT b).sched = s.sched := rfl

/-! ### `setST` -/

@[simp] theorem State.setST_mem (b : Byte) : (s.setST b).mem = s.mem := rfl
@[simp] theorem State.setST_v (b : Byte) : (s.setST b).v = s.v := rfl
@[simp] theorem State.setST_i (b : Byte) : (s.setST b).i = s.i := rfl
@[simp] theorem State.setST_pc (b : Byte) : (s.setST b).pc = s.pc := rfl
@[simp] theorem State.setST_stack (b : Byte) : (s.setST b).stack = s.stack := rfl
@[simp] theorem State.setST_free (b : Byte) : (s.setST b).free = s.free := rfl
@[simp] theorem State.setST_dt (b : Byte) : (s.setST b).dt = s.dt := rfl
@[simp] theorem State.setST_st (b : Byte) : (s.setST b).st = s.st.set b := rfl
@[simp] theorem State.setST_key (b : Byte) : (s.setST b).key = s.key := rfl
@[simp] theorem State.setST_fb (b : Byte) : (s.setST b).fb = s.fb := rfl
@[simp] theorem State.setST_mon (b : Byte) : (s.setST b).mon = s.mon := rfl
@[simp] theorem State.setST_cmdq (b : Byte) : (s.setST b).cmdq = s.cmdq := rfl
@[simp] theorem State.setST_phase (b : Byte) : (s.setST b).phase = s.phase := rfl
@[simp] theorem State.setST_clog (b : Byte) : (s.setST b).clog = s.clog := rfl
@[simp] theorem State.setST_has8xy0 (b : Byte) : (s.setST b).has8xy0 = s.has8xy0 := rfl
@[simp] theorem State.setST_alive (b : Byte) : (s.setST b).alive = s.alive := rfl
@[simp] theorem State.setST_keys (b : Byte) : (s.setST b).keys = s.keys := rfl
@[simp] theorem State.setST_rnd (b : Byte) : (s.setST b).rnd = s.rnd := rfl
@[simp] theorem State.setST_draws (b : Byte) : (s.setST b).draws = s.draws := rfl
@[simp] theorem State.setST_frame (b : Byte) : (s.setST b).frame = s.frame := rfl
@[simp] theorem State.setST_frames (b : Byte) : (s.setST b).frames = s.frames := rfl
@[simp] theorem State.setST_tone (b : Byte) : (s.setST b).tone = if !s.st.disabled && b == 0 && s.st.running then s.tone ++ [.off] else s.tone := rfl
@[simp] theorem State.setST_ipc (b : Byte) : (s.setST b).ipc = s.ipc := rfl
@[simp] theorem State.setST_op (b : Byte) : (s.setST b).op = s.op := rfl
@[simp] theorem State.setST_sched (b : Byte) : (s.setST b).sched = s.sched := rfl

/-! ### `render` -/

@[simp] theorem State.render_mem : (s.render).mem = s.mem := rfl
@[simp] theorem State.render_v : (s.render).v = s.v := rfl
@[simp] theorem State.render_i : (s.render).i = s.i := rfl
@[simp] theorem State.render_pc : (s.render).pc = s.pc := rfl
@[simp] theorem State.render_stack : (s.render).stack = s.stack := rfl
@[simp] theorem State.render_free : (s.render).free = s.free := rfl
@[simp] theorem State.render_dt : (s.render).dt = s.dt := rfl
@[simp] theorem State.render_st : (s.render).st = s.st := rfl
@[simp] theorem State.render_key : (s.render).key = s.key := rfl
@[simp] theorem State.render_fb : (s.render).fb = s.fb := rfl
@[simp] theorem State.render_mon : (s.render).mon = s.mon := rfl
@[simp] theorem State.render_cmdq : (s.render).cmdq = s.cmdq := rfl
@[simp] theorem State.render_phase : (s.render).phase = s.phase := rfl
@[simp] theorem State.render_clog : (s.render).clog = s.clog := rfl
@[simp] theorem State.render_has8xy0 : (s.render).has8xy0 = s.has8xy0 := rfl
@[simp] theorem State.render_alive : (s.render).alive = s.alive := rfl
@[simp] theorem State.render_keys : (s.render).keys = s.keys := rfl
@[simp] theorem State.render_rnd : (s.render).rnd = s.rnd := rfl
@[simp] theorem State.render_draws : (s.render).draws = s.draws := rfl
@[simp] theorem State.render_frame : (s.render).frame = some s.fb := rfl
@[simp] theorem State.render_frames : (s.render).frames = s.frames + 1 := rfl
@[simp] theorem State.render_tone : (s.render).tone = s.tone := rfl
@[simp] theorem State.render_ipc : (s.render).ipc = s.ipc := rfl
@[simp] theorem State.render_op : (s.render).op = s.op := rfl
@[simp] theorem State.render_sched : (s.render).sched = s.sched := rfl

/-! ### `pollKeys` -/

@[simp] theorem State.pollKeys_mem : (s.pollKeys).mem = s.mem := rfl
@[simp] theorem State.pollKeys_v : (s.pollKeys).v = s.v := rfl
@[simp] theorem State.pollKeys_i : (s.pollKeys).i = s.i := rfl
@[simp] theorem State.pollKeys_pc : (s.pollKeys).pc = s.pc := rfl
@[simp] theorem State.pollKeys_stack : (s.pollKeys).stack = s.stack := rfl
@[simp] theorem State.pollKeys_free : (s.pollKeys).free = s.free := rfl
@[simp] theorem State.pollKeys_dt : (s.pollKeys).dt = s.dt := rfl
@[simp] theorem State.pollKeys_st : (s.pollKeys).st = s.st := rfl
@[simp] theorem State.pollKeys_key : (s.pollKeys).key = s.keys := rfl
@[simp] theorem State.pollKeys_fb : (s.pollKeys).fb = s.fb := rfl
@[simp] theorem State.pollKeys_mon : (s.pollKeys).mon = s.mon := rfl
@[simp] theorem State.pollKeys_cmdq : (s.pollKeys).cmdq = s.cmdq := rfl
@[simp] theorem State.pollKeys_phase : (s.pollKeys).phase = s.phase := rfl
@[simp] theorem State.pollKeys_clog : (s.pollKeys).clog = s.clog := rfl
@[simp] theorem State.pollKeys_has8xy0 : (s.pollKeys).has8xy0 = s.has8xy0 := rfl
@[simp] theorem State.pollKeys_alive : (s.pollKeys).alive = s.alive := rfl
@[simp] theorem State.pollKeys_keys : (s.pollKeys).keys = s.keys := rfl
@[simp] theorem State.pollKeys_rnd : (s.pollKeys).rnd = s.rnd := rfl
@[simp] theorem State.pollKeys_draws : (s.pollKeys).draws = s.draws := rfl
@[simp] theorem State.pollKeys_frame : (s.pollKeys).frame = s.frame := rfl
@[simp] theorem State.pollKeys_frames : (s.pollKeys).frames = s.frames := rfl
@[simp] theorem State.pollKeys_tone : (s.pollKeys).tone = s.tone := rfl
@[simp] theorem State.pollKeys_ipc : (s.pollKeys).ipc = s.ipc := rfl
@[simp] theorem State.pollKeys_op : (s.pollKeys).op = s.op := rfl
@[simp] theorem State.pollKeys_sched : (s.pollKeys).sched = s.sched := rfl

/-! ### `drainCommands` -/

@[simp] theorem State.drainCommands_mem : (s.drainCommands).mem = s.mem := rfl
@[simp] theorem State.drainCommands_v : (s.drainCommands).v = s.v := rfl
@[simp] theorem State.drainCommands_i : (s.drainCommands).i = s.i := rfl
@[simp] theorem State.drainCommands_pc : (s.drainCommands).pc = s.pc := rfl
@[simp] theorem State.drainCommands_stack : (s.drainCommands).stack = s.stack := rfl
@[simp] theorem State.drainCommands_free : (s.drainCommands).free = s.free := rfl
@[simp] theorem State.drainCommands_dt : (s.drainCommands).dt = s.dt := rfl
@[simp] theorem State.drainCommands_st : (s.drainCommands).st = s.st := rfl
@[simp] theorem State.drainCommands_key : (s.drainCommands).key = s.key := rfl
@[simp] theorem State.drainCommands_fb : (s.drainCommands).fb = s.fb := rfl
@[simp] theorem State.drainCommands_mon : (s.drainCommands).mon = s.cmdq.foldl Monitor.apply s.mon := rfl
@[simp] theorem State.drainCommands_cmdq : (s.drainCommands).cmdq = [] := rfl
@[simp] theorem State.drainCommands_phase : (s.drainCommands).phase = s.phase := rfl
@[simp] theorem State.drainCommands_clog : (s.drainCommands).clog = s.clog := rfl
@[simp] theorem State.drainCommands_has8xy0 : (s.drainCommands).has8xy0 = s.has8xy0 := rfl
@[simp] theorem State.drainCommands_alive : (s.drainCommands).alive = s.alive := rfl
@[simp] theorem State.drainCommands_keys : (s.drainCommands).keys = s.keys := rfl
@[simp] theorem State.drainCommands_rnd : (s.drainCommands).rnd = s.rnd := rfl
@[simp] theorem State.drainCommands_draws : (s.drainCommands).draws = s.draws := rfl
@[simp] theorem State.drainCommands_frame : (s.drainCommands).frame = s.frame := rfl
@[simp] theorem State.drainCommands_frames : (s.drainCommands).frames = s.frames := rfl
@[simp] theorem State.drainCommands_tone : (s.drainCommands).tone = s.tone := rfl
@[simp] theorem State.drainCommands_ipc : (s.drainCommands).ipc = s.ipc := rfl
@[simp] theorem State.drainCommands_op : (s.drainCommands).op = s.op := rfl
@[simp] theorem State.drainCommands_sched : (s.drainCommands).sched = s.sched := rfl

/-! ### `latchIpc` -/

@[simp] theorem State.latchIpc_mem : (s.latchIpc).mem = s.mem := rfl
@[simp] theorem State.latchIpc_v : (s.latchIpc).v = s.v := rfl
@[simp] theorem State.latchIpc_i : (s.latchIpc).i = s.i := rfl
@[simp] theorem State.latchIpc_pc : (s.latchIpc).pc = s.pc := rfl
@[simp] theorem State.latchIpc_stack : (s.latchIpc).stack = s.stack := rfl
@[simp] theorem State.latchIpc_free : (s.latchIpc).free = s.free := rfl
@[simp] theorem State.latchIpc_dt : (s.latchIpc).dt = s.dt := rfl
@[simp] theorem State.latchIpc_st : (s.latchIpc).st = s.st := rfl
@[simp] theorem State.latchIpc_key : (s.latchIpc).key = s.key := rfl
@[simp] theorem State.latchIpc_fb : (s.latchIpc).fb = s.fb := rfl
@[simp] theorem State.latchIpc_mon : (s.latchIpc).mon = s.mon := rfl
@[simp] theorem State.latchIpc_cmdq : (s.latchIpc).cmdq = s.cmdq := rfl
@[simp] theorem State.latchIpc_phase : (s.latchIpc).phase = s.phase := rfl
@[simp] theorem State.latchIpc_clog : (s.latchIpc).clog = s.clog := rfl
@[simp] theorem State.latchIpc_has8xy0 : (s.latchIpc).has8xy0 = s.has8xy0 := rfl
@[simp] theorem State.latchIpc_alive : (s.latchIpc).alive = s.alive := rfl
@[simp] theorem State.latchIpc_keys : (s.latchIpc).keys = s.keys := rfl
@[simp] theorem State.latchIpc_rnd : (s.latchIpc).rnd = s.rnd := rfl
@[simp] theorem State.latchIpc_draws : (s.latchIpc).draws = s.draws := rfl
@[simp] theorem State.latchIpc_frame : (s.latchIpc).frame = s.frame := rfl
@[simp] theorem State.latchIpc_frames : (s.latchIpc).frames = s.frames := rfl
@[simp] theorem State.latchIpc_tone : (s.latchIpc).tone = s.tone := rfl
@[simp] theorem State.latchIpc_ipc : (s.latchIpc).ipc = s.pc := rfl
@[simp] theorem State.latchIpc_op : (s.latchIpc).op = none := rfl
@[simp] theorem State.latchIpc_sched : (s.latchIpc).sched = s.sched := rfl

/-! ### `advance` -/

@[simp] theorem State.advance_mem (w : Word) : (s.advance w).mem = s.mem := rfl
@[simp] theorem State.advance_v (w : Word) : (s.advance w).v = s.v := rfl
@[simp] theorem State.advance_i (w : Word) : (s.advance w).i = s.i := rfl
@[simp] theorem State.advance_pc (w : Word) : (s.advance w).pc = s.pc + 2 := rfl
@[simp] theorem State.advance_stack (w : Word) : (s.advance w).stack = s.stack := rfl
@[simp] theorem State.advance_free (w : Word) : (s.advance w).free = s.free := rfl
@[simp] theorem State.advance_dt (w : Word) : (s.advance w).dt = s.dt := rfl
@[simp] theorem State.advance_st (w : Word) : (s.advance w).st = s.st := rfl
@[simp] theorem State.advance_key (w : Word) : (s.advance w).key = s.key := rfl
@[simp] theorem State.advance_fb (w : Word) : (s.advance w).fb = s.fb := rfl
@[simp] theorem State.advance_mon (w : Word) : (s.advance w).mon = s.mon := rfl
@[simp] theorem State.advance_cmdq (w : Word) : (s.advance w).cmdq = s.cmdq := rfl
@[simp] theorem State.advance_phase (w : Word) : (s.advance w).phase = s.phase := rfl
@[simp] theorem State.advance_clog (w : Word) : (s.advance w).clog = s.clog := rfl
@[simp] theorem State.advance_has8xy0 (w : Word) : (s.advance w).has8xy0 = s.has8xy0 := rfl
@[simp] theorem State.advance_alive (w : Word) : (s.advance w).alive = s.alive := rfl
@[simp] theorem State.advance_keys (w : Word) : (s.advance w).keys = s.keys := rfl
@[simp] theorem State.advance_rnd (w : Word) : (s.advance w).rnd = s.rnd := rfl
@[simp] theorem State.advance_draws (w : Word) : (s.advance w).draws = s.draws := rfl
@[simp] theorem State.advance_frame (w : Word) : (s.advance w).frame = s.frame := rfl
@[simp] theorem State.advance_frames (w : Word) : (s.advance w).frames = s.frames := rfl
@[simp] theorem State.advance_tone (w : Word) : (s.advance w).tone = s.tone := rfl
@[simp] theorem State.advance_ipc (w : Word) : (s.advance w).ipc = s.ipc := rfl
@[simp] theorem State.advance_op (w : Word) : (s.advance w).op = some w := rfl
@[simp] theorem State.advance_sched (w : Word) : (s.advance w).sched = s.sched := rfl

/-! ### `skipIf` -/

@[simp] theorem State.skipIf_mem (c : Bool) : (s.skipIf c).mem = s.mem := by cases c <;> rfl
@[simp] theorem State.skipIf_v (c : Bool) : (s.skipIf c).v = s.v := by cases c <;> rfl
@[simp] theorem State.skipIf_i (c : Bool) : (s.skipIf c).i = s.i := by cases c <;> rfl
@[simp] theorem State.skipIf_stack (c : Bool) : (s.skipIf c).stack = s.stack := by cases c <;> rfl
@[simp] theorem State.skipIf_free (c : Bool) : (s.skipIf c).free = s.free := by cases c <;> rfl
@[simp] theorem State.skipIf_dt (c : Bool) : (s.skipIf c).dt = s.dt := by cases c <;> rfl
@[simp] theorem State.skipIf_st (c : Bool) : (s.skipIf c).st = s.st := by cases c <;> rfl
@[simp] theorem State.skipIf_key (c : Bool) : (s.skipIf c).key = s.key := by cases c <;> rfl
@[simp] theorem State.skipIf_fb (c : Bool) : (s.skipIf c).fb = s.fb := by cases c <;> rfl
@[simp] theorem State.skipIf_mon (c : Bool) : (s.skipIf c).mon = s.mon := by cases c <;> rfl
@[simp] theorem State.skipIf_cmdq (c : Bool) : (s.skipIf c).cmdq = s.cmdq := by cases c <;> rfl
@[simp] theorem State.skipIf_phase (c : Bool) : (s.skipIf c).phase = s.phase := by cases c <;> rfl
@[simp] theorem State.skipIf_clog (c : Bool) : (s.skipIf c).clog = s.clog := by cases c <;> rfl
@[simp] theorem State.skipIf_has8xy0 (c : Bool) : (s.skipIf c).has8xy0 = s.has8xy0 := by cases c <;> rfl
@[simp] theorem State.skipIf_alive (c : Bool) : (s.skipIf c).alive = s.alive := by cases c <;> rfl
@[simp] theorem State.skipIf_keys (c : Bool) : (s.skipIf c).keys = s.keys := by cases c <;> rfl
@[simp] theorem State.skipIf_rnd (c : Bool) : (s.skipIf c).rnd = s.rnd := by cases c <;> rfl
@[simp] theorem State.skipIf_draws (c : Bool) : (s.skipIf c).draws = s.draws := by cases c <;> rfl
@[simp] theorem State.skipIf_frame (c : Bool) : (s.skipIf c).frame = s.frame := by cases c <;> rfl
@[simp] theorem State.skipIf_frames (c : Bool) : (s.skipIf c).frames = s.frames := by cases c <;> rfl
@[simp] theorem State.skipIf_tone (c : Bool) : (s.skipIf c).tone = s.tone := by cases c <;> rfl
@[simp] theorem State.skipIf_ipc (c : Bool) : (s.skipIf c).ipc = s.ipc := by cases c <;> rfl
@[simp] theorem State.skipIf_op (c : Bool) : (s.skipIf c).op = s.op := by cases c <;> rfl
@[simp] theorem State.skipIf_sched (c : Bool) : (s.skipIf c).sched = s.sched := by cases c <;> rfl
@[simp] theorem State.skipIf_pc (c : Bool) : (s.skipIf c).pc = if c then s.pc + 2 else s.pc := by cases c <;> rfl

/-! ### `plot` -/

@[simp] theorem State.plot_mem (r c : Nat) : (s.plot r c).mem = s.mem := by unfold State.plot; split <;> rfl
@[simp] theorem State.plot_i (r c : Nat) : (s.plot r c).i = s.i := by unfold State.plot; split <;> rfl
@[simp] theorem State.plot_pc (r c : Nat) : (s.plot r c).pc = s.pc := by unfold State.plot; split <;> rfl
@[simp] theorem State.plot_stack (r c : Nat) : (s.plot r c).stack = s.stack := by unfold State.plot; split <;> rfl
@[simp] theorem State.plot_free (r c : Nat) : (s.plot r c).free = s.free := by unfold State.plot; split <;> rfl
@[simp] theorem State.plot_dt (r c : Nat) : (s.plot r c).dt = s.dt := by unfold State.plot; split <;> rfl
@[simp] theorem State.plot_st (r c : Nat) : (s.plot r c).st = s.st := by unfold State.plot; split <;> rfl
@[simp] theorem State.plot_key (r c : Nat) : (s.plot r c).key = s.key := by unfold State.plot; split <;> rfl
@[simp] theorem State.plot_fb (r c : Nat) : (s.plot r c).fb = s.fb.toggle r c := rfl
@[simp] theorem State.plot_mon (r c : Nat) : (s.plot r c).mon = s.mon := by unfold State.plot; split <;> rfl
@[simp] theorem State.plot_cmdq (r c : Nat) : (s.plot r c).cmdq = s.cmdq := by unfold State.plot; split <;> rfl
@[simp] theorem State.plot_phase (r c : Nat) : (s.plot r c).phase = s.phase := by unfold State.plot; split <;> rfl
@[simp] theorem State.plot_clog (r c : Nat) : (s.plot r c).clog = s.clog := by unfold State.plot; split <;> rfl
@[simp] theorem State.plot_has8xy0 (r c : Nat) : (s.plot r c).has8xy0 = s.has8xy0 := by unfold State.plot; split <;> rfl
@[simp] theorem State.plot_alive (r c : Nat) : (s.plot r c).alive = s.alive := by unfold State.plot; split <;> rfl
@[simp] theorem State.plot_keys (r c : Nat) : (s.plot r c).keys = s.keys := by unfold State.plot; split <;> rfl
@[simp] theorem State.plot_rnd (r c : Nat) : (s.plot r c).rnd = s.rnd := by unfold State.plot; split <;> rfl
@[simp] theorem State.plot_draws (r c : Nat) : (s.plot r c).draws = s.draws := by unfold State.plot; split <;> rfl
@[simp] theorem State.plot_frame (r c : Nat) : (s.plot r c).frame = s.frame := by unfold State.plot; split <;> rfl
@[simp] theorem State.plot_frames (r c : Nat) : (s.plot r c).frames = s.frames := by unfold State.plot; split <;> rfl
@[simp] theorem State.plot_tone (r c : Nat) : (s.plot r c).tone = s.tone := by unfold State.plot; split <;> rfl
@[simp] theorem State.plot_ipc (r c : Nat) : (s.plot r c).ipc = s.ipc := by unfold State.plot; split <;> rfl
@[simp] theorem State.plot_op (r c : Nat) : (s.plot r c).op = s.op := by unfold State.plot; split <;> rfl
@[simp] theorem State.plot_sched (r c : Nat) : (s.plot r c).sched = s.sched := by unfold State.plot; split <;> rfl

/-! ### `tickDT` -/

@[simp] theorem State.tickDT_mem : (s.tickDT).mem = s.mem := by unfold State.tickDT; split <;> rfl
@[simp] theorem State.tickDT_v : (s.tickDT).v = s.v := by unfold State.tickDT; split <;> rfl
@[simp] theorem State.tickDT_i : (s.tickDT).i = s.i := by unfold State.tickDT; split <;> rfl
@[simp] theorem State.tickDT_pc : (s.tickDT).pc = s.pc := by unfold State.tickDT; split <;> rfl
@[simp] theorem State.tickDT_stack : (s.tickDT).stack = s.stack := by unfold State.tickDT; split <;> rfl
@[simp] theorem State.tickDT_free : (s.tickDT).free = s.free := by unfold State.tickDT; split <;> rfl
@[simp] theorem State.tickDT_st : (s.tickDT).st = s.st := by unfold State.tickDT; split <;> rfl
@[simp] theorem State.tickDT_key : (s.tickDT).key = s.key := by unfold State.tickDT; split <;> rfl
@[simp] theorem State.tickDT_fb : (s.tickDT).fb = s.fb := by unfold State.tickDT; split <;> rfl
@[simp] theorem State.tickDT_mon : (s.tickDT).mon = s.mon := by unfold State.tickDT; split <;> rfl
@[simp] theorem State.tickDT_cmdq : (s.tickDT).cmdq = s.cmdq := by unfold State.tickDT; split <;> rfl
@[simp] theorem State.tickDT_phase : (s.tickDT).phase = s.phase := by unfold State.tickDT; split <;> rfl
@[simp] theorem State.tickDT_clog : (s.tickDT).clog = s.clog := by unfold State.tickDT; split <;> rfl
@[simp] theorem State.tickDT_has8xy0 : (s.tickDT).has8xy0 = s.has8xy0 := by unfold State.tickDT; split <;> rfl
@[simp] theorem State.tickDT_alive : (s.tickDT).alive = s.alive := by unfold State.tickDT; split <;> rfl
@[simp] theorem State.tickDT_keys : (s.tickDT).keys = s.keys := by unfold State.tickDT; split <;> rfl
@[simp] theorem State.tickDT_rnd : (s.tickDT).rnd = s.rnd := by unfold State.tickDT; split <;> rfl
@[simp] theorem State.tickDT_draws : (s.tickDT).draws = s.draws := by unfold State.tickDT; split <;> rfl
@[simp] theorem State.tickDT_frame : (s.tickDT).frame = s.frame := by unfold State.tickDT; split <;> rfl
@[simp] theorem State.tickDT_frames : (s.tickDT).frames = s.frames := by unfold State.tickDT; split <;> rfl
@[simp] theorem State.tickDT_tone : (s.tickDT).tone = s.tone := by unfold State.tickDT; split <;> rfl
@[simp] theorem State.tickDT_ipc : (s.tickDT).ipc = s.ipc := by unfold State.tickDT; split <;> rfl
@[simp] theorem State.tickDT_op : (s.tickDT).op = s.op := by unfold State.tickDT; split <;> rfl
@[simp] theorem State.tickDT_sched : (s.tickDT).sched = s.sched := by unfold State.tickDT; split <;> rfl
@[simp] theorem State.tickDT_dt : s.tickDT.dt = if s.dt.running then s.dt.tick else s.dt := by
  unfold State.tickDT; split <;> rfl

/-! ### `tickST` -/

@[simp] theorem State.tickST_mem : (s.tickST).mem = s.mem := by unfold State.tickST; split <;> rfl
@[simp] theorem State.tickST_v : (s.tickST).v = s.v := by unfold State.tickST; split <;> rfl
@[simp] theorem State.tickST_i : (s.tickST).i = s.i := by unfold State.tickST; split <;> rfl
@[simp] theorem State.tickST_pc : (s.tickST).pc = s.pc := by unfold State.tickST; split <;> rfl
@[simp] theorem State.tickST_stack : (s.tickST).stack = s.stack := by unfold State.tickST; split <;> rfl
@[simp] theorem State.tickST_free : (s.tickST).free = s.free := by unfold State.tickST; split <;> rfl
@[simp] theorem State.tickST_dt : (s.tickST).dt = s.dt := by unfold State.tickST; split <;> rfl
@[simp] theorem State.tickST_key : (s.tickST).key = s.key := by unfold State.tickST; split <;> rfl
@[simp] theorem State.tickST_fb : (s.tickST).fb = s.fb := by unfold State.tickST; split <;> rfl
@[simp] theorem State.tickST_mon : (s.tickST).mon = s.mon := by unfold State.tickST; split <;> rfl
@[simp] theorem State.tickST_cmdq : (s.tickST).cmdq = s.cmdq := by unfold State.tickST; split <;> rfl
@[simp] theorem State.tickST_phase : (s.tickST).phase = s.phase := by unfold State.tickST; split <;> rfl
@[simp] theorem State.tickST_clog : (s.tickST).clog = s.clog := by unfold State.tickST; split <;> rfl
@[simp] theorem State.tickST_has8xy0 : (s.tickST).has8xy0 = s.has8xy0 := by unfold State.tickST; split <;> rfl
@[simp] theorem State.tickST_alive : (s.tickST).alive = s.alive := by unfold State.tickST; split <;> rfl
@[simp] theorem State.tickST_keys : (s.tickST).keys = s.keys := by unfold State.tickST; split <;> rfl
@[simp] theorem State.tickST_rnd : (s.tickST).rnd = s.rnd := by unfold State.tickST; split <;> rfl
@[simp] theorem State.tickST_draws : (s.tickST).draws = s.draws := by unfold State.tickST; split <;> rfl
@[simp] theorem State.tickST_frame : (s.tickST).frame = s.frame := by unfold State.tickST; split <;> rfl
@[simp] theorem State.tickST_frames : (s.tickST).frames = s.frames := by unfold State.tickST; split <;> rfl
@[simp] theorem State.tickST_ipc : (s.tickST).ipc = s.ipc := by unfold State.tickST; split <;> rfl
@[simp] theorem State.tickST_op : (s.tickST).op = s.op := by unfold State.tickST; split <;> rfl
@[simp] theorem State.tickST_sched : (s.tickST).sched = s.sched := by unfold State.tickST; split <;> rfl
@[simp] theorem State.tickST_st : s.tickST.st = if s.st.running then s.st.tick else s.st := by
  unfold State.tickST; split <;> rfl

/-! ### Reading a register -/

@[simp] theorem State.reg_setReg_self (x : Reg) (b : Byte) : (s.setReg x b).reg x = b := by
  simp [State.reg]

theorem State.reg_setReg_of_ne (x y : Reg) (b : Byte) (h : y ≠ x) : (s.setReg x b).reg y = s.reg y := by
  have : x.val ≠ y.val := fun e => h (Fin.ext e.symm)
  simp [State.reg, this]

theorem State.reg_setReg (x y : Reg) (b : Byte) : (s.setReg x b).reg y = if y = x then b else s.reg y := by
  by_cases h : y = x
  · subst h; simp
  · simp [h, State.reg_setReg_of_ne]

/-- A state's register reads depend on `V` alone. -/
theorem State.reg_congr {s t : State} (h : t.v = s.v) (x : Reg) : t.reg x = s.reg x := by
  simp [State.reg, h]

@[simp] theorem State.reg_raise (c : Cond) (n : Nat) (x : Reg) : (s.raise c n).reg x = s.reg x := rfl
@[simp] theorem State.reg_jump (a : Word) (x : Reg) : (s.jump a).reg x = s.reg x := rfl
@[simp] theorem State.reg_setDT (b : Byte) (x : Reg) : (s.setDT b).reg x = s.reg x := rfl
@[simp] theorem State.reg_setST (b : Byte) (x : Reg) : (s.setST b).reg x = s.reg x := rfl
@[simp] theorem State.reg_skipIf (c : Bool) (x : Reg) : (s.skipIf c).reg x = s.reg x := by cases c <;> rfl

/-- The result and then the flag: VF holds the flag, and Vx the result unless x = F (spec/42_alu.md R140). -/
theorem State.reg_setResultFlag (x y : Reg) (r f : Byte) :
    (s.setResultFlag x r f).reg y = if y = VF then f else if y = x then r else s.reg y := by
  simp only [State.setResultFlag, State.reg_setReg]

end Sys2Proof.Machine
end

