-- ==== Sys2Proof/Laws/Cycle.lean ====
section
/-! SUPPORT. What a step can do, said once: the inversion lemmas of the fetch, the cycle and the schedule. -/

namespace Sys2Proof.Machine

variable (s : State)

/-! ## Fetch -/

/-- Everything the fetch of a word can do (spec/40_cycle.md R105). -/
theorem State.fetchWord_cases :
    (4096 ≤ s.pc.toNat ∧ s.fetchWord = .error s.pc.toNat) ∨
    (s.pc.toNat = 4095 ∧ s.fetchWord = .error 4096) ∨
    (s.pc.toNat + 1 < 4096 ∧
      s.fetchWord = .ok (wordOfBytes (s.mem.peek s.pc.toNat) (s.mem.peek (s.pc.toNat + 1)))) := by
  unfold State.fetchWord
  by_cases h0 : s.pc.toNat < 4096
  · by_cases h1 : s.pc.toNat + 1 < 4096
    · exact .inr (.inr ⟨h1, by simp [Memory.read_of_lt, h0, h1]⟩)
    · refine .inr (.inl ⟨by omega, ?_⟩)
      have e : s.pc.toNat + 1 = 4096 := by omega
      rw [Memory.read_of_lt _ h0, e]
      rfl
  · exact .inl ⟨by omega, by simp [Memory.read, h0]⟩

/-- Everything fetch and execute can do (R104 to R108). -/
theorem State.fetchExecute_cases :
    (∃ a, 4096 ≤ a ∧ s.fetchExecute = .next (s.latchIpc.raise .outOfBoundsAddress a)) ∨
    (∃ w, s.pc.toNat + 1 < 4096 ∧
      s.fetchExecute = .next ((s.latchIpc.advance w).raise .invalidOpcode w.toNat)) ∨
    (∃ w i, s.pc.toNat + 1 < 4096 ∧ decodeWord s.has8xy0 w = .ok i ∧
      s.fetchExecute = exec i (s.latchIpc.advance w)) := by
  unfold State.fetchExecute
  rcases s.latchIpc.fetchWord_cases with ⟨h, e⟩ | ⟨h, e⟩ | ⟨h, e⟩
  · exact .inl ⟨_, h, by rw [e]⟩
  · exact .inl ⟨4096, Nat.le_refl _, by rw [e]⟩
  · rw [e]
    refine .inr ?_
    generalize wordOfBytes _ _ = w
    dsimp only
    unfold State.runWord
    rw [State.advance_has8xy0, State.latchIpc_has8xy0]
    cases hd : decodeWord s.has8xy0 w with
    | ok i => exact .inr ⟨w, i, h, hd, rfl⟩
    | error d => exact .inl ⟨w, h, rfl⟩

/-! ## The cycle -/

/-- The end of a permitted cycle: nothing while LD Vx,K blocks, else `step <- 0` and Render. -/
theorem State.endCycle_cases :
    ((∃ x, s.phase = .waitKey x) ∧ s.endCycle = s) ∨
    ((∀ x, s.phase ≠ .waitKey x) ∧ s.endCycle = State.render { s with mon := { s.mon with step := false } }) := by
  unfold State.endCycle
  cases h : s.phase with
  | waitKey x => exact .inl ⟨⟨x, rfl⟩, rfl⟩
  | idle => exact .inr ⟨by simp, rfl⟩
  | ready => exact .inr ⟨by simp, rfl⟩
  | ended => exact .inr ⟨by simp, rfl⟩
  | loadFailed => exact .inr ⟨by simp, rfl⟩

/-- An outcome of `endCycleOf` that is a next state comes from one. -/
theorem endCycleOf_next {r : Result} {t : State} (h : endCycleOf r = .next t) :
    ∃ u, r = .next u ∧ t = u.endCycle := by
  cases r with
  | next u => exact ⟨u, rfl, by simpa [endCycleOf] using h.symm⟩
  | fault f => cases h
  | refused r => cases h

/-- The state before step 4 of the cycle, with the Monitor as the check leaves it. -/
def State.afterCheck (s : State) : State :=
  { s.pollKeys.drainCommands with mon := (s.pollKeys.drainCommands.mon.permit s.pc).2 }

/-- Everything a cycle can do (R100). -/
theorem State.cycle_cases :
    (s.alive = false ∧ s.cycle = .next { s with phase := .ended }) ∨
    (s.alive = true ∧ (s.pollKeys.drainCommands.mon.permit s.pc).1 = true ∧
      s.cycle = endCycleOf s.afterCheck.fetchExecute) ∨
    (s.alive = true ∧ (s.pollKeys.drainCommands.mon.permit s.pc).1 = false ∧
      s.cycle = .next s.afterCheck.render) := by
  unfold State.cycle State.permittedPart
  cases ha : s.alive with
  | false => exact .inl ⟨rfl, rfl⟩
  | true =>
    refine .inr ?_
    simp only [if_true]
    cases hp : (s.pollKeys.drainCommands.mon.permit s.pollKeys.drainCommands.pc).1 with
    | true => exact .inl ⟨trivial, hp, rfl⟩
    | false => exact .inr ⟨trivial, hp, rfl⟩

/-! ## The schedule -/

/-- Everything a step can do: it runs the move the schedule names, the CPU's when the schedule is empty
(spec/20_memory.md R70). -/
theorem step_cases :
    (s.sched = [] ∧ step s = s.cpuStep) ∨
    ∃ m rest, s.sched = m :: rest ∧ step s = State.runMove { s with sched := rest } m := by
  unfold step State.stepOnce
  cases hs : s.sched <;> simp

/-- The step of a schedule that names a move. -/
theorem step_of_sched {s : State} {m : Move} {rest : List Move} (h : s.sched = m :: rest) :
    step s = State.runMove { s with sched := rest } m := by
  unfold step State.stepOnce
  rw [h]

/-- Everything the CPU's move can do: a cycle when Ready, nothing while it waits, the fault of a final phase (R101,
R113, R114). -/
theorem State.cpuStep_cases :
    (s.phase = .ready ∧ s.cpuStep = s.cycle) ∨
    ((s.phase = .idle ∨ ∃ x, s.phase = .waitKey x) ∧ s.cpuStep = .next s) ∨
    (s.phase = .ended ∧ s.cpuStep = .fault .runEnded) ∨
    (s.phase = .loadFailed ∧ s.cpuStep = .fault .loadFailed) := by
  unfold State.cpuStep
  cases hp : s.phase <;> simp

/-- A tick is its timer's step, and no step in Ended (spec/60_exceptions.md R240). -/
theorem State.unlessEnded_cases (u : State) :
    (s.phase = .ended ∧ s.unlessEnded u = s) ∨ (s.phase ≠ .ended ∧ s.unlessEnded u = u) := by
  unfold State.unlessEnded
  cases hp : s.phase <;> simp

/-- Everything a key answer can do (R113). -/
theorem State.answerKey_cases (k : Fin 16) :
    (∃ x, s.phase = .waitKey x ∧ s.answerKey k = .next (s.finishWait x k)) ∨
    ((∀ x, s.phase ≠ .waitKey x) ∧ s.answerKey k = .refused .keyNotRequested) := by
  unfold State.answerKey
  cases hp : s.phase <;> simp

/-- Everything a program load can do (spec/70_reset_and_hazards.md R281, R282). -/
theorem State.loadProgram_cases (bytes : List Byte) :
    (s.phase = .idle ∧ 3584 < bytes.length ∧
      s.loadProgram bytes = .next { s with
        clog := s.clog ++ [⟨.programTooLarge, none, none, bytes.length⟩], phase := .loadFailed }) ∨
    (s.phase = .idle ∧ bytes.length ≤ 3584 ∧
      s.loadProgram bytes = .next { s with mem := s.mem.pokeAll 0x200 bytes, phase := .ready }) ∨
    (s.phase ≠ .idle ∧ s.loadProgram bytes = .refused .loadOutsideIdle) := by
  unfold State.loadProgram
  by_cases hl : bytes.length > 3584
  · cases hp : s.phase <;> simp [hl]
  · have hle : bytes.length ≤ 3584 := by omega
    cases hp : s.phase <;> simp [hl, hle]

end Sys2Proof.Machine
end

