-- ==== Sys2Proof/Laws/Encoding.lean ====
section
/-! SUPPORT. The fields of a packed word are the fields it was packed from (spec/30_encoding.md R82). -/

namespace Sys2Proof

theorem extract_high {m n : Nat} (a : BitVec m) (b : BitVec n) : (a ++ b).extractLsb' n m = a :=
  BitVec.extractLsb'_append_eq_left

theorem extract_low {m n : Nat} (a : BitVec m) (b : BitVec n) : (a ++ b).extractLsb' 0 n = b := by
  rw [BitVec.extractLsb'_append_eq_of_add_le (by omega)]
  simp

@[simp] theorem fieldT_packNNN (t : BitVec 4) (nnn : Addr12) : fieldT (packNNN t nnn) = t := extract_high t nnn
@[simp] theorem fieldNNN_packNNN (t : BitVec 4) (nnn : Addr12) : fieldNNN (packNNN t nnn) = nnn := extract_low t nnn

@[simp] theorem fieldT_packXKK (t : BitVec 4) (x : Reg) (kk : Byte) : fieldT (packXKK t x kk) = t := by
  unfold fieldT packXKK
  rw [BitVec.extractLsb'_append_eq_of_le (by omega)]
  exact extract_high t _

@[simp] theorem fieldX_packXKK (t : BitVec 4) (x : Reg) (kk : Byte) : fieldX (packXKK t x kk) = x := by
  have h : BitVec.extractLsb' 8 4 (packXKK t x kk) = BitVec.ofFin (w := 4) x := by
    unfold packXKK
    rw [BitVec.extractLsb'_append_eq_of_le (by omega)]
    exact extract_low t _
  exact congrArg BitVec.toFin h

@[simp] theorem fieldKK_packXKK (t : BitVec 4) (x : Reg) (kk : Byte) : fieldKK (packXKK t x kk) = kk :=
  extract_low (t ++ BitVec.ofFin (w := 4) x) kk

@[simp] theorem fieldT_packXYN (t : BitVec 4) (x y n : Fin 16) : fieldT (packXYN t x y n) = t := by
  unfold fieldT packXYN
  rw [BitVec.extractLsb'_append_eq_of_le (by omega)]
  exact extract_high t _

@[simp] theorem fieldX_packXYN (t : BitVec 4) (x y n : Fin 16) : fieldX (packXYN t x y n) = x := by
  have h : BitVec.extractLsb' 8 4 (packXYN t x y n) = BitVec.ofFin (w := 4) x := by
    unfold packXYN
    rw [BitVec.extractLsb'_append_eq_of_le (by omega)]
    exact extract_low t _
  exact congrArg BitVec.toFin h

@[simp] theorem fieldY_packXYN (t : BitVec 4) (x y n : Fin 16) : fieldY (packXYN t x y n) = y := by
  have h : BitVec.extractLsb' 4 4 (packXYN t x y n) = BitVec.ofFin (w := 4) y := by
    unfold packXYN
    rw [BitVec.extractLsb'_append_eq_of_add_le (by omega)]
    exact extract_high _ _
  exact congrArg BitVec.toFin h

@[simp] theorem fieldN_packXYN (t : BitVec 4) (x y n : Fin 16) : fieldN (packXYN t x y n) = n := by
  have h : BitVec.extractLsb' 0 4 (packXYN t x y n) = BitVec.ofFin (w := 4) n := by
    unfold packXYN
    rw [BitVec.extractLsb'_append_eq_of_add_le (by omega)]
    exact extract_low _ _
  exact congrArg BitVec.toFin h

/-! ## The key of a packed word (R85) -/

/-- In a family with one instruction only the top nibble takes part. -/
theorem keyOf_packNNN (t : BitVec 4) (nnn : Addr12) (h0 : t ≠ 0x0) (h8 : t ≠ 0x8) (hE : t ≠ 0xE) (hF : t ≠ 0xF) :
    keyOf (packNNN t nnn) = t ++ 0#12 := by
  unfold keyOf familyMask
  simp only [fieldT_packNNN, h0, h8, hE, hF, if_false]
  unfold packNNN
  rw [show (0xF000 : Word) = BitVec.allOnes 4 ++ 0#12 by decide, BitVec.and_append]
  simp only [BitVec.and_allOnes, BitVec.and_zero]

theorem keyOf_packXKK_plain (t : BitVec 4) (x : Reg) (kk : Byte)
    (h0 : t ≠ 0x0) (h8 : t ≠ 0x8) (hE : t ≠ 0xE) (hF : t ≠ 0xF) :
    keyOf (packXKK t x kk) = (t ++ 0#4) ++ 0#8 := by
  unfold keyOf familyMask
  simp only [fieldT_packXKK, h0, h8, hE, hF, if_false]
  unfold packXKK
  rw [show (0xF000 : Word) = (BitVec.allOnes 4 ++ 0#4) ++ 0#8 by decide,
    BitVec.and_append, BitVec.and_append]
  simp only [BitVec.and_allOnes, BitVec.and_zero]

theorem keyOf_packXYN_plain (t : BitVec 4) (x y n : Fin 16)
    (h0 : t ≠ 0x0) (h8 : t ≠ 0x8) (hE : t ≠ 0xE) (hF : t ≠ 0xF) :
    keyOf (packXYN t x y n) = (t ++ 0#4) ++ (0#4 ++ 0#4) := by
  unfold keyOf familyMask
  simp only [fieldT_packXYN, h0, h8, hE, hF, if_false]
  unfold packXYN
  rw [show (0xF000 : Word) = (BitVec.allOnes 4 ++ 0#4) ++ (0#4 ++ 0#4) by decide,
    BitVec.and_append, BitVec.and_append, BitVec.and_append]
  simp only [BitVec.and_allOnes, BitVec.and_zero]

/-- In the families 0x0, 0xE and 0xF the low byte takes part beside the top nibble. -/
theorem keyOf_packXKK_byte (t : BitVec 4) (x : Reg) (kk : Byte) (h : t = 0x0 ∨ t = 0xE ∨ t = 0xF) :
    keyOf (packXKK t x kk) = (t ++ 0#4) ++ kk := by
  have hm : familyMask (packXKK t x kk) = (BitVec.allOnes 4 ++ 0#4) ++ BitVec.allOnes 8 := by
    unfold familyMask
    rw [fieldT_packXKK]
    rcases h with rfl | rfl | rfl <;> decide
  unfold keyOf
  rw [hm]
  unfold packXKK
  rw [BitVec.and_append, BitVec.and_append]
  simp only [BitVec.and_allOnes, BitVec.and_zero]

/-- In the family 0x8 the low nibble takes part beside the top nibble. -/
theorem keyOf_packXYN_alu (x y n : Fin 16) :
    keyOf (packXYN 0x8 x y n) = ((0x8 : BitVec 4) ++ 0#4) ++ (0#4 ++ BitVec.ofFin (w := 4) n) := by
  have hm : familyMask (packXYN 0x8 x y n) =
      (BitVec.allOnes 4 ++ 0#4) ++ (0#4 ++ BitVec.allOnes 4) := by
    unfold familyMask
    rw [fieldT_packXYN]
    decide
  unfold keyOf
  rw [hm]
  unfold packXYN
  rw [BitVec.and_append, BitVec.and_append, BitVec.and_append]
  simp only [BitVec.and_allOnes, BitVec.and_zero]

end Sys2Proof
end

