-- ==== Sys2Proof/Laws/Ops.lean ====
section
/-! SUPPORT. For each shared operation, one lemma that says everything it can do, for the provers to cite instead of
unfolding it. -/

namespace Sys2Proof.Machine

variable (s : State)

/-! ## The call stack -/

/-- Everything a push can do. -/
theorem State.push_cases (w : Word) :
    (s.free.val = 0 ∧ s.push w = none) ∨
    (∃ _ : s.free.val ≠ 0, s.push w = some { s with
      stack := s.stack.set (s.free.val - 1) w (by omega)
      free := ⟨s.free.val - 1, by omega⟩ }) := by
  unfold State.push
  by_cases h : s.free.val = 0
  · exact .inl ⟨h, by simp [h]⟩
  · exact .inr ⟨h, by simp [h]⟩

/-- Everything a pop can do. -/
theorem State.pop_cases :
    (s.free.val = 16 ∧ s.pop = none) ∨
    (∃ _ : s.free.val < 16, s.pop = some (s.stack[s.free.val], { s with free := ⟨s.free.val + 1, by omega⟩ })) := by
  unfold State.pop
  by_cases h : s.free.val < 16
  · exact .inr ⟨h, by simp [h]⟩
  · exact .inl ⟨by omega, by simp [h]⟩

/-! ## Timers -/

@[simp] theorem Timer.set_value (t : Timer) (v : Byte) : (t.set v).value = v := by
  unfold Timer.set; split <;> rfl
@[simp] theorem Timer.set_disabled (t : Timer) (v : Byte) : (t.set v).disabled = t.disabled := by
  unfold Timer.set; split <;> rfl
theorem Timer.set_running (t : Timer) (v : Byte) :
    (t.set v).running = if t.disabled then t.running else v != 0 := by
  unfold Timer.set; split <;> simp_all
@[simp] theorem Timer.tick_value (t : Timer) : t.tick.value = t.value - 1 := rfl
@[simp] theorem Timer.tick_running (t : Timer) : t.tick.running = (t.value - 1 != 0) := rfl
@[simp] theorem Timer.tick_disabled (t : Timer) : t.tick.disabled = t.disabled := rfl

/-! ## The random port -/

/-- Everything a draw can do. -/
theorem State.drawByte_cases :
    (∃ b rest, s.rnd = b :: rest ∧ s.drawByte = (b, { s with rnd := rest })) ∨
    (s.rnd = [] ∧ s.drawByte = (Config.freeByte s.draws, { s with draws := s.draws + 1 })) := by
  unfold State.drawByte
  cases h : s.rnd with
  | nil => exact .inr ⟨rfl, rfl⟩
  | cons b rest => exact .inl ⟨b, rest, rfl, rfl⟩

/-! ## The framebuffer -/

theorem FrameBuffer.cell_toggle (fb : FrameBuffer) (r c r' c' : Nat) :
    (fb.toggle r c).cell r' c' = if r' = r ∧ c' = c ∧ r < 32 ∧ c < 64 then !fb.cell r c else fb.cell r' c' := by
  unfold FrameBuffer.toggle
  by_cases h : r < 32 ∧ c < 64
  · obtain ⟨hr, hc⟩ := h
    simp only [hr, hc, and_self, dite_true, and_true]
    by_cases h' : r' < 32 ∧ c' < 64
    · obtain ⟨hr', hc'⟩ := h'
      by_cases er : r' = r
      · subst er
        by_cases ec : c' = c
        · subst ec; simp [FrameBuffer.cell, hr, hc]
        · simp [FrameBuffer.cell, hr, hc', ec, Ne.symm ec]
      · simp [FrameBuffer.cell, hr', hc', er, Ne.symm er]
    · have : ¬(r' = r ∧ c' = c) := by rintro ⟨rfl, rfl⟩; exact h' ⟨hr, hc⟩
      simp [FrameBuffer.cell, h', this]
  · have : ¬(r' = r ∧ c' = c ∧ r < 32 ∧ c < 64) := by rintro ⟨-, -, hr, hc⟩; exact h ⟨hr, hc⟩
    rw [dif_neg h, if_neg this]

@[simp] theorem FrameBuffer.cell_clear (r c : Nat) : FrameBuffer.clear.cell r c = false := by
  unfold FrameBuffer.cell FrameBuffer.clear
  split <;> simp

theorem State.plot_reg (r c : Nat) (x : Reg) :
    (s.plot r c).reg x = if s.fb.cell r c ∧ x = VF then 1 else s.reg x := by
  unfold State.plot
  by_cases h : s.fb.cell r c
  · simp only [h, if_true, true_and]
    exact (State.reg_congr rfl x).trans (s.reg_setReg VF x 1)
  · simp only [h, Bool.false_eq_true, if_false, false_and]
    exact State.reg_congr rfl x

/-! ## Storing through I -/

/-- `storeIndexed` writes memory and may raise; nothing else. -/
theorem State.storeIndexed_eq (k : Nat) (bs : List Byte) :
    s.storeIndexed k bs = { s with mem := (s.storeIndexed k bs).mem, clog := (s.storeIndexed k bs).clog } := by
  induction bs generalizing s k with
  | nil => rfl
  | cons b bs ih =>
    unfold State.storeIndexed State.writeIndexed
    rcases s.mem.write_cases (s.indexAddr k) b with ⟨_, e⟩ | ⟨_, e⟩
    · simp only [e]
      exact ih { s with mem := s.mem.poke (s.indexAddr k) b } (k + 1)
    · simp only [e]; rfl

@[simp] theorem State.storeIndexed_v (k : Nat) (bs : List Byte) : (s.storeIndexed k bs).v = s.v :=
  (congrArg State.v (s.storeIndexed_eq k bs)).trans rfl
@[simp] theorem State.storeIndexed_i (k : Nat) (bs : List Byte) : (s.storeIndexed k bs).i = s.i :=
  (congrArg State.i (s.storeIndexed_eq k bs)).trans rfl
@[simp] theorem State.storeIndexed_pc (k : Nat) (bs : List Byte) : (s.storeIndexed k bs).pc = s.pc :=
  (congrArg State.pc (s.storeIndexed_eq k bs)).trans rfl
@[simp] theorem State.storeIndexed_stack (k : Nat) (bs : List Byte) : (s.storeIndexed k bs).stack = s.stack :=
  (congrArg State.stack (s.storeIndexed_eq k bs)).trans rfl
@[simp] theorem State.storeIndexed_free (k : Nat) (bs : List Byte) : (s.storeIndexed k bs).free = s.free :=
  (congrArg State.free (s.storeIndexed_eq k bs)).trans rfl
@[simp] theorem State.storeIndexed_dt (k : Nat) (bs : List Byte) : (s.storeIndexed k bs).dt = s.dt :=
  (congrArg State.dt (s.storeIndexed_eq k bs)).trans rfl
@[simp] theorem State.storeIndexed_st (k : Nat) (bs : List Byte) : (s.storeIndexed k bs).st = s.st :=
  (congrArg State.st (s.storeIndexed_eq k bs)).trans rfl
@[simp] theorem State.storeIndexed_key (k : Nat) (bs : List Byte) : (s.storeIndexed k bs).key = s.key :=
  (congrArg State.key (s.storeIndexed_eq k bs)).trans rfl
@[simp] theorem State.storeIndexed_fb (k : Nat) (bs : List Byte) : (s.storeIndexed k bs).fb = s.fb :=
  (congrArg State.fb (s.storeIndexed_eq k bs)).trans rfl
@[simp] theorem State.storeIndexed_mon (k : Nat) (bs : List Byte) : (s.storeIndexed k bs).mon = s.mon :=
  (congrArg State.mon (s.storeIndexed_eq k bs)).trans rfl
@[simp] theorem State.storeIndexed_cmdq (k : Nat) (bs : List Byte) : (s.storeIndexed k bs).cmdq = s.cmdq :=
  (congrArg State.cmdq (s.storeIndexed_eq k bs)).trans rfl
@[simp] theorem State.storeIndexed_phase (k : Nat) (bs : List Byte) : (s.storeIndexed k bs).phase = s.phase :=
  (congrArg State.phase (s.storeIndexed_eq k bs)).trans rfl
@[simp] theorem State.storeIndexed_has8xy0 (k : Nat) (bs : List Byte) : (s.storeIndexed k bs).has8xy0 = s.has8xy0 :=
  (congrArg State.has8xy0 (s.storeIndexed_eq k bs)).trans rfl
@[simp] theorem State.storeIndexed_alive (k : Nat) (bs : List Byte) : (s.storeIndexed k bs).alive = s.alive :=
  (congrArg State.alive (s.storeIndexed_eq k bs)).trans rfl
@[simp] theorem State.storeIndexed_keys (k : Nat) (bs : List Byte) : (s.storeIndexed k bs).keys = s.keys :=
  (congrArg State.keys (s.storeIndexed_eq k bs)).trans rfl
@[simp] theorem State.storeIndexed_rnd (k : Nat) (bs : List Byte) : (s.storeIndexed k bs).rnd = s.rnd :=
  (congrArg State.rnd (s.storeIndexed_eq k bs)).trans rfl
@[simp] theorem State.storeIndexed_draws (k : Nat) (bs : List Byte) : (s.storeIndexed k bs).draws = s.draws :=
  (congrArg State.draws (s.storeIndexed_eq k bs)).trans rfl
@[simp] theorem State.storeIndexed_frame (k : Nat) (bs : List Byte) : (s.storeIndexed k bs).frame = s.frame :=
  (congrArg State.frame (s.storeIndexed_eq k bs)).trans rfl
@[simp] theorem State.storeIndexed_frames (k : Nat) (bs : List Byte) : (s.storeIndexed k bs).frames = s.frames :=
  (congrArg State.frames (s.storeIndexed_eq k bs)).trans rfl
@[simp] theorem State.storeIndexed_tone (k : Nat) (bs : List Byte) : (s.storeIndexed k bs).tone = s.tone :=
  (congrArg State.tone (s.storeIndexed_eq k bs)).trans rfl
@[simp] theorem State.storeIndexed_ipc (k : Nat) (bs : List Byte) : (s.storeIndexed k bs).ipc = s.ipc :=
  (congrArg State.ipc (s.storeIndexed_eq k bs)).trans rfl
@[simp] theorem State.storeIndexed_op (k : Nat) (bs : List Byte) : (s.storeIndexed k bs).op = s.op :=
  (congrArg State.op (s.storeIndexed_eq k bs)).trans rfl
@[simp] theorem State.storeIndexed_sched (k : Nat) (bs : List Byte) : (s.storeIndexed k bs).sched = s.sched :=
  (congrArg State.sched (s.storeIndexed_eq k bs)).trans rfl

@[simp] theorem State.reg_storeIndexed (k : Nat) (bs : List Byte) (x : Reg) : (s.storeIndexed k bs).reg x = s.reg x :=
  State.reg_congr (by simp) x

/-- What a store sequence leaves at an address: the byte placed there, if the address is in memory, else what was
there. -/
theorem State.read_storeIndexed (k : Nat) (bs : List Byte) (a : Nat) :
    (s.storeIndexed k bs).mem.read a =
      if h : s.indexAddr k ≤ a ∧ a - s.indexAddr k < bs.length ∧ a < 4096 then some (bs[a - s.indexAddr k]'h.2.1)
      else s.mem.read a := by
  induction bs generalizing s k with
  | nil => simp [State.storeIndexed]
  | cons b bs ih =>
    unfold State.storeIndexed State.writeIndexed
    rcases s.mem.write_cases (s.indexAddr k) b with ⟨hlt, e⟩ | ⟨hge, e⟩
    · simp only [e]
      rw [ih, Memory.read_poke _ _ _ _ hlt]
      have hi : State.indexAddr { s with mem := s.mem.poke (s.indexAddr k) b } (k + 1) = s.indexAddr k + 1 := rfl
      rw [hi]
      by_cases ea : s.indexAddr k = a
      · subst ea; simp [hlt]
      · by_cases h : s.indexAddr k + 1 ≤ a
        · obtain ⟨d, rfl⟩ : ∃ d, a = s.indexAddr k + 1 + d := ⟨a - (s.indexAddr k + 1), by omega⟩
          have e1 : s.indexAddr k + 1 + d - s.indexAddr k = d + 1 := by omega
          have e2 : s.indexAddr k + 1 + d - (s.indexAddr k + 1) = d := by omega
          simp [ea, e1, e2, show s.indexAddr k ≤ s.indexAddr k + 1 + d by omega]
        · have h' : ¬ s.indexAddr k ≤ a := by omega
          simp [ea, h, h']
    · simp only [e]
      have : ¬ (s.indexAddr k ≤ a ∧ a - s.indexAddr k < (b :: bs).length ∧ a < 4096) := by omega
      rw [dif_neg this]
      rfl

/-- When a store sequence raises, and the index it raises with. -/
theorem State.clog_storeIndexed (k : Nat) (bs : List Byte) :
    (s.storeIndexed k bs).clog =
      if bs = [] ∨ s.indexAddr k + bs.length ≤ 4096 then s.clog
      else s.clog ++ [⟨.outOfBoundsAddress, some s.ipc, s.op, max (s.indexAddr k) 4096⟩] := by
  induction bs generalizing s k with
  | nil => simp [State.storeIndexed]
  | cons b bs ih =>
    unfold State.storeIndexed State.writeIndexed
    rcases s.mem.write_cases (s.indexAddr k) b with ⟨hlt, e⟩ | ⟨hge, e⟩
    · simp only [e]
      rw [ih]
      have hi : State.indexAddr { s with mem := s.mem.poke (s.indexAddr k) b } (k + 1) = s.indexAddr k + 1 := rfl
      rw [hi]
      by_cases hb : bs = []
      · subst hb; simp [show s.indexAddr k + 1 ≤ 4096 by omega]
      · have hpos := List.length_pos_iff.2 hb
        have hm : max (s.indexAddr k + 1) 4096 = max (s.indexAddr k) 4096 := by omega
        simp only [hb, false_or, List.cons_ne_nil, List.length_cons, hm,
          show s.indexAddr k + 1 + bs.length = s.indexAddr k + (bs.length + 1) by omega]
    · simp only [e]
      have hm : max (s.indexAddr k) 4096 = s.indexAddr k := by omega
      have hn : ¬ s.indexAddr k + (b :: bs).length ≤ 4096 := by simp only [List.length_cons]; omega
      simp [State.raiseIndexed, hm]
      omega

theorem State.glyphs_storeIndexed (k : Nat) (bs : List Byte) : (s.storeIndexed k bs).mem.glyphs = s.mem.glyphs := by
  induction bs generalizing s k with
  | nil => rfl
  | cons b bs ih =>
    unfold State.storeIndexed State.writeIndexed
    rcases s.mem.write_cases (s.indexAddr k) b with ⟨_, e⟩ | ⟨_, e⟩
    · simp only [e]; exact ih _ _
    · simp only [e]; rfl

theorem State.wf_storeIndexed (k : Nat) (bs : List Byte) (h : s.mem.wf) : (s.storeIndexed k bs).mem.wf := by
  induction bs generalizing s k with
  | nil => exact h
  | cons b bs ih =>
    unfold State.storeIndexed State.writeIndexed
    rcases s.mem.write_cases (s.indexAddr k) b with ⟨hlt, e⟩ | ⟨_, e⟩
    · simp only [e]; exact ih _ _ (Memory.wf_poke b h hlt)
    · simp only [e]; exact h

/-! ## Loading through I -/

/-- `loadIndexed` writes general registers and may raise; nothing else. -/
theorem State.loadIndexed_eq (k n : Nat) :
    s.loadIndexed k n = { s with v := (s.loadIndexed k n).v, clog := (s.loadIndexed k n).clog } := by
  induction n generalizing s k with
  | zero => rfl
  | succ n ih =>
    unfold State.loadIndexed
    cases h : s.readIndexed k with
    | none => rfl
    | some b => exact ih (s.setReg (regOf k) b) (k + 1)

@[simp] theorem State.loadIndexed_mem (k n : Nat) : (s.loadIndexed k n).mem = s.mem :=
  (congrArg State.mem (s.loadIndexed_eq k n)).trans rfl
@[simp] theorem State.loadIndexed_i (k n : Nat) : (s.loadIndexed k n).i = s.i :=
  (congrArg State.i (s.loadIndexed_eq k n)).trans rfl
@[simp] theorem State.loadIndexed_pc (k n : Nat) : (s.loadIndexed k n).pc = s.pc :=
  (congrArg State.pc (s.loadIndexed_eq k n)).trans rfl
@[simp] theorem State.loadIndexed_stack (k n : Nat) : (s.loadIndexed k n).stack = s.stack :=
  (congrArg State.stack (s.loadIndexed_eq k n)).trans rfl
@[simp] theorem State.loadIndexed_free (k n : Nat) : (s.loadIndexed k n).free = s.free :=
  (congrArg State.free (s.loadIndexed_eq k n)).trans rfl
@[simp] theorem State.loadIndexed_dt (k n : Nat) : (s.loadIndexed k n).dt = s.dt :=
  (congrArg State.dt (s.loadIndexed_eq k n)).trans rfl
@[simp] theorem State.loadIndexed_st (k n : Nat) : (s.loadIndexed k n).st = s.st :=
  (congrArg State.st (s.loadIndexed_eq k n)).trans rfl
@[simp] theorem State.loadIndexed_key (k n : Nat) : (s.loadIndexed k n).key = s.key :=
  (congrArg State.key (s.loadIndexed_eq k n)).trans rfl
@[simp] theorem State.loadIndexed_fb (k n : Nat) : (s.loadIndexed k n).fb = s.fb :=
  (congrArg State.fb (s.loadIndexed_eq k n)).trans rfl
@[simp] theorem State.loadIndexed_mon (k n : Nat) : (s.loadIndexed k n).mon = s.mon :=
  (congrArg State.mon (s.loadIndexed_eq k n)).trans rfl
@[simp] theorem State.loadIndexed_cmdq (k n : Nat) : (s.loadIndexed k n).cmdq = s.cmdq :=
  (congrArg State.cmdq (s.loadIndexed_eq k n)).trans rfl
@[simp] theorem State.loadIndexed_phase (k n : Nat) : (s.loadIndexed k n).phase = s.phase :=
  (congrArg State.phase (s.loadIndexed_eq k n)).trans rfl
@[simp] theorem State.loadIndexed_has8xy0 (k n : Nat) : (s.loadIndexed k n).has8xy0 = s.has8xy0 :=
  (congrArg State.has8xy0 (s.loadIndexed_eq k n)).trans rfl
@[simp] theorem State.loadIndexed_alive (k n : Nat) : (s.loadIndexed k n).alive = s.alive :=
  (congrArg State.alive (s.loadIndexed_eq k n)).trans rfl
@[simp] theorem State.loadIndexed_keys (k n : Nat) : (s.loadIndexed k n).keys = s.keys :=
  (congrArg State.keys (s.loadIndexed_eq k n)).trans rfl
@[simp] theorem State.loadIndexed_rnd (k n : Nat) : (s.loadIndexed k n).rnd = s.rnd :=
  (congrArg State.rnd (s.loadIndexed_eq k n)).trans rfl
@[simp] theorem State.loadIndexed_draws (k n : Nat) : (s.loadIndexed k n).draws = s.draws :=
  (congrArg State.draws (s.loadIndexed_eq k n)).trans rfl
@[simp] theorem State.loadIndexed_frame (k n : Nat) : (s.loadIndexed k n).frame = s.frame :=
  (congrArg State.frame (s.loadIndexed_eq k n)).trans rfl
@[simp] theorem State.loadIndexed_frames (k n : Nat) : (s.loadIndexed k n).frames = s.frames :=
  (congrArg State.frames (s.loadIndexed_eq k n)).trans rfl
@[simp] theorem State.loadIndexed_tone (k n : Nat) : (s.loadIndexed k n).tone = s.tone :=
  (congrArg State.tone (s.loadIndexed_eq k n)).trans rfl
@[simp] theorem State.loadIndexed_ipc (k n : Nat) : (s.loadIndexed k n).ipc = s.ipc :=
  (congrArg State.ipc (s.loadIndexed_eq k n)).trans rfl
@[simp] theorem State.loadIndexed_op (k n : Nat) : (s.loadIndexed k n).op = s.op :=
  (congrArg State.op (s.loadIndexed_eq k n)).trans rfl
@[simp] theorem State.loadIndexed_sched (k n : Nat) : (s.loadIndexed k n).sched = s.sched :=
  (congrArg State.sched (s.loadIndexed_eq k n)).trans rfl

/-- What a load sequence leaves in a register: the byte at its index if the register is in the range and the index is
in memory, else what it held. -/
theorem State.reg_loadIndexed (k n : Nat) (hk : k + n ≤ 16) (r : Reg) :
    (s.loadIndexed k n).reg r =
      if k ≤ r.val ∧ r.val < k + n ∧ s.indexAddr r.val < 4096 then s.mem.peek (s.indexAddr r.val) else s.reg r := by
  induction n generalizing s k with
  | zero =>
    have : ¬ (k ≤ r.val ∧ r.val < k + 0 ∧ s.indexAddr r.val < 4096) := by omega
    rw [if_neg this]
    rfl
  | succ n ih =>
    unfold State.loadIndexed State.readIndexed
    by_cases hlt : s.indexAddr k < 4096
    · rw [Memory.read_of_lt _ hlt]
      dsimp only
      rw [ih _ _ (by omega), State.reg_setReg]
      have hi : State.indexAddr (s.setReg (regOf k) (s.mem.peek (s.indexAddr k))) r.val = s.indexAddr r.val := rfl
      have hv : (regOf k).val = k := by simp [regOf, Nat.mod_eq_of_lt (show k < 16 by omega)]
      rw [hi, State.setReg_mem]
      by_cases e : r = regOf k
      · have er : r.val = k := by rw [e, hv]
        simp [e, hv, hlt]
      · have er : r.val ≠ k := fun h => e (Fin.ext (by rw [h, hv]))
        rw [if_neg e]
        by_cases c1 : k ≤ r.val ∧ r.val < k + (n + 1) ∧ s.indexAddr r.val < 4096
        · rw [if_pos c1, if_pos (by omega)]
        · rw [if_neg c1, if_neg (by omega)]
    · rw [(s.mem.read_eq_none _).2 (by omega)]
      have : ¬ (k ≤ r.val ∧ r.val < k + (n + 1) ∧ s.indexAddr r.val < 4096) := by
        unfold State.indexAddr at *; omega
      simp [State.raiseIndexed, this]

/-- When a load sequence raises, and the index it raises with. -/
theorem State.clog_loadIndexed (k n : Nat) :
    (s.loadIndexed k n).clog =
      if n = 0 ∨ s.indexAddr k + n ≤ 4096 then s.clog
      else s.clog ++ [⟨.outOfBoundsAddress, some s.ipc, s.op, max (s.indexAddr k) 4096⟩] := by
  induction n generalizing s k with
  | zero => simp [State.loadIndexed]
  | succ n ih =>
    unfold State.loadIndexed State.readIndexed
    by_cases hlt : s.indexAddr k < 4096
    · rw [Memory.read_of_lt _ hlt]
      dsimp only
      rw [ih]
      have hi : State.indexAddr (s.setReg (regOf k) (s.mem.peek (s.indexAddr k))) (k + 1) = s.indexAddr k + 1 := rfl
      rw [hi]
      by_cases hn : n = 0
      · subst hn; simp [show s.indexAddr k + 1 ≤ 4096 by omega]
      · have hm : max (s.indexAddr k + 1) 4096 = max (s.indexAddr k) 4096 := by omega
        simp [hn, hm, show s.indexAddr k + 1 + n = s.indexAddr k + (n + 1) by omega]
    · rw [(s.mem.read_eq_none _).2 (by omega)]
      have hm : max (s.indexAddr k) 4096 = s.indexAddr k := by omega
      simp [State.raiseIndexed, hm]
      omega

/-! ## Drawing -/

/-- A pixel touches VF and the framebuffer; nothing else. -/
theorem State.plotColumn_eq (bits : Byte) (vx py : Nat) (c : Nat) :
    State.plotColumn bits vx py s c =
      { s with v := (State.plotColumn bits vx py s c).v, fb := (State.plotColumn bits vx py s c).fb } := by
  unfold State.plotColumn State.plot
  split
  · split <;> rfl
  · rfl

theorem State.foldl_plotColumn_eq (bits : Byte) (vx py : Nat) (cs : List Nat) :
    cs.foldl (State.plotColumn bits vx py) s =
      { s with v := (cs.foldl (State.plotColumn bits vx py) s).v
               fb := (cs.foldl (State.plotColumn bits vx py) s).fb } := by
  induction cs generalizing s with
  | nil => rfl
  | cons c cs ih =>
    rw [List.foldl_cons]
    have h1 := ih (State.plotColumn bits vx py s c)
    rw [s.plotColumn_eq bits vx py c] at h1 ⊢
    exact h1

theorem State.drawRow_eq (bits : Byte) (vx py : Nat) :
    s.drawRow bits vx py = { s with v := (s.drawRow bits vx py).v, fb := (s.drawRow bits vx py).fb } := by
  unfold State.drawRow
  split
  · exact s.foldl_plotColumn_eq bits vx py _
  · rfl

@[simp] theorem State.drawRow_mem (bits : Byte) (vx py : Nat) : (s.drawRow bits vx py).mem = s.mem :=
  (congrArg State.mem (s.drawRow_eq bits vx py)).trans rfl
@[simp] theorem State.drawRow_i (bits : Byte) (vx py : Nat) : (s.drawRow bits vx py).i = s.i :=
  (congrArg State.i (s.drawRow_eq bits vx py)).trans rfl
@[simp] theorem State.drawRow_pc (bits : Byte) (vx py : Nat) : (s.drawRow bits vx py).pc = s.pc :=
  (congrArg State.pc (s.drawRow_eq bits vx py)).trans rfl
@[simp] theorem State.drawRow_stack (bits : Byte) (vx py : Nat) : (s.drawRow bits vx py).stack = s.stack :=
  (congrArg State.stack (s.drawRow_eq bits vx py)).trans rfl
@[simp] theorem State.drawRow_free (bits : Byte) (vx py : Nat) : (s.drawRow bits vx py).free = s.free :=
  (congrArg State.free (s.drawRow_eq bits vx py)).trans rfl
@[simp] theorem State.drawRow_dt (bits : Byte) (vx py : Nat) : (s.drawRow bits vx py).dt = s.dt :=
  (congrArg State.dt (s.drawRow_eq bits vx py)).trans rfl
@[simp] theorem State.drawRow_st (bits : Byte) (vx py : Nat) : (s.drawRow bits vx py).st = s.st :=
  (congrArg State.st (s.drawRow_eq bits vx py)).trans rfl
@[simp] theorem State.drawRow_key (bits : Byte) (vx py : Nat) : (s.drawRow bits vx py).key = s.key :=
  (congrArg State.key (s.drawRow_eq bits vx py)).trans rfl
@[simp] theorem State.drawRow_mon (bits : Byte) (vx py : Nat) : (s.drawRow bits vx py).mon = s.mon :=
  (congrArg State.mon (s.drawRow_eq bits vx py)).trans rfl
@[simp] theorem State.drawRow_cmdq (bits : Byte) (vx py : Nat) : (s.drawRow bits vx py).cmdq = s.cmdq :=
  (congrArg State.cmdq (s.drawRow_eq bits vx py)).trans rfl
@[simp] theorem State.drawRow_phase (bits : Byte) (vx py : Nat) : (s.drawRow bits vx py).phase = s.phase :=
  (congrArg State.phase (s.drawRow_eq bits vx py)).trans rfl
@[simp] theorem State.drawRow_clog (bits : Byte) (vx py : Nat) : (s.drawRow bits vx py).clog = s.clog :=
  (congrArg State.clog (s.drawRow_eq bits vx py)).trans rfl
@[simp] theorem State.drawRow_has8xy0 (bits : Byte) (vx py : Nat) : (s.drawRow bits vx py).has8xy0 = s.has8xy0 :=
  (congrArg State.has8xy0 (s.drawRow_eq bits vx py)).trans rfl
@[simp] theorem State.drawRow_alive (bits : Byte) (vx py : Nat) : (s.drawRow bits vx py).alive = s.alive :=
  (congrArg State.alive (s.drawRow_eq bits vx py)).trans rfl
@[simp] theorem State.drawRow_keys (bits : Byte) (vx py : Nat) : (s.drawRow bits vx py).keys = s.keys :=
  (congrArg State.keys (s.drawRow_eq bits vx py)).trans rfl
@[simp] theorem State.drawRow_rnd (bits : Byte) (vx py : Nat) : (s.drawRow bits vx py).rnd = s.rnd :=
  (congrArg State.rnd (s.drawRow_eq bits vx py)).trans rfl
@[simp] theorem State.drawRow_draws (bits : Byte) (vx py : Nat) : (s.drawRow bits vx py).draws = s.draws :=
  (congrArg State.draws (s.drawRow_eq bits vx py)).trans rfl
@[simp] theorem State.drawRow_frame (bits : Byte) (vx py : Nat) : (s.drawRow bits vx py).frame = s.frame :=
  (congrArg State.frame (s.drawRow_eq bits vx py)).trans rfl
@[simp] theorem State.drawRow_frames (bits : Byte) (vx py : Nat) : (s.drawRow bits vx py).frames = s.frames :=
  (congrArg State.frames (s.drawRow_eq bits vx py)).trans rfl
@[simp] theorem State.drawRow_tone (bits : Byte) (vx py : Nat) : (s.drawRow bits vx py).tone = s.tone :=
  (congrArg State.tone (s.drawRow_eq bits vx py)).trans rfl
@[simp] theorem State.drawRow_ipc (bits : Byte) (vx py : Nat) : (s.drawRow bits vx py).ipc = s.ipc :=
  (congrArg State.ipc (s.drawRow_eq bits vx py)).trans rfl
@[simp] theorem State.drawRow_op (bits : Byte) (vx py : Nat) : (s.drawRow bits vx py).op = s.op :=
  (congrArg State.op (s.drawRow_eq bits vx py)).trans rfl
@[simp] theorem State.drawRow_sched (bits : Byte) (vx py : Nat) : (s.drawRow bits vx py).sched = s.sched :=
  (congrArg State.sched (s.drawRow_eq bits vx py)).trans rfl

/-- `drawRows` writes VF, the framebuffer and the log; nothing else. -/
theorem State.drawRows_eq (vx vy r n : Nat) :
    s.drawRows vx vy r n = { s with
      v := (s.drawRows vx vy r n).v, fb := (s.drawRows vx vy r n).fb, clog := (s.drawRows vx vy r n).clog } := by
  induction n generalizing s r with
  | zero => rfl
  | succ n ih =>
    unfold State.drawRows
    cases h : s.readIndexed r with
    | none => rfl
    | some bits =>
      dsimp only
      have h1 := ih (s.drawRow bits vx (vy + r)) (r + 1)
      rw [s.drawRow_eq bits vx (vy + r)] at h1 ⊢
      exact h1

@[simp] theorem State.drawRows_mem (vx vy r n : Nat) : (s.drawRows vx vy r n).mem = s.mem :=
  (congrArg State.mem (s.drawRows_eq vx vy r n)).trans rfl
@[simp] theorem State.drawRows_i (vx vy r n : Nat) : (s.drawRows vx vy r n).i = s.i :=
  (congrArg State.i (s.drawRows_eq vx vy r n)).trans rfl
@[simp] theorem State.drawRows_pc (vx vy r n : Nat) : (s.drawRows vx vy r n).pc = s.pc :=
  (congrArg State.pc (s.drawRows_eq vx vy r n)).trans rfl
@[simp] theorem State.drawRows_stack (vx vy r n : Nat) : (s.drawRows vx vy r n).stack = s.stack :=
  (congrArg State.stack (s.drawRows_eq vx vy r n)).trans rfl
@[simp] theorem State.drawRows_free (vx vy r n : Nat) : (s.drawRows vx vy r n).free = s.free :=
  (congrArg State.free (s.drawRows_eq vx vy r n)).trans rfl
@[simp] theorem State.drawRows_dt (vx vy r n : Nat) : (s.drawRows vx vy r n).dt = s.dt :=
  (congrArg State.dt (s.drawRows_eq vx vy r n)).trans rfl
@[simp] theorem State.drawRows_st (vx vy r n : Nat) : (s.drawRows vx vy r n).st = s.st :=
  (congrArg State.st (s.drawRows_eq vx vy r n)).trans rfl
@[simp] theorem State.drawRows_key (vx vy r n : Nat) : (s.drawRows vx vy r n).key = s.key :=
  (congrArg State.key (s.drawRows_eq vx vy r n)).trans rfl
@[simp] theorem State.drawRows_mon (vx vy r n : Nat) : (s.drawRows vx vy r n).mon = s.mon :=
  (congrArg State.mon (s.drawRows_eq vx vy r n)).trans rfl
@[simp] theorem State.drawRows_cmdq (vx vy r n : Nat) : (s.drawRows vx vy r n).cmdq = s.cmdq :=
  (congrArg State.cmdq (s.drawRows_eq vx vy r n)).trans rfl
@[simp] theorem State.drawRows_phase (vx vy r n : Nat) : (s.drawRows vx vy r n).phase = s.phase :=
  (congrArg State.phase (s.drawRows_eq vx vy r n)).trans rfl
@[simp] theorem State.drawRows_has8xy0 (vx vy r n : Nat) : (s.drawRows vx vy r n).has8xy0 = s.has8xy0 :=
  (congrArg State.has8xy0 (s.drawRows_eq vx vy r n)).trans rfl
@[simp] theorem State.drawRows_alive (vx vy r n : Nat) : (s.drawRows vx vy r n).alive = s.alive :=
  (congrArg State.alive (s.drawRows_eq vx vy r n)).trans rfl
@[simp] theorem State.drawRows_keys (vx vy r n : Nat) : (s.drawRows vx vy r n).keys = s.keys :=
  (congrArg State.keys (s.drawRows_eq vx vy r n)).trans rfl
@[simp] theorem State.drawRows_rnd (vx vy r n : Nat) : (s.drawRows vx vy r n).rnd = s.rnd :=
  (congrArg State.rnd (s.drawRows_eq vx vy r n)).trans rfl
@[simp] theorem State.drawRows_draws (vx vy r n : Nat) : (s.drawRows vx vy r n).draws = s.draws :=
  (congrArg State.draws (s.drawRows_eq vx vy r n)).trans rfl
@[simp] theorem State.drawRows_frame (vx vy r n : Nat) : (s.drawRows vx vy r n).frame = s.frame :=
  (congrArg State.frame (s.drawRows_eq vx vy r n)).trans rfl
@[simp] theorem State.drawRows_frames (vx vy r n : Nat) : (s.drawRows vx vy r n).frames = s.frames :=
  (congrArg State.frames (s.drawRows_eq vx vy r n)).trans rfl
@[simp] theorem State.drawRows_tone (vx vy r n : Nat) : (s.drawRows vx vy r n).tone = s.tone :=
  (congrArg State.tone (s.drawRows_eq vx vy r n)).trans rfl
@[simp] theorem State.drawRows_ipc (vx vy r n : Nat) : (s.drawRows vx vy r n).ipc = s.ipc :=
  (congrArg State.ipc (s.drawRows_eq vx vy r n)).trans rfl
@[simp] theorem State.drawRows_op (vx vy r n : Nat) : (s.drawRows vx vy r n).op = s.op :=
  (congrArg State.op (s.drawRows_eq vx vy r n)).trans rfl
@[simp] theorem State.drawRows_sched (vx vy r n : Nat) : (s.drawRows vx vy r n).sched = s.sched :=
  (congrArg State.sched (s.drawRows_eq vx vy r n)).trans rfl

theorem State.reg_plotColumn_of_ne (bits : Byte) (vx py c : Nat) (x : Reg) (h : x ≠ VF) :
    (State.plotColumn bits vx py s c).reg x = s.reg x := by
  unfold State.plotColumn
  split
  · rw [State.plot_reg]; simp [h]
  · rfl

/-- Drawing touches no general register but VF. -/
theorem State.reg_drawRow_of_ne (bits : Byte) (vx py : Nat) (x : Reg) (h : x ≠ VF) :
    (s.drawRow bits vx py).reg x = s.reg x := by
  unfold State.drawRow
  split
  · generalize [0, 1, 2, 3, 4, 5, 6, 7] = cs
    induction cs generalizing s with
    | nil => rfl
    | cons c cs ih => rw [List.foldl_cons, ih, State.reg_plotColumn_of_ne _ _ _ _ _ _ h]
  · rfl

theorem State.reg_drawRows_of_ne (vx vy r n : Nat) (x : Reg) (h : x ≠ VF) :
    (s.drawRows vx vy r n).reg x = s.reg x := by
  induction n generalizing s r with
  | zero => rfl
  | succ n ih =>
    unfold State.drawRows
    cases s.readIndexed r with
    | none => rfl
    | some bits => dsimp only; rw [ih, State.reg_drawRow_of_ne _ _ _ _ _ h]

/-- When drawing raises, and the index it raises with. -/
theorem State.clog_drawRows (vx vy r n : Nat) :
    (s.drawRows vx vy r n).clog =
      if n = 0 ∨ s.indexAddr r + n ≤ 4096 then s.clog
      else s.clog ++ [⟨.outOfBoundsAddress, some s.ipc, s.op, max (s.indexAddr r) 4096⟩] := by
  induction n generalizing s r with
  | zero => simp [State.drawRows]
  | succ n ih =>
    unfold State.drawRows State.readIndexed
    by_cases hlt : s.indexAddr r < 4096
    · rw [Memory.read_of_lt _ hlt]
      dsimp only
      rw [ih]
      have hi : State.indexAddr (s.drawRow (s.mem.peek (s.indexAddr r)) vx (vy + r)) (r + 1) = s.indexAddr r + 1 := by
        simp [State.indexAddr]; omega
      rw [hi]
      by_cases hn : n = 0
      · subst hn; simp [show s.indexAddr r + 1 ≤ 4096 by omega]
      · have hm : max (s.indexAddr r + 1) 4096 = max (s.indexAddr r) 4096 := by omega
        simp [hn, hm, show s.indexAddr r + 1 + n = s.indexAddr r + (n + 1) by omega]
    · rw [(s.mem.read_eq_none _).2 (by omega)]
      have hm : max (s.indexAddr r) 4096 = s.indexAddr r := by omega
      simp [State.raiseIndexed, hm]
      omega

end Sys2Proof.Machine
end

