-- ==== Sys2Proof/Laws/Frames.lean ====
section
/-! SUPPORT. The addresses a store through `I` may write, and that it leaves every other byte. -/

namespace Sys2Proof.Machine

variable (s : State)

theorem State.mem_bytesFromI (n a : Nat) : a ∈ s.bytesFromI n ↔ s.i.toNat ≤ a ∧ a < s.i.toNat + n := by
  simp only [State.bytesFromI, State.indexAddr, List.mem_map, List.mem_range]
  constructor
  · rintro ⟨k, hk, rfl⟩
    omega
  · intro h
    exact ⟨a - s.i.toNat, by omega, by omega⟩

/-- A store sequence from `I` on leaves every byte outside its own. -/
theorem State.read_storeIndexed_outside (bs : List Byte) {a : Nat} (h : a ∉ s.bytesFromI bs.length) :
    (s.storeIndexed 0 bs).mem.read a = s.mem.read a := by
  rw [State.mem_bytesFromI] at h
  rw [State.read_storeIndexed, dif_neg]
  unfold State.indexAddr
  omega

end Sys2Proof.Machine
end

