-- ==== Sys2Proof/Laws/PerInstr.lean ====
section
/-! SUPPORT. Statements about every instruction, one lemma a constructor. `EncodedKey`: the word of an instruction has
the key of its row of the dispatch table (spec/30_encoding.md R85, R86), whatever its operands. -/

namespace Sys2Proof.Laws.EncodedKey

/-- The key of an instruction's row (R86). -/
def key : Instr → Word
  | .cls => 0x00E0
  | .ret => 0x00EE
  | .jp _ => 0x1000
  | .call _ => 0x2000
  | .seVxKK _ _ => 0x3000
  | .sneVxKK _ _ => 0x4000
  | .seVxVy _ _ => 0x5000
  | .ldVxKK _ _ => 0x6000
  | .addVxKK _ _ => 0x7000
  | .ldVxVy _ _ => 0x8000
  | .orVxVy _ _ => 0x8001
  | .andVxVy _ _ => 0x8002
  | .xorVxVy _ _ => 0x8003
  | .addVxVy _ _ => 0x8004
  | .subVxVy _ _ => 0x8005
  | .shrVx _ => 0x8006
  | .subnVxVy _ _ => 0x8007
  | .shlVx _ => 0x800E
  | .sneVxVy _ _ => 0x9000
  | .ldI _ => 0xA000
  | .jpV0 _ => 0xB000
  | .rnd _ _ => 0xC000
  | .drw _ _ _ => 0xD000
  | .skp _ => 0xE09E
  | .sknp _ => 0xE0A1
  | .ldVxDT _ => 0xF007
  | .ldVxK _ => 0xF00A
  | .ldDTVx _ => 0xF015
  | .ldSTVx _ => 0xF018
  | .addIVx _ => 0xF01E
  | .ldFVx _ => 0xF029
  | .ldBVx _ => 0xF033
  | .ldMemVx _ => 0xF055
  | .ldVxMem _ => 0xF065

/-- The word of the instruction has its row's key. -/
def Statement (i : Instr) : Prop := keyOf (encode i) = key i

theorem cls : Statement .cls := by unfold Statement; decide
theorem ret : Statement .ret := by unfold Statement; decide
theorem jp (nnn : Addr12) : Statement (.jp nnn) := (keyOf_packNNN _ _ (by decide) (by decide) (by decide) (by decide)).trans rfl
theorem call (nnn : Addr12) : Statement (.call nnn) := (keyOf_packNNN _ _ (by decide) (by decide) (by decide) (by decide)).trans rfl
theorem seVxKK (x : Reg) (kk : Byte) : Statement (.seVxKK x kk) := (keyOf_packXKK_plain _ _ _ (by decide) (by decide) (by decide) (by decide)).trans rfl
theorem sneVxKK (x : Reg) (kk : Byte) : Statement (.sneVxKK x kk) := (keyOf_packXKK_plain _ _ _ (by decide) (by decide) (by decide) (by decide)).trans rfl
theorem seVxVy (x y : Reg) : Statement (.seVxVy x y) := (keyOf_packXYN_plain _ _ _ _ (by decide) (by decide) (by decide) (by decide)).trans rfl
theorem ldVxKK (x : Reg) (kk : Byte) : Statement (.ldVxKK x kk) := (keyOf_packXKK_plain _ _ _ (by decide) (by decide) (by decide) (by decide)).trans rfl
theorem addVxKK (x : Reg) (kk : Byte) : Statement (.addVxKK x kk) := (keyOf_packXKK_plain _ _ _ (by decide) (by decide) (by decide) (by decide)).trans rfl
theorem ldVxVy (x y : Reg) : Statement (.ldVxVy x y) := (keyOf_packXYN_alu _ _ _).trans rfl
theorem orVxVy (x y : Reg) : Statement (.orVxVy x y) := (keyOf_packXYN_alu _ _ _).trans rfl
theorem andVxVy (x y : Reg) : Statement (.andVxVy x y) := (keyOf_packXYN_alu _ _ _).trans rfl
theorem xorVxVy (x y : Reg) : Statement (.xorVxVy x y) := (keyOf_packXYN_alu _ _ _).trans rfl
theorem addVxVy (x y : Reg) : Statement (.addVxVy x y) := (keyOf_packXYN_alu _ _ _).trans rfl
theorem subVxVy (x y : Reg) : Statement (.subVxVy x y) := (keyOf_packXYN_alu _ _ _).trans rfl
theorem shrVx (x : Reg) : Statement (.shrVx x) := (keyOf_packXYN_alu _ _ _).trans rfl
theorem subnVxVy (x y : Reg) : Statement (.subnVxVy x y) := (keyOf_packXYN_alu _ _ _).trans rfl
theorem shlVx (x : Reg) : Statement (.shlVx x) := (keyOf_packXYN_alu _ _ _).trans rfl
theorem sneVxVy (x y : Reg) : Statement (.sneVxVy x y) := (keyOf_packXYN_plain _ _ _ _ (by decide) (by decide) (by decide) (by decide)).trans rfl
theorem ldI (nnn : Addr12) : Statement (.ldI nnn) := (keyOf_packNNN _ _ (by decide) (by decide) (by decide) (by decide)).trans rfl
theorem jpV0 (nnn : Addr12) : Statement (.jpV0 nnn) := (keyOf_packNNN _ _ (by decide) (by decide) (by decide) (by decide)).trans rfl
theorem rnd (x : Reg) (kk : Byte) : Statement (.rnd x kk) := (keyOf_packXKK_plain _ _ _ (by decide) (by decide) (by decide) (by decide)).trans rfl
theorem drw (x y n : Fin 16) : Statement (.drw x y n) := (keyOf_packXYN_plain _ _ _ _ (by decide) (by decide) (by decide) (by decide)).trans rfl
theorem skp (x : Reg) : Statement (.skp x) := (keyOf_packXKK_byte _ _ _ (by decide)).trans rfl
theorem sknp (x : Reg) : Statement (.sknp x) := (keyOf_packXKK_byte _ _ _ (by decide)).trans rfl
theorem ldVxDT (x : Reg) : Statement (.ldVxDT x) := (keyOf_packXKK_byte _ _ _ (by decide)).trans rfl
theorem ldVxK (x : Reg) : Statement (.ldVxK x) := (keyOf_packXKK_byte _ _ _ (by decide)).trans rfl
theorem ldDTVx (x : Reg) : Statement (.ldDTVx x) := (keyOf_packXKK_byte _ _ _ (by decide)).trans rfl
theorem ldSTVx (x : Reg) : Statement (.ldSTVx x) := (keyOf_packXKK_byte _ _ _ (by decide)).trans rfl
theorem addIVx (x : Reg) : Statement (.addIVx x) := (keyOf_packXKK_byte _ _ _ (by decide)).trans rfl
theorem ldFVx (x : Reg) : Statement (.ldFVx x) := (keyOf_packXKK_byte _ _ _ (by decide)).trans rfl
theorem ldBVx (x : Reg) : Statement (.ldBVx x) := (keyOf_packXKK_byte _ _ _ (by decide)).trans rfl
theorem ldMemVx (x : Reg) : Statement (.ldMemVx x) := (keyOf_packXKK_byte _ _ _ (by decide)).trans rfl
theorem ldVxMem (x : Reg) : Statement (.ldVxMem x) := (keyOf_packXKK_byte _ _ _ (by decide)).trans rfl

end Sys2Proof.Laws.EncodedKey
end

