-- ==== Sys2Proof/Tests/Slice0.lean ====
section
/-! SUPPORT. Tests: words written out from the spec's encodings decode as the table says, one step of each instruction
gives what spec/95_test_vectors.md lists, and each statement with hypotheses has a state that meets them. -/

namespace Sys2Proof.Tests

open Sys2Proof Sys2Proof.Machine

/-! ## Helpers -/

/-- Reset, then a program loaded at 0x200. -/
def loaded (program : List Byte) : State :=
  { State.reset with mem := State.reset.mem.pokeAll 0x200 program, phase := .ready }

/-- A loaded machine with some general registers set. -/
def withRegs (program : List Byte) (rs : List (Reg × Byte)) : State :=
  rs.foldl (fun s p => s.setReg p.1 p.2) (loaded program)

/-- A view of the state after one step. -/
def after {α : Type} (s : State) (view : State → α) : Option α :=
  match step s with
  | .next t => some (view t)
  | .fault _ => none
  | .refused _ => none

/-- The state an instruction leaves, or the state itself where it leaves none. -/
def ran (i : Instr) (s : State) : State :=
  match exec i s with
  | .next t => t
  | .fault _ => s
  | .refused _ => s

/-- The bytes at `a`, `a + 1`, …, `n` of them. -/
def bytesAt (s : State) (a n : Nat) : List (Option Byte) := (List.range n).map (fun k => s.mem.read (a + k))

/-! ## WellFormed: the check refuses what it should -/

theorem test_wellFormed_refuses_ldVxVy_without_the_parameter : (Instr.ldVxVy 1 2).wellFormed false = false := by decide
theorem test_wellFormed_accepts_ldVxVy_with_the_parameter : (Instr.ldVxVy 1 2).wellFormed true = true := by decide
theorem test_wellFormed_accepts_others : (Instr.orVxVy 1 2).wellFormed false = true := by decide

/-! ## Decoding: words bit by bit from spec/30_encoding.md R82, R86, ignored fields not 0 -/

theorem test_decode_family_0 :
    (decodeWord true 0b0000_0011_1110_0000).toOption = some .cls ∧
    (decodeWord true 0b0000_1111_1110_1110).toOption = some .ret := by decide
theorem test_decode_family_1_2 :
    (decodeWord true 0b0001_1010_1011_1100).toOption = some (.jp 0xABC) ∧
    (decodeWord true 0b0010_0001_0010_0011).toOption = some (.call 0x123) := by decide
theorem test_decode_family_3_4_5 :
    (decodeWord true 0b0011_0011_0100_0010).toOption = some (.seVxKK 3 0x42) ∧
    (decodeWord true 0b0100_1111_1000_0001).toOption = some (.sneVxKK 15 0x81) ∧
    (decodeWord true 0b0101_0000_0001_0111).toOption = some (.seVxVy 0 1) := by decide
theorem test_decode_family_6_7 :
    (decodeWord true 0b0110_1010_0100_0010).toOption = some (.ldVxKK 10 0x42) ∧
    (decodeWord true 0b0111_0101_1111_1110).toOption = some (.addVxKK 5 0xFE) := by decide
theorem test_decode_family_8_logic :
    (decodeWord true 0b1000_0001_0010_0000).toOption = some (.ldVxVy 1 2) ∧
    (decodeWord true 0b1000_0001_0010_0001).toOption = some (.orVxVy 1 2) ∧
    (decodeWord true 0b1000_0011_1110_0010).toOption = some (.andVxVy 3 14) ∧
    (decodeWord true 0b1000_1100_0100_0011).toOption = some (.xorVxVy 12 4) := by decide
theorem test_decode_family_8_arithmetic :
    (decodeWord true 0b1000_0001_0010_0100).toOption = some (.addVxVy 1 2) ∧
    (decodeWord true 0b1000_0001_0010_0101).toOption = some (.subVxVy 1 2) ∧
    (decodeWord true 0b1000_0110_1011_0110).toOption = some (.shrVx 6) ∧
    (decodeWord true 0b1000_0001_0010_0111).toOption = some (.subnVxVy 1 2) ∧
    (decodeWord true 0b1000_1001_0101_1110).toOption = some (.shlVx 9) := by decide
theorem test_decode_family_9_A_B :
    (decodeWord true 0b1001_0010_0111_1001).toOption = some (.sneVxVy 2 7) ∧
    (decodeWord true 0b1010_0010_1111_0000).toOption = some (.ldI 0x2F0) ∧
    (decodeWord true 0b1011_1000_0000_0001).toOption = some (.jpV0 0x801) := by decide
theorem test_decode_family_C_D :
    (decodeWord true 0b1100_0001_0000_1111).toOption = some (.rnd 1 0x0F) ∧
    (decodeWord true 0b1101_0001_0010_0011).toOption = some (.drw 1 2 3) := by decide
theorem test_decode_family_E :
    (decodeWord true 0b1110_0101_1001_1110).toOption = some (.skp 5) ∧
    (decodeWord true 0b1110_0101_1010_0001).toOption = some (.sknp 5) := by decide
theorem test_decode_family_F_timers_keys :
    (decodeWord true 0b1111_0001_0000_0111).toOption = some (.ldVxDT 1) ∧
    (decodeWord true 0b1111_0011_0000_1010).toOption = some (.ldVxK 3) ∧
    (decodeWord true 0b1111_1000_0001_0101).toOption = some (.ldDTVx 8) ∧
    (decodeWord true 0b1111_0100_0001_1000).toOption = some (.ldSTVx 4) := by decide
theorem test_decode_family_F_index :
    (decodeWord true 0b1111_0111_0001_1110).toOption = some (.addIVx 7) ∧
    (decodeWord true 0b1111_1010_0010_1001).toOption = some (.ldFVx 10) ∧
    (decodeWord true 0b1111_0000_0011_0011).toOption = some (.ldBVx 0) ∧
    (decodeWord true 0b1111_0011_0101_0101).toOption = some (.ldMemVx 3) ∧
    (decodeWord true 0b1111_1111_0110_0101).toOption = some (.ldVxMem 15) := by decide
/-- R89: words with no row. -/
theorem test_decode_invalid :
    (decodeWord true 0x0123).toOption = none ∧ (decodeWord true 0x8008).toOption = none ∧
    (decodeWord true 0xE0FF).toOption = none ∧ (decodeWord true 0xF000).toOption = none ∧
    (decodeWord false 0x8120).toOption = none := by decide
theorem test_decode_table_word :
    decodeTableWord 16 0x8124 = some (.addVxVy 1 2) ∧ decodeTableWord 16 0x0123 = none := by decide
theorem test_encode_words :
    encode (.drw 1 2 3) = 0xD123 ∧ encode (.call 0x123) = 0x2123 ∧ encode (.shrVx 6) = 0x8606 ∧
    encode (.ldBVx 10) = 0xFA33 := by decide

/-! ## One step of each instruction; the expected values are those of spec/95_test_vectors.md L1, L2 -/

set_option maxRecDepth 20000

theorem test_cls : after { loaded [0x00, 0xE0] with fb := FrameBuffer.clear.toggle 3 5 }
    (fun t => (t.fb.cell 3 5, t.reg VF)) = some (false, 0) := by decide
theorem test_ret_empty : after (loaded [0x00, 0xEE]) (fun t => (t.clog, t.pc, t.sp)) =
    some ([⟨.stackUnderflow, some 0x200, some 0x00EE, 0⟩], 0x202, 15) := by decide
theorem test_ret_pops : after { loaded [0x00, 0xEE] with free := 15, stack := State.reset.stack.set 15 0x2AA }
    (fun t => (t.pc, t.sp)) = some (0x2AA, 15) := by decide
theorem test_jp : after (loaded [0x1F, 0xFF]) (fun t => (t.pc, t.sp)) = some (0xFFF, 15) := by decide
theorem test_call : after (loaded [0x22, 0x06]) (fun t => (t.pc, t.sp, t.stack[15])) = some (0x206, 14, 0x202) := by
  decide
theorem test_call_full : after { loaded [0x22, 0x00] with free := 0 } (fun t => (t.clog, t.pc, t.sp)) =
    some ([⟨.stackOverflow, some 0x200, some 0x2200, 16⟩], 0x202, -1) := by decide
theorem test_seVxKK : after (withRegs [0x30, 0x42] [(0, 0x42)]) (·.pc) = some 0x204 ∧
    after (withRegs [0x30, 0x42] [(0, 0x41)]) (·.pc) = some 0x202 := by decide
theorem test_sneVxKK : after (withRegs [0x40, 0x42] [(0, 0x42)]) (·.pc) = some 0x202 := by decide
theorem test_seVxVy : after (withRegs [0x50, 0x17] [(0, 1), (1, 1)]) (·.pc) = some 0x204 := by decide
theorem test_sneVxVy : after (withRegs [0x90, 0x10] [(0, 1), (1, 2)]) (·.pc) = some 0x204 := by decide
theorem test_jpV0 : after (withRegs [0xBF, 0xFF] [(0, 0xFF)]) (·.pc) = some 0x10FE := by decide
theorem test_ldVxKK : after (loaded [0x6A, 0x42]) (fun t => (t.reg 10, t.pc)) = some (0x42, 0x202) := by decide
theorem test_addVxKK : after (withRegs [0x70, 0xFF] [(0, 2)]) (fun t => (t.reg 0, t.reg VF)) = some (1, 0) := by decide
theorem test_addVxKK_vf : after (withRegs [0x7F, 0x01] [(15, 0xFF)]) (·.reg VF) = some 0 := by decide
theorem test_ldVxVy : after (withRegs [0x80, 0x10] [(1, 0x99)]) (·.reg 0) = some 0x99 := by decide
theorem test_ldVxVy_absent : after { loaded [0x80, 0x10] with has8xy0 := false } (fun t => (t.clog, t.pc)) =
    some ([⟨.invalidOpcode, some 0x200, some 0x8010, 0x8010⟩], 0x202) := by decide
theorem test_orVxVy : after (withRegs [0x80, 0x11] [(0, 0xF0), (1, 0x0F), (15, 0x55)])
    (fun t => (t.reg 0, t.reg VF)) = some (0xFF, 0x55) := by decide
theorem test_andVxVy : after (withRegs [0x80, 0x12] [(0, 0xF0), (1, 0x3C), (15, 0x55)])
    (fun t => (t.reg 0, t.reg VF)) = some (0x30, 0x55) := by decide
theorem test_xorVxVy : after (withRegs [0x80, 0x13] [(0, 0xFF), (1, 0x0F), (15, 0x55)])
    (fun t => (t.reg 0, t.reg VF)) = some (0xF0, 0x55) := by decide
theorem test_addVxVy : after (withRegs [0x80, 0x14] [(0, 0xFD), (1, 5)]) (fun t => (t.reg 0, t.reg VF)) =
    some (2, 1) := by decide
theorem test_addVxVy_vf : after (withRegs [0x8F, 0x04] [(15, 0x10), (0, 1)]) (·.reg VF) = some 0 := by decide
theorem test_subVxVy : after (withRegs [0x80, 0x15] [(0, 2), (1, 8)]) (fun t => (t.reg 0, t.reg VF)) =
    some (0xFA, 0) := by decide
theorem test_subVxVy_equal : after (withRegs [0x80, 0x15] [(0, 5), (1, 5)]) (fun t => (t.reg 0, t.reg VF)) =
    some (0, 1) := by decide
theorem test_shrVx : after (withRegs [0x80, 0x16] [(0, 3), (1, 0xFF)]) (fun t => (t.reg 0, t.reg 1, t.reg VF)) =
    some (1, 0xFF, 1) := by decide
theorem test_shrVx_vf : after (withRegs [0x8F, 0x06] [(15, 2)]) (·.reg VF) = some 0 := by decide
theorem test_subnVxVy : after (withRegs [0x80, 0x17] [(0, 2), (1, 8)]) (fun t => (t.reg 0, t.reg VF)) =
    some (6, 1) := by decide
theorem test_subnVxVy_borrow : after (withRegs [0x80, 0x17] [(0, 8), (1, 2)]) (fun t => (t.reg 0, t.reg VF)) =
    some (250, 0) := by decide
theorem test_shlVx : after (withRegs [0x80, 0x0E] [(0, 0x81)]) (fun t => (t.reg 0, t.reg VF)) = some (2, 1) := by decide
theorem test_shlVx_vf : after (withRegs [0x8F, 0x0E] [(15, 0x80)]) (·.reg VF) = some 1 := by decide
theorem test_rnd : after { loaded [0xC1, 0x0F] with rnd := [0xAB, 0x77] } (fun t => (t.reg 1, t.rnd)) =
    some (0x0B, [0x77]) := by decide
theorem test_ldI : after (loaded [0xA1, 0x23]) (·.i) = some 0x123 := by decide
theorem test_addIVx_wraps : after { withRegs [0xF0, 0x1E] [(0, 1)] with i := 0xFFFF } (fun t => (t.i, t.clog)) =
    some (0, []) := by decide
theorem test_addIVx_leaves_memory : after { withRegs [0xF0, 0x1E] [(0, 1)] with i := 0x0FFF }
    (fun t => (t.i, t.clog)) = some (0x1000, []) := by decide
theorem test_ldFVx : after (withRegs [0xF0, 0x29] [(0, 3)]) (·.i) = some 15 := by decide
theorem test_ldFVx_unmasked : after (withRegs [0xF0, 0x29] [(0, 0xFF)]) (·.i) = some 1275 := by decide
theorem test_ldBVx : after { withRegs [0xF0, 0x33] [(0, 0xA2)] with i := 0x300 }
    (fun t => (bytesAt t 0x300 3, t.i)) = some ([some 1, some 6, some 2], 0x300) := by decide
theorem test_ldBVx_edge : after { withRegs [0xF0, 0x33] [(0, 123)] with i := 0xFFE }
    (fun t => (bytesAt t 0xFFE 2, t.clog)) =
      some ([some 1, some 2], [⟨.outOfBoundsAddress, some 0x200, some 0xF033, 0x1000⟩]) := by decide
theorem test_ldMemVx : after { withRegs [0xF3, 0x55] [(0, 1), (1, 2), (2, 3), (3, 4)] with i := 0x300 }
    (fun t => (bytesAt t 0x300 5, t.i)) = some ([some 1, some 2, some 3, some 4, some 0], 0x300) := by decide
theorem test_ldMemVx_edge : after { withRegs [0xF3, 0x55] [(0, 1), (1, 2), (2, 3), (3, 4)] with i := 0xFFE }
    (fun t => (bytesAt t 0xFFE 2, t.clog)) =
      some ([some 1, some 2], [⟨.outOfBoundsAddress, some 0x200, some 0xF355, 0x1000⟩]) := by decide
theorem test_ldVxMem : after (loaded [0xFF, 0x65]) (fun t => t.v.toList) =
    some [0xF0, 0x90, 0x90, 0x90, 0xF0, 0x20, 0x60, 0x20, 0x20, 0x70, 0xF0, 0x10, 0xF0, 0x80, 0xF0, 0xF0] := by decide
theorem test_ldVxMem_edge : after { withRegs [0xF3, 0x65] [(0, 9), (1, 9), (2, 9), (3, 9)] with i := 0xFFE }
    (fun t => (t.reg 1, t.reg 2, t.clog)) =
      some (0, 9, [⟨.outOfBoundsAddress, some 0x200, some 0xF365, 0x1000⟩]) := by decide
theorem test_drw_clips : after { withRegs [0xD0, 0x11, 0xC3] [(0, 62)] with i := 0x202 }
    (fun t => (t.fb.cell 0 62, t.fb.cell 0 63, t.fb.cell 0 4, t.reg VF)) = some (true, true, false, 0) := by decide
theorem test_drw_latches_the_position : after { withRegs [0xDF, 0xF1, 0x80] [(15, 3)] with i := 0x202 }
    (fun t => (t.fb.cell 3 3, t.fb.cell 0 0, t.reg VF)) = some (true, false, 0) := by decide
theorem test_skp : after { withRegs [0xE5, 0x9E] [(5, 5)] with keys := State.reset.keys.set 5 true } (·.pc) =
    some 0x204 := by decide
theorem test_skp_code : after (withRegs [0xE0, 0x9E] [(0, 0x10)]) (fun t => (t.clog, t.pc)) =
    some ([⟨.outOfBoundsAddress, some 0x200, some 0xE09E, 0x10⟩], 0x202) := by decide
theorem test_sknp : after { withRegs [0xE5, 0xA1] [(5, 5)] with keys := State.reset.keys.set 5 true } (·.pc) =
    some 0x202 := by decide
theorem test_sknp_code : after (withRegs [0xE0, 0xA1] [(0, 0x10)]) (fun t => (t.clog, t.pc)) =
    some ([⟨.outOfBoundsAddress, some 0x200, some 0xE0A1, 0x10⟩], 0x202) := by decide
theorem test_ldVxK_blocks : after (loaded [0xF3, 0x0A]) (fun t => (t.phase, t.pc, t.frames)) =
    some (.waitKey 3, 0x202, 0) := by decide
theorem test_ldVxK_answer : after { loaded [] with phase := .waitKey 3, sched := [.keyAnswer 0xB] }
    (fun t => (t.reg 3, t.phase, t.frames)) = some (0x0B, .ready, 1) := by decide
theorem test_ldVxDT : after { loaded [0xF1, 0x07] with dt := ⟨7, true, false⟩ } (fun t => (t.reg 1, t.dt)) =
    some (7, ⟨7, true, false⟩) := by decide
theorem test_ldDTVx : after { withRegs [0xF0, 0x15] [(0, 2)] with dt := ⟨3, true, false⟩ } (·.dt) =
    some ⟨2, true, false⟩ := by decide
theorem test_ldDTVx_disabled : after { withRegs [0xF0, 0x15] [(0, 7)] with dt := ⟨0, false, true⟩ } (·.dt) =
    some ⟨7, false, true⟩ := by decide
theorem test_ldSTVx : after (withRegs [0xF0, 0x18] [(0, 2)]) (fun t => (t.st, t.tone)) =
    some (⟨2, true, false⟩, []) := by decide
theorem test_ldSTVx_zero : after { loaded [0xF0, 0x18] with st := ⟨2, true, false⟩ } (fun t => (t.st, t.tone)) =
    some (⟨0, false, false⟩, [.off]) := by decide

/-! ## The cycle, the timers, the Monitor and the load -/

theorem test_fetch_at_the_end : after { loaded [] with pc := 0xFFF } (fun t => (t.clog, t.pc)) =
    some ([⟨.outOfBoundsAddress, some 0xFFF, none, 0x1000⟩], 0xFFF) := by decide
theorem test_fetch_beyond_the_end : after { loaded [] with pc := 0x10FE } (fun t => (t.clog, t.pc)) =
    some ([⟨.outOfBoundsAddress, some 0x10FE, none, 0x10FE⟩], 0x10FE) := by decide
theorem test_tone_of_the_last_tick : after { loaded [] with st := ⟨1, true, false⟩, sched := [.tickST] }
    (fun t => (t.st, t.tone)) = some (⟨0, false, false⟩, [.on, .off]) := by decide
theorem test_breakpoint : after { loaded [0x60, 0x01] with mon := ⟨[0x200], false, false, false⟩ }
    (fun t => (t.pc, t.reg 0, t.mon.active)) = some (0x200, 0, true) := by decide
theorem test_step_command_at_a_breakpoint :
    after { loaded [0x60, 0x01] with mon := ⟨[0x200], true, false, false⟩, cmdq := [.step, .step] }
      (fun t => (t.pc, t.reg 0, t.mon)) = some (0x202, 1, ⟨[0x200], true, false, false⟩) := by decide
theorem test_load : after { State.reset with sched := [.load [0x12, 0x34]] }
    (fun t => (bytesAt t 0x200 3, t.phase)) = some ([some 0x12, some 0x34, some 0], .ready) := by decide
/-- R36, R271: a command is appended in a final phase too. -/
theorem test_command_after_the_end :
    after { loaded [] with phase := .ended, cmdq := [.pause], sched := [.command .step] } (fun t => (t.cmdq, t.phase)) =
      some ([.pause, .step], .ended) := by decide
/-- R240: when the run ends, the timers take no more steps. -/
theorem test_tick_after_the_end :
    after { loaded [] with phase := .ended, st := ⟨1, true, false⟩, sched := [.tickST] } (fun t => (t.st, t.tone)) =
      some (⟨1, true, false⟩, []) := by decide
/-- R270, R271: the byte the host supplies is the one RND draws. -/
theorem test_supplied_byte_is_drawn :
    (match Host.Core.run core 2 { loaded [0xC1, 0x0F] with sched := [.supplyRnd 0xAB] } with
     | .next t => some (t.reg 1, t.rnd)
     | .fault _ => none
     | .refused _ => none) = some (0x0B, []) := by decide
/-- From reset with the program in the schedule, the second step runs the first instruction (log 17). -/
theorem test_a_program_from_reset :
    (match Host.Core.run core 2 { State.reset with sched := [.load [0x6A, 0x42]] } with
     | .next t => some (t.reg 10, t.pc)
     | .fault _ => none
     | .refused _ => none) = some (0x42, 0x202) := by decide
theorem test_withFetchWord : after (State.reset.withFetchWord 16 0x6A42) (fun t => (t.reg 10, t.pc)) =
    some (0x42, 0x202) := by decide

/-! ## Each statement with hypotheses: a state and operands that meet them -/

/-- A cycle of a loaded machine is permitted. -/
theorem permitted_loaded (program : List Byte) : (loaded program).atPermitted := ⟨⟨.inl rfl, rfl, rfl⟩, rfl⟩

theorem witness_DecodeEncodeRoundTrip :
    (Instr.ldVxVy 15 15).wellFormed true = true ∧ (Instr.drw 15 15 15).wellFormed false = true := by decide
theorem witness_DecodedWordIsItsInstruction :
    decodeWord false 0x5017 = .ok (.seVxVy 0 1) ∧ (0x5017 : Word) ≠ encode (.seVxVy 0 1) := ⟨rfl, by decide⟩
theorem witness_InvalidWordsExactly :
    invalidWord true 0x0123 ∧ ¬ invalidWord true 0x8120 ∧ invalidWord false 0x8120 := by
  refine ⟨.inl (by decide), fun h => ?_, .inr (.inl (by decide))⟩
  rcases h with h | h | h | h
  · exact absurd h (by decide)
  · exact absurd h (by decide)
  · exact absurd h (by decide)
  · exact absurd h (by decide)
theorem witness_MemoryReadAfterWrite :
    (∃ m, State.reset.mem.write 4095 7 = some m ∧ m.read 4095 = some 7 ∧ m.read 4094 = some 0) ∧
    State.reset.mem.write 4096 7 = none := ⟨⟨_, rfl, rfl, rfl⟩, rfl⟩
/-- Two ways of writing the same bytes. -/
theorem witness_CanonicalMemoriesReadAlikeOnlyIfEqual :
    let m := (State.reset.mem.poke 0 1).poke 600 2
    let n := ((State.reset.mem.poke 600 2).poke 700 9).poke 700 0 |>.poke 0 1
    m.wf ∧ n.wf ∧ m.glyphs = n.glyphs ∧ ∀ a, m.read a = n.read a := by
  refine ⟨by decide, by decide, rfl, fun a => ?_⟩
  have e : (State.reset.mem.poke 0 1).poke 600 2 =
    (((State.reset.mem.poke 600 2).poke 700 9).poke 700 0).poke 0 1 := by decide
  exact congrArg (Memory.read · a) e

/-- An instruction that runs through, and one that blocks. -/
theorem witness_StepRunsTheDecodedInstruction :
    ((loaded [0x60, 0x42]).atPermitted ∧ (loaded [0x60, 0x42]).mem.read 0x200 = some 0x60 ∧
      (loaded [0x60, 0x42]).mem.read 0x201 = some 0x42 ∧
      decodeWord true ((0x60 : Byte) ++ (0x42 : Byte)) = .ok (.ldVxKK 0 0x42) ∧
      ∃ t, exec (.ldVxKK 0 0x42) ((loaded [0x60, 0x42]).checked.fetched 0x6042) = .next t ∧
        ∀ x, t.phase ≠ .waitKey x) ∧
    ((loaded [0xF3, 0x0A]).atPermitted ∧ (loaded [0xF3, 0x0A]).mem.read 0x200 = some 0xF3 ∧
      (loaded [0xF3, 0x0A]).mem.read 0x201 = some 0x0A ∧
      decodeWord true ((0xF3 : Byte) ++ (0x0A : Byte)) = .ok (.ldVxK 3) ∧
      ∃ t, exec (.ldVxK 3) ((loaded [0xF3, 0x0A]).checked.fetched 0xF30A) = .next t ∧ ∃ x, t.phase = .waitKey x) :=
  ⟨⟨permitted_loaded _, by decide, by decide, rfl, _, rfl, fun _ h => Phase.noConfusion h⟩,
   ⟨permitted_loaded _, by decide, by decide, rfl, _, rfl, _, rfl⟩⟩
theorem witness_FetchOutsideMemoryRaises :
    ({ loaded [] with pc := 4095 }.atPermitted ∧ 4095 ≤ { loaded [] with pc := 4095 }.pc.toNat) ∧
    ({ loaded [] with pc := 0xFFFF }.atPermitted ∧ 4095 ≤ { loaded [] with pc := 0xFFFF }.pc.toNat) :=
  ⟨⟨⟨⟨.inl rfl, rfl, rfl⟩, rfl⟩, by decide⟩, ⟨⟨⟨.inl rfl, rfl, rfl⟩, rfl⟩, by decide⟩⟩
/-- A word of no row, and 8xy0 on a machine without it. -/
theorem witness_InvalidWordIsReportedAndSkipped :
    ((loaded [0x01, 0x23]).atPermitted ∧ (loaded [0x01, 0x23]).mem.read 0x200 = some 0x01 ∧
      (loaded [0x01, 0x23]).mem.read 0x201 = some 0x23 ∧
      ∀ r ∈ dispatch, r.key = keyOf ((0x01 : Byte) ++ (0x23 : Byte)) →
        r.needs8xy0 = true ∧ (loaded [0x01, 0x23]).has8xy0 = false) ∧
    ∀ r ∈ dispatch, r.key = keyOf ((0x81 : Byte) ++ (0x20 : Byte)) →
      r.needs8xy0 = true ∧ { loaded [0x81, 0x20] with has8xy0 := false }.has8xy0 = false :=
  ⟨⟨permitted_loaded _, by decide, by decide, by decide⟩, by decide⟩
theorem witness_UnpermittedCycleRunsNoInstruction :
    let s := { loaded [] with mon := ⟨[], true, false, false⟩ }
    s.atCycle ∧ (s.monAtCheck.permit s.pc).1 = false := ⟨⟨.inl rfl, rfl, rfl⟩, rfl⟩
/-- The last cycle, and after the end the CPU's move and a tick of a timer that still has its running flag. -/
theorem witness_LivenessEndsTheRun :
    (let s := { loaded [] with alive := false, sched := [.cpu, .tickDT] }
     s.cpuNext ∧ s.phase = .ready ∧ s.alive = false) ∧
    (let s := { loaded [] with phase := .ended }
     s.phase = .ended ∧ s.cpuNext) ∧
    (let s := { loaded [] with phase := .ended, dt := ⟨5, true, false⟩, sched := [.tickDT] }
     s.phase = .ended ∧ (s.sched = .tickDT :: [] ∨ s.sched = .tickST :: [])) :=
  ⟨⟨.inr ⟨_, rfl⟩, rfl, rfl⟩, ⟨rfl, .inl rfl⟩, rfl, .inl rfl⟩
/-- The waiting step, and the answer with the highest key. -/
theorem witness_KeyAnswerCompletesTheWait :
    ({ loaded [] with phase := .waitKey 15 }.phase = .waitKey 15 ∧ { loaded [] with phase := .waitKey 15 }.cpuNext) ∧
    { loaded [] with phase := .waitKey 15, sched := [.keyAnswer 15] }.sched = .keyAnswer 15 :: [] :=
  ⟨⟨rfl, .inl rfl⟩, rfl⟩

/-- An empty stack, the last free entry, and a full stack. -/
theorem witness_CallPushesTheReturnAddress :
    -1 < (loaded []).sp ∧ { loaded [] with free := 1 }.sp = 0 ∧ { loaded [] with free := 0 }.sp = -1 := by decide
/-- A full stack, one entry in use, and an empty stack. -/
theorem witness_RetPopsTheReturnAddress :
    { loaded [] with free := 0 }.sp = -1 ∧ { loaded [] with free := 15 }.sp = 14 ∧ (loaded []).sp = 15 := by decide
theorem witness_CallThenRetReturns :
    let s := { loaded [] with free := 1 }
    (-1 : Int) < s.sp ∧ ∃ t, exec (.call 0x300) s = .next t ∧ (t.setReg 0 7).stack = t.stack ∧ (t.setReg 0 7).free = t.free :=
  ⟨by decide, _, rfl, rfl, rfl⟩

/-- Sums of 255 and 256, and VF as the destination and not. -/
theorem witness_AddSetsCarry :
    (0 : Reg) ≠ VF ∧ (ran (.addVxVy 0 1) (withRegs [] [(0, 0xFE), (1, 1)])).reg VF = 0 ∧
    (ran (.addVxVy 0 1) (withRegs [] [(0, 0xFF), (1, 1)])).reg VF = 1 ∧
    (ran (.addVxVy 15 1) (withRegs [] [(15, 0xFF), (1, 1)])).reg VF = 1 := by decide
theorem witness_SubtractSetsNotBorrow :
    (0 : Reg) ≠ VF ∧ (ran (.subVxVy 0 1) (withRegs [] [(0, 5), (1, 5)])).reg VF = 1 ∧
    (ran (.subVxVy 0 1) (withRegs [] [(0, 4), (1, 5)])).reg VF = 0 ∧
    (ran (.subnVxVy 15 1) (withRegs [] [(15, 5), (1, 4)])).reg VF = 0 := by decide
theorem witness_ShiftsSetTheBitShiftedOut :
    (0 : Reg) ≠ VF ∧ (ran (.shrVx 0) (withRegs [] [(0, 0xFF)])).reg 0 = 0x7F ∧
    (ran (.shlVx 0) (withRegs [] [(0, 0xFF)])).reg 0 = 0xFE := by decide
theorem witness_RandomByteIsMasked :
    { loaded [] with rnd := [0xAB] }.rnd = 0xAB :: [] ∧ (loaded []).rnd = [] ∧
    (0x0F : Byte).getLsbD 7 = false := by decide

/-- The last byte of memory, the first address beyond it, and the addresses beside the block. -/
theorem witness_BlockStore :
    let s := { loaded [] with i := 4094 }
    (1 : Reg) ≤ 1 ∧ s.i.toNat + (1 : Reg).val < 4096 ∧ 4093 < s.i.toNat ∧ s.i.toNat + (1 : Reg).val < 4096 ∧
      ¬ ({ loaded [] with i := 4095 }.i.toNat + (1 : Reg).val < 4096) := by decide
theorem witness_BlockLoad :
    let s := { loaded [] with i := 4095 }
    (0 : Reg) ≤ 1 ∧ s.i.toNat + (0 : Reg).val < 4096 ∧ (1 : Reg) ≤ 1 ∧ ¬ (s.i.toNat + (1 : Reg).val < 4096) := by
  decide
/-- The block ends at the last byte of memory; the load runs in a state whose registers were cleared. -/
theorem witness_BlockStoreThenLoadRestores :
    let s := { withRegs [] [(0, 1), (15, 2)] with i := 4080 }
    s.i.toNat + (15 : Reg).val < 4096 ∧ ∃ t, exec (.ldMemVx 15) s = .next t ∧
      (t.setReg 0 0).mem = t.mem ∧ (t.setReg 0 0).i = t.i := ⟨by decide, _, rfl, rfl, rfl⟩
theorem witness_StoredCodeIsFetched :
    let s := { withRegs [] [(0, 0x12), (1, 0x34)] with i := 4094, pc := 4094 }
    1 ≤ (1 : Reg).val ∧ s.i = s.pc ∧ s.pc.toNat + 1 < 4096 ∧ ∃ t, exec (.ldMemVx 1) s = .next t :=
  ⟨by decide, rfl, by decide, _, rfl⟩

/-- A set sprite bit on a set cell, and a sprite on a clear screen. -/
theorem witness_DrawIsClippedXor :
    (let s := { loaded [0x80] with i := 0x200, fb := FrameBuffer.clear.toggle 0 0 }
     s.fb.cell 0 0 = true ∧ s.spriteBit 0 0 (s.bytesInMemory 1) 0 0 = true) ∧
    ∀ r < 32, ∀ c < 64, (loaded [0x80]).fb.cell r c = true →
      (loaded [0x80]).spriteBit 0 0 ((loaded [0x80]).bytesInMemory 1) r c = false := by
  refine ⟨by decide, fun r hr c hc h => ?_⟩
  have e : (loaded [0x80]).fb.cell r c = false := by
    simp [FrameBuffer.cell, hr, hc, loaded, State.reset, State.resetWith]
  rw [e] at h
  cases h
theorem witness_DrawTwiceRestoresTheScreen :
    (0 : Reg) ≠ VF ∧ (1 : Reg) ≠ VF ∧ ∃ t, exec (.drw 0 1 5) (loaded []) = .next t := ⟨by decide, by decide, _, rfl⟩
/-- The highest key code, and the lowest code that is none. -/
theorem witness_KeySkips :
    ((withRegs [] [(0, 15)]).reg 0).toNat = (15 : Fin 16).val ∧ 16 ≤ ((withRegs [] [(0, 16)]).reg 0).toNat := by decide

/-- A running timer, its last tick and none of its ticks, with moves left over. -/
theorem witness_DelayTimerCountsDown :
    let s := { loaded [] with dt := ⟨2, true, false⟩, sched := [.tickDT, .tickDT, .cpu] }
    s.phase ≠ .ended ∧ s.dt.running = true ∧ s.dt.ok ∧ 2 ≤ s.dt.value.toNat ∧
      s.sched = List.replicate 2 .tickDT ++ [.cpu] ∧ s.sched = List.replicate 0 .tickDT ++ s.sched :=
  ⟨by decide, rfl, fun _ => ⟨by decide, rfl⟩, by decide, rfl, rfl⟩
theorem witness_SoundTimerTones :
    let s := { loaded [] with st := ⟨1, true, false⟩, phase := .waitKey 0, sched := [.tickST, .tickST, .cpu] }
    s.phase ≠ .ended ∧ s.st.running = true ∧ s.st.ok ∧
      s.sched = List.replicate (s.st.value.toNat + 1) .tickST ++ [.cpu] :=
  ⟨by decide, rfl, fun _ => ⟨by decide, rfl⟩, rfl⟩

/-- Paused; Running at a breakpoint; Running elsewhere; Running at a guarded breakpoint. -/
theorem witness_PermissionCheck :
    (Monitor.mk [] true false false).active = true ∧
    ((Monitor.mk [5] false false false).active = false ∧ (5 : Word) ∈ (Monitor.mk [5] false false false).bp ∧
      (Monitor.mk [5] false false false).skipOnce = false) ∧
    (6 : Word) ∉ (Monitor.mk [5] false false false).bp ∧ (Monitor.mk [5] false false true).skipOnce = true := by decide
theorem witness_DebuggerCommands :
    (DbgCommand.setBreakpoint 5 = .setBreakpoint 5 ∨ DbgCommand.setBreakpoint 5 = .clearBreakpoint 5) ∧
    ((Monitor.mk [] false false false).apply (.setBreakpoint 5)).breakAt 5 = true := by decide
theorem witness_BreakpointStopsBeforeTheInstruction :
    let s := { loaded [0x60, 0x01] with cmdq := [.setBreakpoint 0x200] }
    s.atCycle ∧ s.monAtCheck.active = false ∧ s.monAtCheck.breakAt s.pc = true ∧ s.monAtCheck.skipOnce = false :=
  ⟨⟨.inl rfl, rfl, rfl⟩, rfl, rfl, rfl⟩
/-- A Paused machine with a Step queued, before an instruction that ends its cycle and before one that blocks. -/
theorem witness_StepCommandRunsOneCycle :
    (let s := { loaded [0x60, 0x01] with mon := ⟨[0x200], true, false, false⟩, cmdq := [.step] }
     s.atCycle ∧ s.mon.active = true ∧ s.cmdq = [.step] ∧ after s (·.phase) = some .ready) ∧
    (let s := { loaded [0xF3, 0x0A] with mon := ⟨[], true, false, false⟩, cmdq := [.step] }
     s.atCycle ∧ s.mon.active = true ∧ s.cmdq = [.step] ∧ after s (·.phase) = some (.waitKey 3)) :=
  ⟨⟨⟨.inl rfl, rfl, rfl⟩, rfl, rfl, by decide⟩, ⟨⟨.inl rfl, rfl, rfl⟩, rfl, rfl, by decide⟩⟩
theorem witness_ProgramCannotObserveTheMonitor : ∃ t, exec .ret (loaded []) = .next t := ⟨_, rfl⟩

theorem witness_ResetState : State.reset = State.resetWith Config.default := rfl
/-- The longest program that fits. -/
theorem witness_LoadPlacesTheProgram :
    let s := { State.reset with sched := [.load (List.replicate 3584 0xAA), .cpu] }
    s.phase = .idle ∧ (List.replicate 3584 (0xAA : Byte)).length ≤ 3584 ∧
      s.sched = .load (List.replicate 3584 0xAA) :: [.cpu] := ⟨rfl, by rw [List.length_replicate], rfl⟩
/-- The shortest program that does not. -/
theorem witness_OversizedProgramIsFatal :
    let s := { State.reset with sched := [.load (List.replicate 3585 0xAA)] }
    s.phase = .idle ∧ 3584 < (List.replicate 3585 (0xAA : Byte)).length ∧
      s.sched = .load (List.replicate 3585 0xAA) :: [] ∧ { s with phase := .loadFailed, sched := [] }.cpuNext :=
  ⟨rfl, by rw [List.length_replicate]; decide, rfl, .inl rfl⟩

/-- The addresses a store may write: three for LD B,Vx, x + 1 for LD [I],Vx, and the byte after them is none of them. -/
theorem witness_EveryInstructionKeepsItsFrame :
    let s := { loaded [] with i := 0x300 }
    (writesOf s (.ldBVx 7)).mem = [0x300, 0x301, 0x302] ∧ (writesOf s (.ldMemVx 1)).mem = [0x300, 0x301] ∧
      0x302 ∉ (writesOf s (.ldMemVx 1)).mem := by decide
/-- A state with every invariant, a store queued to run. -/
theorem witness_StepKeepsMemoryCanonical :
    (loaded [0xF0, 0x55]).mem.wf ∧ ∃ t, step (loaded [0xF0, 0x55]) = .next t := ⟨by decide, _, rfl⟩
theorem witness_StepKeepsTimersAndMonitorConsistent :
    let s := { loaded [0xF0, 0x15] with dt := ⟨5, true, false⟩, mon := ⟨[5, 9], true, true, false⟩ }
    s.Consistent ∧ ∃ t, step s = .next t :=
  ⟨⟨fun _ => ⟨by decide, rfl⟩, fun h => Bool.noConfusion h, fun h => Bool.noConfusion h, by decide⟩, _, rfl⟩
theorem witness_StepKeepsPcBounded :
    let s := { loaded [0x22, 0x00] with stack := Vector.replicate 16 0x1000 }
    s.PcBounded ∧ ∃ t, step s = .next t := ⟨⟨by decide, by decide⟩, _, rfl⟩
theorem witness_StepKeepsTheConfiguration : ∃ t, step (loaded [0xF0, 0x15]) = .next t := ⟨_, rfl⟩
theorem witness_StepReportsAtMostOneCondition :
    after (loaded [0x00, 0xEE]) (·.clog.length) = some 1 := by decide
/-- Each way the machine stops, and a command in a final phase, which it takes. -/
theorem witness_StepStopsOnlyWhereTheSpecDoes :
    step { loaded [] with phase := .ended } = .fault .runEnded ∧
    step { loaded [] with phase := .loadFailed } = .fault .loadFailed ∧
    step { loaded [] with sched := [.load []] } = .refused .loadOutsideIdle ∧
    step { loaded [] with sched := [.keyAnswer 0] } = .refused .keyNotRequested ∧
    after { loaded [] with phase := .ended, sched := [.command .step] } (·.cmdq) = some [.step] :=
  ⟨rfl, rfl, rfl, rfl, rfl⟩
theorem witness_OtherAgentsLeaveTheCpuAlone :
    let s := { loaded [] with dt := ⟨5, true, false⟩, sched := [.tickDT] }
    s.sched = .tickDT :: [] ∧ Move.tickDT ≠ .cpu ∧ (∀ bytes, Move.tickDT ≠ .load bytes) ∧
      (∀ k, Move.tickDT ≠ .keyAnswer k) ∧ ∃ t, step s = .next t :=
  ⟨rfl, by decide, fun _ h => Move.noConfusion h, fun _ h => Move.noConfusion h, _, rfl⟩
/-- Each of the host's liberties, in a final phase. -/
theorem witness_HostMovesAtAnyTime :
    { loaded [] with phase := .ended, sched := [.setAlive false] }.sched = .setAlive false :: [] ∧
    { loaded [] with phase := .loadFailed, sched := [.setKeys State.reset.keys] }.sched =
      .setKeys State.reset.keys :: [] ∧
    { loaded [] with phase := .ended, sched := [.supplyRnd 7] }.sched = .supplyRnd 7 :: [] ∧
    { loaded [] with phase := .loadFailed, sched := [.command .pause] }.sched = .command .pause :: [] :=
  ⟨rfl, rfl, rfl, rfl⟩
theorem witness_FinalPhasesAreFinal :
    (let s := { loaded [] with phase := .ended, st := ⟨1, true, false⟩, sched := [.tickST] }
     (s.phase = .ended ∨ s.phase = .loadFailed) ∧ ∃ t, step s = .next t) ∧
    (let s := { loaded [] with phase := .loadFailed, sched := [.command .pause] }
     (s.phase = .ended ∨ s.phase = .loadFailed) ∧ ∃ t, step s = .next t) :=
  ⟨⟨.inl rfl, _, rfl⟩, .inr rfl, _, rfl⟩

end Sys2Proof.Tests
end

namespace Sys2Proof.Machine

variable (s : State)

/-! ## What the shared operations leave of the surroundings -/

theorem SameSurroundings.refl : SameSurroundings s s := by constructor <;> rfl

theorem SameSurroundings.trans {s t u : State} (h : SameSurroundings s t) (h' : SameSurroundings t u) :
    SameSurroundings s u where
  key := h'.key.trans h.key
  mon := h'.mon.trans h.mon
  cmdq := h'.cmdq.trans h.cmdq
  has8xy0 := h'.has8xy0.trans h.has8xy0
  glyphs := h'.glyphs.trans h.glyphs
  dtDisabled := h'.dtDisabled.trans h.dtDisabled
  stDisabled := h'.stDisabled.trans h.stDisabled
  alive := h'.alive.trans h.alive
  keys := h'.keys.trans h.keys
  frame := h'.frame.trans h.frame
  frames := h'.frames.trans h.frames
  ipc := h'.ipc.trans h.ipc
  op := h'.op.trans h.op
  sched := h'.sched.trans h.sched

theorem State.setReg_surroundings (x : Reg) (b : Byte) : SameSurroundings s (s.setReg x b) := by
  constructor <;> rfl

theorem State.setResultFlag_surroundings (x : Reg) (r f : Byte) : SameSurroundings s (s.setResultFlag x r f) :=
  (s.setReg_surroundings x r).trans ((s.setReg x r).setReg_surroundings VF f)

theorem State.raise_surroundings (c : Cond) (n : Nat) : SameSurroundings s (s.raise c n) := by
  constructor <;> rfl

theorem State.jump_surroundings (a : Word) : SameSurroundings s (s.jump a) := by
  constructor <;> rfl

theorem State.skipIf_surroundings (c : Bool) : SameSurroundings s (s.skipIf c) := by
  constructor <;> simp

theorem State.setDT_surroundings (b : Byte) : SameSurroundings s (s.setDT b) := by
  constructor <;> simp

theorem State.setST_surroundings (b : Byte) : SameSurroundings s (s.setST b) := by
  constructor <;> simp

theorem State.drawByte_surroundings : SameSurroundings s s.drawByte.2 := by
  rcases s.drawByte_cases with ⟨_, _, _, e⟩ | ⟨_, e⟩
  · rw [e]; constructor <;> rfl
  · rw [e]; constructor <;> rfl

theorem State.storeIndexed_surroundings (k : Nat) (bs : List Byte) : SameSurroundings s (s.storeIndexed k bs) := by
  constructor <;> simp [State.glyphs_storeIndexed]

theorem State.loadIndexed_surroundings (k n : Nat) : SameSurroundings s (s.loadIndexed k n) := by
  constructor <;> simp

theorem State.drawRows_surroundings (vx vy r n : Nat) : SameSurroundings s (s.drawRows vx vy r n) := by
  constructor <;> simp

/-! ## What an instruction leaves of the surroundings -/

/-- RET pops and jumps, or raises (spec/41_control_flow.md R120). -/
theorem execRet_surroundings : ∃ t, execRet s = .next t ∧ SameSurroundings s t := by
  unfold execRet
  rcases s.pop_cases with ⟨_, e⟩ | ⟨_, e⟩
  · rw [e]; exact ⟨_, rfl, s.raise_surroundings _ _⟩
  · rw [e]; exact ⟨_, rfl, by constructor <;> rfl⟩

/-- CALL pushes and jumps, or raises (spec/41_control_flow.md R122). -/
theorem execCall_surroundings (nnn : Addr12) : ∃ t, execCall nnn s = .next t ∧ SameSurroundings s t := by
  unfold execCall
  rcases s.push_cases s.pc with ⟨_, e⟩ | ⟨_, e⟩
  · rw [e]; exact ⟨_, rfl, s.raise_surroundings _ _⟩
  · rw [e]; exact ⟨_, rfl, by constructor <;> rfl⟩

/-- SKP skips by the key's state, or raises (spec/44_display_input.md R194). -/
theorem execSkp_surroundings (x : Reg) : ∃ t, execSkp x s = .next t ∧ SameSurroundings s t := by
  unfold execSkp
  dsimp only
  cases s.keyAt (s.reg x).toNat with
  | none => exact ⟨_, rfl, s.raise_surroundings _ _⟩
  | some pressed => exact ⟨_, rfl, s.skipIf_surroundings _⟩

/-- SKNP skips by the key's state, or raises (spec/44_display_input.md R195). -/
theorem execSknp_surroundings (x : Reg) : ∃ t, execSknp x s = .next t ∧ SameSurroundings s t := by
  unfold execSknp
  dsimp only
  cases s.keyAt (s.reg x).toNat with
  | none => exact ⟨_, rfl, s.raise_surroundings _ _⟩
  | some pressed => exact ⟨_, rfl, s.skipIf_surroundings _⟩

/-- Every instruction answers a next state and writes nothing of the surroundings, as its shared operations do not. -/
theorem exec_surroundings (i : Instr) : ∃ t, exec i s = .next t ∧ SameSurroundings s t := by
  cases i with
  | ret => exact execRet_surroundings s
  | call nnn => exact execCall_surroundings s nnn
  | skp x => exact execSkp_surroundings s x
  | sknp x => exact execSknp_surroundings s x
  | jp | jpV0 => exact ⟨_, rfl, s.jump_surroundings _⟩
  | seVxKK | sneVxKK | seVxVy | sneVxVy => exact ⟨_, rfl, s.skipIf_surroundings _⟩
  | ldVxKK | addVxKK | ldVxVy | orVxVy | andVxVy | xorVxVy | ldVxDT => exact ⟨_, rfl, s.setReg_surroundings _ _⟩
  | addVxVy | subVxVy | shrVx | subnVxVy | shlVx => exact ⟨_, rfl, s.setResultFlag_surroundings _ _ _⟩
  | rnd => exact ⟨_, rfl, s.drawByte_surroundings.trans (State.setReg_surroundings _ _ _)⟩
  | drw => exact ⟨_, rfl, (s.setReg_surroundings _ _).trans (State.drawRows_surroundings _ _ _ _ _)⟩
  | ldDTVx => exact ⟨_, rfl, s.setDT_surroundings _⟩
  | ldSTVx => exact ⟨_, rfl, s.setST_surroundings _⟩
  | ldBVx | ldMemVx => exact ⟨_, rfl, s.storeIndexed_surroundings _ _⟩
  | ldVxMem => exact ⟨_, rfl, s.loadIndexed_surroundings _ _⟩
  | cls | ldI | addIVx | ldFVx | ldVxK => exact ⟨_, rfl, by constructor <;> rfl⟩

/-! ## The configuration a state holds -/

/-- The configuration of the run (spec/00_scope.md R11), read back from the state. -/
def State.config (s : State) : Config where
  glyphTable := s.mem.glyphs
  has8xy0 := s.has8xy0
  dtDisabled := s.dt.disabled
  stDisabled := s.st.disabled

theorem State.config_resetWith (c : Config) : (State.resetWith c).config = c := rfl

theorem SameSurroundings.config_eq {s t : State} (h : SameSurroundings s t) : t.config = s.config := by
  simp only [State.config, h.glyphs, h.has8xy0, h.dtDisabled, h.stDisabled]

theorem State.config_sched (moves : List Move) : State.config { s with sched := moves } = s.config := rfl

theorem State.config_afterCheck : s.afterCheck.config = s.config := rfl

theorem State.config_fetched (w : Word) : (s.latchIpc.advance w).config = s.config := rfl

theorem State.config_endCycle : s.endCycle.config = s.config := by
  rcases s.endCycle_cases with ⟨_, e⟩ | ⟨_, e⟩
  · rw [e]
  · rw [e]; rfl

theorem State.config_tickDT : s.tickDT.config = s.config := by
  simp [State.config, apply_ite Timer.disabled]

theorem State.config_tickST : s.tickST.config = s.config := by
  simp [State.config, apply_ite Timer.disabled]

theorem State.config_unlessEnded {u : State} (h : u.config = s.config) : (s.unlessEnded u).config = s.config := by
  rcases s.unlessEnded_cases u with ⟨_, e⟩ | ⟨_, e⟩
  · rw [e]
  · rw [e, h]

/-! ## The configuration along a step -/

variable {s} {t : State}

theorem config_eq_of_exec {i : Instr} (h : exec i s = .next t) : t.config = s.config := by
  obtain ⟨u, e, hu⟩ := exec_surroundings s i
  cases e.symm.trans h
  exact hu.config_eq

theorem config_eq_of_fetchExecute (h : s.fetchExecute = .next t) : t.config = s.config := by
  rcases s.fetchExecute_cases with ⟨_, _, e⟩ | ⟨_, _, e⟩ | ⟨_, _, _, _, e⟩
  · cases e.symm.trans h; rfl
  · cases e.symm.trans h; rfl
  · exact (config_eq_of_exec (e.symm.trans h)).trans (State.config_fetched s _)

theorem config_eq_of_cycle (h : s.cycle = .next t) : t.config = s.config := by
  rcases s.cycle_cases with ⟨_, e⟩ | ⟨_, _, e⟩ | ⟨_, _, e⟩
  · cases e.symm.trans h; rfl
  · obtain ⟨u, hu, rfl⟩ := endCycleOf_next (e.symm.trans h)
    exact (u.config_endCycle.trans (config_eq_of_fetchExecute hu)).trans s.config_afterCheck
  · cases e.symm.trans h; rfl

theorem config_eq_of_cpuStep (h : s.cpuStep = .next t) : t.config = s.config := by
  rcases s.cpuStep_cases with ⟨_, e⟩ | ⟨_, e⟩ | ⟨_, e⟩ | ⟨_, e⟩
  · exact config_eq_of_cycle (e.symm.trans h)
  · cases e.symm.trans h; rfl
  · cases e.symm.trans h
  · cases e.symm.trans h

theorem config_eq_of_answerKey {k : Fin 16} (h : s.answerKey k = .next t) : t.config = s.config := by
  rcases s.answerKey_cases k with ⟨_, _, e⟩ | ⟨_, e⟩
  · cases e.symm.trans h; rfl
  · cases e.symm.trans h

theorem config_eq_of_loadProgram {bytes : List Byte} (h : s.loadProgram bytes = .next t) : t.config = s.config := by
  rcases s.loadProgram_cases bytes with ⟨_, _, e⟩ | ⟨_, _, e⟩ | ⟨_, e⟩
  · cases e.symm.trans h; rfl
  · cases e.symm.trans h; simp [State.config]
  · cases e.symm.trans h

/-- No agent's move changes the configuration. -/
theorem config_eq_of_runMove {m : Move} (h : s.runMove m = .next t) : t.config = s.config := by
  cases m with
  | cpu => exact config_eq_of_cpuStep h
  | tickDT => cases h; exact s.config_unlessEnded s.config_tickDT
  | tickST => cases h; exact s.config_unlessEnded s.config_tickST
  | keyAnswer k => exact config_eq_of_answerKey h
  | load bytes => exact config_eq_of_loadProgram h
  | setAlive | setKeys | supplyRnd | command => cases h; rfl

theorem config_eq_of_step (h : step s = .next t) : t.config = s.config := by
  rcases step_cases s with ⟨_, e⟩ | ⟨_, _, _, e⟩
  · exact config_eq_of_cpuStep (e.symm.trans h)
  · exact (config_eq_of_runMove (e.symm.trans h)).trans (s.config_sched _)

/-- Settles O55: every agent's move keeps the configuration the state holds. -/
theorem stepKeepsTheConfiguration : Obligations.StepKeepsTheConfiguration := by
  unfold Obligations.StepKeepsTheConfiguration
  intro s t h
  simpa only [State.config, Config.mk.injEq] using config_eq_of_step h

end Sys2Proof.Machine

namespace Sys2Proof.Machine

variable (s : State)

/-! ## What the shared operations may write

Each lemma names the permissions the operation needs of `w`, so the frames of an instruction's operations compose at
the one `Writes` of its row. -/

theorem Frame.refl (w : Writes) : Frame w s s where
  regs _ _ := rfl
  pc _ := rfl
  i _ := rfl
  mem _ _ := rfl
  stack _ := ⟨rfl, rfl⟩
  dt _ := rfl
  st _ := ⟨rfl, rfl⟩
  fb _ := rfl
  phase _ := rfl
  clog _ := rfl
  rnd _ := ⟨rfl, rfl⟩
  surroundings := SameSurroundings.refl s

theorem Frame.trans {w : Writes} {s t u : State} (h : Frame w s t) (h' : Frame w t u) : Frame w s u where
  regs r hr := (h'.regs r hr).trans (h.regs r hr)
  pc e := (h'.pc e).trans (h.pc e)
  i e := (h'.i e).trans (h.i e)
  mem a ha := (h'.mem a ha).trans (h.mem a ha)
  stack e := ⟨(h'.stack e).1.trans (h.stack e).1, (h'.stack e).2.trans (h.stack e).2⟩
  dt e := (h'.dt e).trans (h.dt e)
  st e := ⟨(h'.st e).1.trans (h.st e).1, (h'.st e).2.trans (h.st e).2⟩
  fb e := (h'.fb e).trans (h.fb e)
  phase e := (h'.phase e).trans (h.phase e)
  clog e := (h'.clog e).trans (h.clog e)
  rnd e := ⟨(h'.rnd e).1.trans (h.rnd e).1, (h'.rnd e).2.trans (h.rnd e).2⟩
  surroundings := h.surroundings.trans h'.surroundings

/-- A part whose permission is `true` has nothing to keep. -/
theorem permitted_elim {permission : Bool} {P : Prop} (h : permission = true) (e : permission = false) : P :=
  absurd h (ne_true_of_eq_false e)

variable {w : Writes}

theorem Frame.setReg (x : Reg) (b : Byte) (hx : x ∈ w.regs) : Frame w s (s.setReg x b) :=
  { Frame.refl s w with
    regs := fun r hr => s.reg_setReg_of_ne x r b fun e => hr (e ▸ hx)
    surroundings := s.setReg_surroundings x b }

theorem Frame.setResultFlag (x : Reg) (r f : Byte) (hx : x ∈ w.regs) (hf : VF ∈ w.regs) :
    Frame w s (s.setResultFlag x r f) :=
  (Frame.setReg s x r hx).trans (Frame.setReg (s.setReg x r) VF f hf)

theorem Frame.raise (c : Cond) (n : Nat) (h : w.clog = true) : Frame w s (s.raise c n) :=
  { Frame.refl s w with
    clog := permitted_elim h
    surroundings := s.raise_surroundings c n }

theorem Frame.jump (a : Word) (h : w.pc = true) : Frame w s (s.jump a) :=
  { Frame.refl s w with
    pc := permitted_elim h
    surroundings := s.jump_surroundings a }

theorem Frame.skipIf (c : Bool) (h : w.pc = true) : Frame w s (s.skipIf c) := by
  cases c with
  | false => exact Frame.refl s w
  | true => exact Frame.jump s (s.pc + 2) h

theorem Frame.setStack (entries : Vector Word 16) (n : Fin 17) (h : w.stack = true) :
    Frame w s { s with stack := entries, free := n } :=
  { Frame.refl s w with
    stack := permitted_elim h
    surroundings := by constructor <;> rfl }

theorem Frame.setDT (b : Byte) (h : w.dt = true) : Frame w s (s.setDT b) :=
  { Frame.refl s w with
    dt := permitted_elim h
    surroundings := s.setDT_surroundings b }

theorem Frame.setST (b : Byte) (h : w.st = true) : Frame w s (s.setST b) :=
  { Frame.refl s w with
    st := permitted_elim h
    surroundings := s.setST_surroundings b }

theorem Frame.setI (a : Word) (h : w.i = true) : Frame w s { s with i := a } :=
  { Frame.refl s w with
    i := permitted_elim h
    surroundings := by constructor <;> rfl }

theorem Frame.setFB (f : FrameBuffer) (h : w.fb = true) : Frame w s { s with fb := f } :=
  { Frame.refl s w with
    fb := permitted_elim h
    surroundings := by constructor <;> rfl }

theorem Frame.setPhase (p : Phase) (h : w.phase = true) : Frame w s { s with phase := p } :=
  { Frame.refl s w with
    phase := permitted_elim h
    surroundings := by constructor <;> rfl }

theorem Frame.setRnd (bytes : List Byte) (n : Nat) (h : w.rnd = true) :
    Frame w s { s with rnd := bytes, draws := n } :=
  { Frame.refl s w with
    rnd := permitted_elim h
    surroundings := by constructor <;> rfl }

/-- A draw takes a supplied byte or counts a free one (spec/42_alu.md R152). -/
theorem Frame.drawByte (h : w.rnd = true) : Frame w s s.drawByte.2 := by
  rcases s.drawByte_cases with ⟨_, rest, _, e⟩ | ⟨_, e⟩
  · rw [e]; exact Frame.setRnd s rest s.draws h
  · rw [e]; exact Frame.setRnd s s.rnd (s.draws + 1) h

/-- A store sequence writes the bytes from `I` on and the log (spec/20_memory.md R61, R66). -/
theorem Frame.storeIndexed (bs : List Byte) (hm : w.mem = s.bytesFromI bs.length) (hc : w.clog = true) :
    Frame w s (s.storeIndexed 0 bs) := by
  have hread : ∀ a, a ∉ w.mem → (s.storeIndexed 0 bs).mem.read a = s.mem.read a :=
    fun a ha => s.read_storeIndexed_outside bs (hm ▸ ha)
  have hs := s.storeIndexed_surroundings 0 bs
  rw [s.storeIndexed_eq 0 bs] at hs ⊢
  exact { Frame.refl s w with mem := hread, clog := permitted_elim hc, surroundings := hs }

theorem mem_regsUpTo (x r : Reg) : r ∈ regsUpTo x ↔ r.val ≤ x.val := by
  simp [regsUpTo]

/-- A load sequence writes V0 to Vx and the log (spec/43_index_memory.md R176). -/
theorem Frame.loadIndexed (x : Reg) (hr : w.regs = regsUpTo x) (hc : w.clog = true) :
    Frame w s (s.loadIndexed 0 (x.val + 1)) := by
  have hreg : ∀ r, r ∉ w.regs → (s.loadIndexed 0 (x.val + 1)).reg r = s.reg r := fun r h => by
    rw [hr, mem_regsUpTo] at h
    rw [s.reg_loadIndexed 0 (x.val + 1) (by omega) r, if_neg (by omega)]
  have hs := s.loadIndexed_surroundings 0 (x.val + 1)
  rw [s.loadIndexed_eq 0 (x.val + 1)] at hs hreg ⊢
  exact { Frame.refl s w with regs := hreg, clog := permitted_elim hc, surroundings := hs }

/-- Drawing writes VF, the framebuffer and the log (spec/44_display_input.md R191). -/
theorem Frame.drawRows (vx vy r n : Nat) (hv : VF ∈ w.regs) (hf : w.fb = true) (hc : w.clog = true) :
    Frame w s (s.drawRows vx vy r n) := by
  have hreg : ∀ x, x ∉ w.regs → (s.drawRows vx vy r n).reg x = s.reg x :=
    fun x hx => s.reg_drawRows_of_ne vx vy r n x fun e => hx (e ▸ hv)
  have hs := s.drawRows_surroundings vx vy r n
  rw [s.drawRows_eq vx vy r n] at hs hreg ⊢
  exact { Frame.refl s w with
    regs := hreg, fb := permitted_elim hf, clog := permitted_elim hc, surroundings := hs }

/-! ## What an instruction may write -/

/-- RET pops and jumps, or raises (spec/41_control_flow.md R120). -/
theorem execRet_frame : ∃ t, execRet s = .next t ∧ Frame (writesOf s .ret) s t := by
  unfold execRet
  rcases s.pop_cases with ⟨_, e⟩ | ⟨_, e⟩
  · rw [e]; exact ⟨_, rfl, Frame.raise s _ _ rfl⟩
  · rw [e]; exact ⟨_, rfl, (Frame.setStack s s.stack _ rfl).trans (Frame.jump _ _ rfl)⟩

/-- CALL pushes and jumps, or raises (spec/41_control_flow.md R122). -/
theorem execCall_frame (nnn : Addr12) : ∃ t, execCall nnn s = .next t ∧ Frame (writesOf s (.call nnn)) s t := by
  unfold execCall
  rcases s.push_cases s.pc with ⟨_, e⟩ | ⟨_, e⟩
  · rw [e]; exact ⟨_, rfl, Frame.raise s _ _ rfl⟩
  · rw [e]; exact ⟨_, rfl, (Frame.setStack s _ _ rfl).trans (Frame.jump _ _ rfl)⟩

/-- SKP skips by the key's state, or raises (spec/44_display_input.md R194). -/
theorem execSkp_frame (x : Reg) : ∃ t, execSkp x s = .next t ∧ Frame (writesOf s (.skp x)) s t := by
  unfold execSkp
  dsimp only
  cases s.keyAt (s.reg x).toNat with
  | none => exact ⟨_, rfl, Frame.raise s _ _ rfl⟩
  | some pressed => exact ⟨_, rfl, Frame.skipIf s _ rfl⟩

/-- SKNP skips by the key's state, or raises (spec/44_display_input.md R195). -/
theorem execSknp_frame (x : Reg) : ∃ t, execSknp x s = .next t ∧ Frame (writesOf s (.sknp x)) s t := by
  unfold execSknp
  dsimp only
  cases s.keyAt (s.reg x).toNat with
  | none => exact ⟨_, rfl, Frame.raise s _ _ rfl⟩
  | some pressed => exact ⟨_, rfl, Frame.skipIf s _ rfl⟩

/-- LD [I],Vx stores the x + 1 registers V0 to Vx (spec/43_index_memory.md R175). -/
theorem execLdMemVx_frame (x : Reg) : ∃ t, execLdMemVx x s = .next t ∧ Frame (writesOf s (.ldMemVx x)) s t := by
  have hlen : (s.v.toList.take (x.val + 1)).length = x.val + 1 := by
    rw [List.length_take, Vector.length_toList]; omega
  exact ⟨_, rfl, Frame.storeIndexed s _ (congrArg s.bytesFromI hlen.symm) rfl⟩

/-- Every instruction answers a next state and writes what its row of the access tables names, as its shared
operations do. -/
theorem exec_frame (i : Instr) : ∃ t, exec i s = .next t ∧ Frame (writesOf s i) s t := by
  cases i with
  | ret => exact execRet_frame s
  | call nnn => exact execCall_frame s nnn
  | skp x => exact execSkp_frame s x
  | sknp x => exact execSknp_frame s x
  | jp | jpV0 => exact ⟨_, rfl, Frame.jump s _ rfl⟩
  | seVxKK | sneVxKK | seVxVy | sneVxVy => exact ⟨_, rfl, Frame.skipIf s _ rfl⟩
  | ldVxKK x | addVxKK x | ldVxVy x | orVxVy x | andVxVy x | xorVxVy x | ldVxDT x =>
    exact ⟨_, rfl, Frame.setReg s x _ List.mem_cons_self⟩
  | addVxVy x | subVxVy x | shrVx x | subnVxVy x | shlVx x =>
    exact ⟨_, rfl, Frame.setResultFlag s x _ _ List.mem_cons_self (List.mem_cons_of_mem x List.mem_cons_self)⟩
  | rnd x => exact ⟨_, rfl, (Frame.drawByte s rfl).trans (Frame.setReg _ x _ List.mem_cons_self)⟩
  | drw => exact ⟨_, rfl, (Frame.setReg s VF 0 List.mem_cons_self).trans
      (Frame.drawRows _ _ _ _ _ List.mem_cons_self rfl rfl)⟩
  | ldDTVx => exact ⟨_, rfl, Frame.setDT s _ rfl⟩
  | ldSTVx => exact ⟨_, rfl, Frame.setST s _ rfl⟩
  | ldI | addIVx | ldFVx => exact ⟨_, rfl, Frame.setI s _ rfl⟩
  | cls => exact ⟨_, rfl, Frame.setFB s _ rfl⟩
  | ldVxK => exact ⟨_, rfl, Frame.setPhase s _ rfl⟩
  | ldBVx => exact ⟨_, rfl, Frame.storeIndexed s _ rfl rfl⟩
  | ldMemVx x => exact execLdMemVx_frame s x
  | ldVxMem x => exact ⟨_, rfl, Frame.loadIndexed s x rfl rfl⟩

/-- Settles O50: the frames of an instruction's shared operations compose to the frame of its row. -/
theorem everyInstructionKeepsItsFrame : Obligations.EveryInstructionKeepsItsFrame := by
  unfold Obligations.EveryInstructionKeepsItsFrame
  exact fun i s => exec_frame s i

/-! ## The timers and the Monitor stay consistent -/

/-- A set leaves a disabled timer stopped, and an enabled one running exactly from a value that is not 0
(spec/60_exceptions.md R236). -/
theorem Timer.ok_set {t : Timer} (h : t.ok) (v : Byte) : (t.set v).ok := by
  intro hr
  rw [Timer.set_running] at hr
  rw [Timer.set_value, Timer.set_disabled]
  cases hd : t.disabled with
  | false => exact ⟨by simpa [hd] using hr, rfl⟩
  | true =>
    rw [hd, if_pos rfl] at hr
    exact absurd hd (ne_true_of_eq_false (h hr).2)

/-- A tick stops the timer that reaches 0 (spec/60_exceptions.md R237). -/
theorem Timer.ok_tick {t : Timer} (h : t.ok) (hr : t.running = true) : t.tick.ok :=
  fun hv => ⟨by simpa using hv, (h hr).2⟩

/-- The Monitor's share of `State.Consistent`. -/
structure Monitor.Ok (m : Monitor) : Prop where
  running_not_stepping : m.active = false → m.step = false
  bpWf : m.bpWf

theorem Monitor.Ok.apply {m : Monitor} (h : m.Ok) (c : DbgCommand) : (m.apply c).Ok :=
  ⟨Monitor.stepOk_apply c h.running_not_stepping, Monitor.bpWf_apply c h.bpWf⟩

theorem Monitor.Ok.permit {m : Monitor} (h : m.Ok) (pc : Word) : (m.permit pc).2.Ok := by
  rcases m.permit_cases pc with ⟨_, e⟩ | ⟨_, _, _, e⟩ | ⟨_, _, e⟩
  · rw [e]; exact h
  · rw [e]; exact ⟨fun _ => rfl, h.bpWf⟩
  · rw [e]; exact ⟨h.running_not_stepping, h.bpWf⟩

theorem Monitor.Ok.clearStep {m : Monitor} (h : m.Ok) : Monitor.Ok { m with step := false } :=
  ⟨fun _ => rfl, h.bpWf⟩

theorem State.consistent_iff : s.Consistent ↔ s.dt.ok ∧ s.st.ok ∧ s.mon.Ok :=
  ⟨fun h => ⟨h.dt, h.st, h.mon, h.bp⟩,
    fun ⟨hdt, hst, hmon⟩ => ⟨hdt, hst, hmon.running_not_stepping, hmon.bpWf⟩⟩

variable {s} {t : State}

theorem State.Consistent.monOk (h : s.Consistent) : s.mon.Ok := ⟨h.mon, h.bp⟩

/-- Consistency reads the timers and the Monitor alone. -/
theorem State.Consistent.of_parts (h : s.Consistent) (hdt : t.dt = s.dt) (hst : t.st = s.st) (hmon : t.mon.Ok) :
    t.Consistent :=
  t.consistent_iff.2 ⟨hdt ▸ h.dt, hst ▸ h.st, hmon⟩

theorem State.Consistent.tickDT (h : s.Consistent) : s.tickDT.Consistent := by
  unfold State.tickDT
  split
  case isTrue hr => exact { h with dt := Timer.ok_tick h.dt hr }
  case isFalse => exact h

theorem State.Consistent.tickST (h : s.Consistent) : s.tickST.Consistent := by
  unfold State.tickST
  split
  case isTrue hr => exact { h with st := Timer.ok_tick h.st hr }
  case isFalse => exact h

theorem State.Consistent.unlessEnded {u : State} (h : s.Consistent) (hu : u.Consistent) :
    (s.unlessEnded u).Consistent := by
  rcases s.unlessEnded_cases u with ⟨_, e⟩ | ⟨_, e⟩
  · rw [e]; exact h
  · rw [e]; exact hu

theorem State.Consistent.afterCheck (h : s.Consistent) : s.afterCheck.Consistent :=
  h.of_parts rfl rfl <|
    (Monitor.foldl_apply_keeps (fun _ c hm => hm.apply c) s.cmdq s.mon h.monOk).permit s.pc

theorem State.Consistent.endCycle (h : s.Consistent) : s.endCycle.Consistent := by
  rcases s.endCycle_cases with ⟨_, e⟩ | ⟨_, e⟩
  · rw [e]; exact h
  · rw [e]; exact h.of_parts rfl rfl h.monOk.clearStep

/-- An instruction writes DT by `TimerSet` alone (spec/10_state.md R30). -/
theorem dt_of_exec {i : Instr} (h : exec i s = .next t) : t.dt = s.dt ∨ ∃ v, t.dt = s.dt.set v := by
  obtain ⟨u, e, hu⟩ := exec_frame s i
  cases e.symm.trans h
  cases i with
  | ldDTVx x => cases e; exact .inr ⟨_, rfl⟩
  | _ => exact .inl (hu.dt rfl)

/-- An instruction writes ST by `TimerSet` alone (spec/10_state.md R30). -/
theorem st_of_exec {i : Instr} (h : exec i s = .next t) : t.st = s.st ∨ ∃ v, t.st = s.st.set v := by
  obtain ⟨u, e, hu⟩ := exec_frame s i
  cases e.symm.trans h
  cases i with
  | ldSTVx x => cases e; exact .inr ⟨_, rfl⟩
  | _ => exact .inl (hu.st rfl).1

theorem Timer.ok_of_eq_or_set {t u : Timer} (h : t.ok) (e : u = t ∨ ∃ v, u = t.set v) : u.ok := by
  rcases e with rfl | ⟨v, rfl⟩
  · exact h
  · exact Timer.ok_set h v

theorem State.Consistent.exec {i : Instr} (hs : s.Consistent) (h : exec i s = .next t) : t.Consistent := by
  obtain ⟨u, e, hu⟩ := exec_surroundings s i
  cases e.symm.trans h
  exact t.consistent_iff.2
    ⟨Timer.ok_of_eq_or_set hs.dt (dt_of_exec h), Timer.ok_of_eq_or_set hs.st (st_of_exec h), hu.mon ▸ hs.monOk⟩

theorem State.Consistent.fetchExecute (hs : s.Consistent) (h : s.fetchExecute = .next t) : t.Consistent := by
  rcases s.fetchExecute_cases with ⟨_, _, e⟩ | ⟨_, _, e⟩ | ⟨w, _, _, _, e⟩
  · cases e.symm.trans h; exact hs.of_parts rfl rfl hs.monOk
  · cases e.symm.trans h; exact hs.of_parts rfl rfl hs.monOk
  · have hf : (s.latchIpc.advance w).Consistent := hs.of_parts rfl rfl hs.monOk
    exact hf.exec (e.symm.trans h)

theorem State.Consistent.cycle (hs : s.Consistent) (h : s.cycle = .next t) : t.Consistent := by
  rcases s.cycle_cases with ⟨_, e⟩ | ⟨_, _, e⟩ | ⟨_, _, e⟩
  · cases e.symm.trans h; exact hs.of_parts rfl rfl hs.monOk
  · obtain ⟨u, hu, rfl⟩ := endCycleOf_next (e.symm.trans h)
    exact (hs.afterCheck.fetchExecute hu).endCycle
  · cases e.symm.trans h; exact hs.afterCheck.of_parts rfl rfl hs.afterCheck.monOk

theorem State.Consistent.cpuStep (hs : s.Consistent) (h : s.cpuStep = .next t) : t.Consistent := by
  rcases s.cpuStep_cases with ⟨_, e⟩ | ⟨_, e⟩ | ⟨_, e⟩ | ⟨_, e⟩
  · exact hs.cycle (e.symm.trans h)
  · cases e.symm.trans h; exact hs
  · cases e.symm.trans h
  · cases e.symm.trans h

theorem State.Consistent.answerKey {k : Fin 16} (hs : s.Consistent) (h : s.answerKey k = .next t) :
    t.Consistent := by
  rcases s.answerKey_cases k with ⟨_, _, e⟩ | ⟨_, e⟩
  · cases e.symm.trans h; exact hs.of_parts rfl rfl hs.monOk.clearStep
  · cases e.symm.trans h

theorem State.Consistent.loadProgram {bytes : List Byte} (hs : s.Consistent)
    (h : s.loadProgram bytes = .next t) : t.Consistent := by
  rcases s.loadProgram_cases bytes with ⟨_, _, e⟩ | ⟨_, _, e⟩ | ⟨_, e⟩
  · cases e.symm.trans h; exact hs.of_parts rfl rfl hs.monOk
  · cases e.symm.trans h; exact hs.of_parts rfl rfl hs.monOk
  · cases e.symm.trans h

/-- Every agent's move keeps the timers and the Monitor consistent. -/
theorem State.Consistent.runMove {m : Move} (hs : s.Consistent) (h : s.runMove m = .next t) : t.Consistent := by
  cases m with
  | cpu => exact hs.cpuStep h
  | tickDT => cases h; exact hs.unlessEnded hs.tickDT
  | tickST => cases h; exact hs.unlessEnded hs.tickST
  | keyAnswer k => exact hs.answerKey h
  | load bytes => exact hs.loadProgram h
  | setAlive | setKeys | supplyRnd | command => cases h; exact hs.of_parts rfl rfl hs.monOk

/-- Settles O53: every agent's move keeps the timers and the Monitor consistent. -/
theorem stepKeepsTimersAndMonitorConsistent : Obligations.StepKeepsTimersAndMonitorConsistent := by
  unfold Obligations.StepKeepsTimersAndMonitorConsistent
  intro s t hs h
  rcases step_cases s with ⟨_, e⟩ | ⟨m, rest, _, e⟩
  · exact hs.cpuStep (e.symm.trans h)
  · have hr : State.Consistent { s with sched := rest } := hs.of_parts rfl rfl hs.monOk
    exact hr.runMove (e.symm.trans h)

/-! ## Reset -/

/-- Memory after reset: the glyph table, then zeros, and nothing beyond (spec/70_reset_and_hazards.md R280). -/
theorem State.read_resetWith (c : Config) (a : Nat) :
    (State.resetWith c).mem.read a =
      if h : a < 80 then some c.glyphTable[a] else if a < 4096 then some 0 else none := by
  have hpeek : (State.resetWith c).mem.peek a = if h : a < 80 then c.glyphTable[a] else 0 := rfl
  unfold Memory.read
  rw [hpeek]
  by_cases h : a < 80
  · rw [dif_pos h, dif_pos h, if_pos (by omega)]
  · rw [dif_neg h, dif_neg h]

theorem State.consistent_resetWith (c : Config) : (State.resetWith c).Consistent where
  dt hr := absurd hr Bool.false_ne_true
  st hr := absurd hr Bool.false_ne_true
  mon _ := rfl
  bp := List.Pairwise.nil

theorem State.stack_resetWith (c : Config) (k : Fin 16) : (State.resetWith c).stack[k.val] = 0 :=
  Vector.getElem_replicate _

theorem State.pcBounded_resetWith (c : Config) : (State.resetWith c).PcBounded where
  pc := show (0x200 : Word).toNat ≤ 0x10FE by decide
  stack k := by rw [State.stack_resetWith]; decide

/-- Settles O47: memory and the screen by their lemmas, each other part as reset writes it. -/
theorem resetState : Obligations.ResetState := by
  unfold Obligations.ResetState
  rintro c s rfl
  exact ⟨State.read_resetWith c, rfl, rfl, fun _ => Vector.getElem_replicate _, rfl, State.stack_resetWith c, rfl, rfl,
    fun _ => Vector.getElem_replicate _, fun r _ k _ => FrameBuffer.cell_clear r k, fun _ => rfl, rfl, rfl, rfl, rfl,
    rfl, rfl, rfl⟩

/-- Settles O51: reset has nothing listed in memory, no timer running and no breakpoint. -/
theorem resetMeetsTheInvariants : Obligations.ResetMeetsTheInvariants := by
  unfold Obligations.ResetMeetsTheInvariants
  exact fun c => ⟨Memory.wf_reset c, State.consistent_resetWith c, State.pcBounded_resetWith c⟩

/-! ## The host's liberties -/

/-- Settles O59: the move runs before the phase is asked, and is the one update the statement names. -/
theorem hostMovesAtAnyTime : Obligations.HostMovesAtAnyTime := by
  unfold Obligations.HostMovesAtAnyTime
  intro s rest
  exact ⟨fun _ h => step_of_sched h, fun _ h => step_of_sched h, fun _ h => step_of_sched h,
    fun _ h => step_of_sched h⟩

end Sys2Proof.Machine

namespace Sys2Proof.Machine

variable {s t : State}

/-! ## Memory read and written -/

/-- Settles O6: the two branches of a checked write, and the read after it. -/
theorem memoryReadAfterWrite : Obligations.MemoryReadAfterWrite := by
  unfold Obligations.MemoryReadAfterWrite
  intro m a b
  refine ⟨fun ha => ?_, fun ha => ?_⟩
  · refine ⟨m.poke a b, if_pos ha, fun k => ?_⟩
    simp only [m.read_poke a k b ha, eq_comm]
  · exact ⟨if_neg (Nat.not_lt.2 ha), (m.read_eq_none a).2 ha⟩

/-! ## The canonical form determines the data -/

theorem Memory.mem_of_lookup {l : List Host.Cell} {a : Nat} {b : Byte} (h : Memory.lookup l a = some b) :
    (a, b) ∈ l := by
  induction l with
  | nil => cases h
  | cons c l ih =>
    obtain ⟨k, d⟩ := c
    unfold Memory.lookup at h
    split at h
    case isTrue e => cases h; exact e ▸ List.mem_cons_self
    case isFalse => exact List.mem_cons_of_mem _ (ih h)

/-- In a list of rising addresses no earlier cell hides a later one. -/
theorem Memory.lookup_of_mem {l : List Host.Cell} (hl : Memory.rising l) {c : Host.Cell} (h : c ∈ l) :
    Memory.lookup l c.1 = some c.2 := by
  induction l with
  | nil => cases h
  | cons d l ih =>
    obtain ⟨hd, hl⟩ := List.pairwise_cons.1 hl
    rcases List.mem_cons.1 h with rfl | h
    · exact if_pos rfl
    · exact (if_neg (Nat.ne_of_lt (hd c h))).trans (ih hl h)

/-- The cells of a canonical memory are the bytes that read as something else than an unlisted address does. -/
theorem Memory.mem_cells_iff {m : Memory} (hm : m.wf) (c : Host.Cell) :
    c ∈ m.cells ↔ m.read c.1 = some c.2 ∧ c.2 ≠ m.unlisted c.1 := by
  obtain ⟨hr, hc⟩ := hm
  constructor
  · intro h
    obtain ⟨hlt, hne⟩ := hc c h
    refine ⟨?_, hne⟩
    rw [m.read_of_lt hlt, Memory.peek, Memory.lookup_of_mem hr h, Option.getD_some]
  · rintro ⟨hread, hne⟩
    have hlt : c.1 < 4096 := by
      by_contra hge
      rw [(m.read_eq_none c.1).2 (Nat.not_lt.1 hge)] at hread
      cases hread
    have hpeek : (Memory.lookup m.cells c.1).getD (m.unlisted c.1) = c.2 :=
      Option.some.inj ((m.read_of_lt hlt).symm.trans hread)
    cases hl : Memory.lookup m.cells c.1 with
    | none => rw [hl] at hpeek; exact absurd hpeek.symm hne
    | some b => rw [hl] at hpeek; cases hpeek; exact Memory.mem_of_lookup hl

theorem Memory.rising.eq_of_mem_iff {l l' : List Host.Cell} (h : Memory.rising l) (h' : Memory.rising l')
    (hmem : ∀ c, c ∈ l ↔ c ∈ l') : l = l' := by
  have irrefl : Std.Irrefl fun p q : Host.Cell => p.1 < q.1 := ⟨fun p => Nat.lt_irrefl p.1⟩
  have asymm : Std.Asymm fun p q : Host.Cell => p.1 < q.1 := ⟨fun _ _ => Nat.lt_asymm⟩
  exact List.Pairwise.eq_of_mem_iff h h' hmem

/-- Settles O7: equal reads and equal glyphs give equal cells, and rising lists of equal cells are equal. -/
theorem canonicalMemoriesReadAlikeOnlyIfEqual : Obligations.CanonicalMemoriesReadAlikeOnlyIfEqual := by
  unfold Obligations.CanonicalMemoriesReadAlikeOnlyIfEqual
  intro m n hm hn hg hread
  have hunlisted : ∀ a, m.unlisted a = n.unlisted a := fun a => by unfold Memory.unlisted; rw [hg]
  have hcells : m.cells = n.cells := Memory.rising.eq_of_mem_iff hm.1 hn.1 fun c => by
    rw [Memory.mem_cells_iff hm, Memory.mem_cells_iff hn, hread, hunlisted]
  cases m; cases n; cases hg; cases hcells; rfl

/-! ## What the other agents leave to the CPU -/

/-- What the CPU owns is in `t` as it is in `s`: its registers, memory and screen, the keypad it sampled, the Monitor it
runs, its phase and the log (spec/20_memory.md R70). -/
structure SameCpuPart (s t : State) : Prop where
  v : t.v = s.v
  i : t.i = s.i
  pc : t.pc = s.pc
  mem : t.mem = s.mem
  stack : t.stack = s.stack
  free : t.free = s.free
  fb : t.fb = s.fb
  key : t.key = s.key
  mon : t.mon = s.mon
  phase : t.phase = s.phase
  clog : t.clog = s.clog

theorem SameCpuPart.refl (s : State) : SameCpuPart s s := by constructor <;> rfl

theorem State.tickDT_sameCpuPart (s : State) : SameCpuPart s s.tickDT := by constructor <;> simp

theorem State.tickST_sameCpuPart (s : State) : SameCpuPart s s.tickST := by constructor <;> simp

theorem SameCpuPart.unlessEnded {u : State} (h : SameCpuPart s u) : SameCpuPart s (s.unlessEnded u) := by
  rcases s.unlessEnded_cases u with ⟨_, e⟩ | ⟨_, e⟩
  · rw [e]; exact SameCpuPart.refl s
  · rw [e]; exact h

/-- A timer's tick, and a host move other than a load or a key answer, leave the CPU's part. -/
theorem sameCpuPart_of_runMove {m : Move} (hcpu : m ≠ .cpu) (hload : ∀ bytes, m ≠ .load bytes)
    (hkey : ∀ k, m ≠ .keyAnswer k) (h : s.runMove m = .next t) : SameCpuPart s t := by
  cases m with
  | cpu => exact absurd rfl hcpu
  | load bytes => exact absurd rfl (hload bytes)
  | keyAnswer k => exact absurd rfl (hkey k)
  | tickDT => cases h; exact s.tickDT_sameCpuPart.unlessEnded
  | tickST => cases h; exact s.tickST_sameCpuPart.unlessEnded
  | setAlive | setKeys | supplyRnd | command => cases h; constructor <;> rfl

/-- Settles O58: the move runs on the state whose schedule has moved on, and the CPU's part does not hold the schedule. -/
theorem otherAgentsLeaveTheCpuAlone : Obligations.OtherAgentsLeaveTheCpuAlone := by
  unfold Obligations.OtherAgentsLeaveTheCpuAlone
  intro s t m rest hsched hcpu hload hkey h
  rw [step_of_sched hsched] at h
  obtain ⟨hv, hi, hpc, hmem, hstack, hfree, hfb, hkeys, hmon, hphase, hclog⟩ :=
    sameCpuPart_of_runMove hcpu hload hkey h
  exact ⟨hv, hi, hpc, hmem, hstack, hfree, hfb, hkeys, hmon, hphase, hclog⟩

/-! ## Every step keeps the canonical form -/

/-- RET leaves memory (spec/20_memory.md R61). -/
theorem mem_of_execRet (h : execRet s = .next t) : t.mem = s.mem := by
  unfold execRet at h
  rcases s.pop_cases with ⟨_, e⟩ | ⟨_, e⟩
  · rw [e] at h; cases h; rfl
  · rw [e] at h; cases h; rfl

/-- CALL leaves memory: the stack is not in it (spec/20_memory.md R61). -/
theorem mem_of_execCall {nnn : Addr12} (h : execCall nnn s = .next t) : t.mem = s.mem := by
  unfold execCall at h
  rcases s.push_cases s.pc with ⟨_, e⟩ | ⟨_, e⟩
  · rw [e] at h; cases h; rfl
  · rw [e] at h; cases h; rfl

theorem mem_of_execSkp {x : Reg} (h : execSkp x s = .next t) : t.mem = s.mem := by
  unfold execSkp at h
  dsimp only at h
  cases hk : s.keyAt (s.reg x).toNat with
  | none => rw [hk] at h; cases h; rfl
  | some pressed => rw [hk] at h; cases h; exact s.skipIf_mem _

theorem mem_of_execSknp {x : Reg} (h : execSknp x s = .next t) : t.mem = s.mem := by
  unfold execSknp at h
  dsimp only at h
  cases hk : s.keyAt (s.reg x).toNat with
  | none => rw [hk] at h; cases h; rfl
  | some pressed => rw [hk] at h; cases h; exact s.skipIf_mem _

theorem State.drawByte_mem : s.drawByte.2.mem = s.mem := by
  rcases s.drawByte_cases with ⟨_, _, _, e⟩ | ⟨_, e⟩
  · rw [e]
  · rw [e]

/-- An instruction writes memory by a store sequence through `I` alone (spec/20_memory.md R61). -/
theorem mem_of_exec {i : Instr} (h : exec i s = .next t) :
    t.mem = s.mem ∨ ∃ bs, t.mem = (s.storeIndexed 0 bs).mem := by
  cases i with
  | ldBVx | ldMemVx => cases h; exact .inr ⟨_, rfl⟩
  | ret => exact .inl (mem_of_execRet h)
  | call => exact .inl (mem_of_execCall h)
  | skp => exact .inl (mem_of_execSkp h)
  | sknp => exact .inl (mem_of_execSknp h)
  | seVxKK | sneVxKK | seVxVy | sneVxVy => cases h; exact .inl (s.skipIf_mem _)
  | rnd => cases h; exact .inl State.drawByte_mem
  | drw => cases h; exact .inl (State.drawRows_mem _ _ _ _ _)
  | ldVxMem => cases h; exact .inl (s.loadIndexed_mem _ _)
  | _ => cases h; exact .inl rfl

theorem memWf_of_exec {i : Instr} (hs : s.mem.wf) (h : exec i s = .next t) : t.mem.wf := by
  rcases mem_of_exec h with e | ⟨bs, e⟩
  · rw [e]; exact hs
  · rw [e]; exact s.wf_storeIndexed 0 bs hs

theorem memWf_of_fetchExecute (hs : s.mem.wf) (h : s.fetchExecute = .next t) : t.mem.wf := by
  rcases s.fetchExecute_cases with ⟨_, _, e⟩ | ⟨_, _, e⟩ | ⟨w, _, _, _, e⟩
  · cases e.symm.trans h; exact hs
  · cases e.symm.trans h; exact hs
  · exact memWf_of_exec (s := s.latchIpc.advance w) hs (e.symm.trans h)

theorem State.mem_endCycle (s : State) : s.endCycle.mem = s.mem := by
  rcases s.endCycle_cases with ⟨_, e⟩ | ⟨_, e⟩
  · rw [e]
  · rw [e]; rfl

theorem memWf_of_cycle (hs : s.mem.wf) (h : s.cycle = .next t) : t.mem.wf := by
  rcases s.cycle_cases with ⟨_, e⟩ | ⟨_, _, e⟩ | ⟨_, _, e⟩
  · cases e.symm.trans h; exact hs
  · obtain ⟨u, hu, rfl⟩ := endCycleOf_next (e.symm.trans h)
    rw [u.mem_endCycle]
    exact memWf_of_fetchExecute (s := s.afterCheck) hs hu
  · cases e.symm.trans h; exact hs

theorem memWf_of_cpuStep (hs : s.mem.wf) (h : s.cpuStep = .next t) : t.mem.wf := by
  rcases s.cpuStep_cases with ⟨_, e⟩ | ⟨_, e⟩ | ⟨_, e⟩ | ⟨_, e⟩
  · exact memWf_of_cycle hs (e.symm.trans h)
  · cases e.symm.trans h; exact hs
  · cases e.symm.trans h
  · cases e.symm.trans h

theorem memWf_of_answerKey {k : Fin 16} (hs : s.mem.wf) (h : s.answerKey k = .next t) : t.mem.wf := by
  rcases s.answerKey_cases k with ⟨_, _, e⟩ | ⟨_, e⟩
  · cases e.symm.trans h; exact hs
  · cases e.symm.trans h

/-- A program that is loaded fits between 0x200 and the end of memory (spec/70_reset_and_hazards.md R281, R282). -/
theorem memWf_of_loadProgram {bytes : List Byte} (hs : s.mem.wf) (h : s.loadProgram bytes = .next t) : t.mem.wf := by
  rcases s.loadProgram_cases bytes with ⟨_, _, e⟩ | ⟨_, hlen, e⟩ | ⟨_, e⟩
  · cases e.symm.trans h; exact hs
  · cases e.symm.trans h; exact Memory.wf_pokeAll 0x200 bytes hs (by omega)
  · cases e.symm.trans h

/-- Every agent's move keeps memory canonical. -/
theorem memWf_of_runMove {m : Move} (hs : s.mem.wf) (h : s.runMove m = .next t) : t.mem.wf := by
  cases m with
  | cpu => exact memWf_of_cpuStep hs h
  | keyAnswer k => exact memWf_of_answerKey hs h
  | load bytes => exact memWf_of_loadProgram hs h
  | tickDT | tickST | setAlive | setKeys | supplyRnd | command =>
    rw [(sameCpuPart_of_runMove (by simp) (by simp) (by simp) h).mem]; exact hs

/-- Settles O52: of the CPU's moves a store sequence alone writes memory, of the others a load alone, and each keeps the
form. -/
theorem stepKeepsMemoryCanonical : Obligations.StepKeepsMemoryCanonical := by
  unfold Obligations.StepKeepsMemoryCanonical
  intro s t hs h
  rcases step_cases s with ⟨_, e⟩ | ⟨m, rest, _, e⟩
  · exact memWf_of_cpuStep hs (e.symm.trans h)
  · exact memWf_of_runMove (s := { s with sched := rest }) hs (e.symm.trans h)

/-! ## Stored code -/

/-- The fetch of a word whose two bytes lie in memory, high byte first (spec/40_cycle.md R105). -/
theorem State.fetchWord_of_read {hi lo : Byte} (hhi : s.mem.read s.pc.toNat = some hi)
    (hlo : s.mem.read (s.pc.toNat + 1) = some lo) : s.fetchWord = .ok (wordOfBytes hi lo) := by
  unfold State.fetchWord
  rw [hhi, hlo]

/-- LD [I],Vx leaves each register of V0 to Vx whose address lies in memory at that address
(spec/43_index_memory.md R175). -/
theorem read_of_execLdMemVx {x : Reg} (h : exec (.ldMemVx x) s = .next t) (r : Reg) (hr : r ≤ x)
    (hin : s.i.toNat + r.val < 4096) : t.mem.read (s.i.toNat + r.val) = some (s.reg r) := by
  cases h
  have hrx : r.val ≤ x.val := hr
  have hlen : (s.v.toList.take (x.val + 1)).length = x.val + 1 := by
    rw [List.length_take, Vector.length_toList]; omega
  have hoff : s.i.toNat + r.val - s.indexAddr 0 = r.val := by unfold State.indexAddr; omega
  rw [State.read_storeIndexed, dif_pos ⟨by unfold State.indexAddr; omega, by omega, hin⟩]
  simp [hoff, State.reg]

/-- Settles O32: V0 and V1 lie where the fetch reads the word's high and low byte. -/
theorem storedCodeIsFetched : Obligations.StoredCodeIsFetched := by
  unfold Obligations.StoredCodeIsFetched
  intro x s t hx hi hpc h
  have hpc_eq : t.pc = s.pc := by cases h; exact s.storeIndexed_pc 0 _
  have hV0 := read_of_execLdMemVx h 0 (Fin.zero_le x) (by rw [hi]; omega)
  have hV1 := read_of_execLdMemVx h 1 (Fin.le_def.2 hx) (by rw [hi]; exact hpc)
  rw [hi] at hV0 hV1
  exact State.fetchWord_of_read (hpc_eq ▸ hV0) (hpc_eq ▸ hV1)

end Sys2Proof.Machine

namespace Sys2Proof

open Sys2Proof.Machine

/-! ## A word is its fields (spec/30_encoding.md R82) -/

section Fields

variable (op : Word)

@[simp] theorem packNNN_fields : packNNN (fieldT op) (fieldNNN op) = op :=
  BitVec.extractLsb'_append_extractLsb' (w := 4) (len := 12)

@[simp] theorem packXKK_fields : packXKK (fieldT op) (fieldX op) (fieldKK op) = op := by
  have hTX : fieldT op ++ BitVec.ofFin (w := 4) (fieldX op) = op.extractLsb' 8 8 :=
    BitVec.extractLsb'_append_extractLsb'_eq_extractLsb' rfl
  unfold packXKK
  rw [hTX]
  exact BitVec.extractLsb'_append_extractLsb' (w := 8) (len := 8)

@[simp] theorem packXYN_fields : packXYN (fieldT op) (fieldX op) (fieldY op) (fieldN op) = op := by
  have hYN : BitVec.ofFin (w := 4) (fieldY op) ++ BitVec.ofFin (w := 4) (fieldN op) = fieldKK op :=
    BitVec.extractLsb'_append_extractLsb'_eq_extractLsb' rfl
  unfold packXYN
  rw [hYN]
  exact packXKK_fields op

/-- A mask without the nibble `x` clears it. -/
theorem and_F0FF : op &&& 0xF0FF = packXKK (fieldT op) 0 (fieldKK op) := by
  conv_lhs => rw [← packXKK_fields op]
  unfold packXKK
  rw [show (0xF0FF : Word) = (BitVec.allOnes 4 ++ 0#4) ++ BitVec.allOnes 8 by decide, BitVec.and_append,
    BitVec.and_append]
  simp only [BitVec.and_allOnes, BitVec.and_zero]
  rfl

/-- A mask without the nibble `n` clears it. -/
theorem and_FFF0 : op &&& 0xFFF0 = packXYN (fieldT op) (fieldX op) (fieldY op) 0 := by
  conv_lhs => rw [← packXYN_fields op]
  unfold packXYN
  rw [show (0xFFF0 : Word) = (BitVec.allOnes 4 ++ BitVec.allOnes 4) ++ (BitVec.allOnes 4 ++ 0#4) by decide,
    BitVec.and_append, BitVec.and_append, BitVec.and_append]
  simp only [BitVec.and_allOnes, BitVec.and_zero]
  rfl

/-- A mask without the nibble `y` clears it. -/
theorem and_FF0F : op &&& 0xFF0F = packXYN (fieldT op) (fieldX op) 0 (fieldN op) := by
  conv_lhs => rw [← packXYN_fields op]
  unfold packXYN
  rw [show (0xFF0F : Word) = (BitVec.allOnes 4 ++ BitVec.allOnes 4) ++ (0#4 ++ BitVec.allOnes 4) by decide,
    BitVec.and_append, BitVec.and_append, BitVec.and_append]
  simp only [BitVec.and_allOnes, BitVec.and_zero]
  rfl

end Fields

/-! ## What the key holds of a word (spec/30_encoding.md R85) -/

section Key

variable {op k : Word}

/-- The families whose key has the low byte beside the top nibble. -/
abbrev ByteFamily (t : BitVec 4) : Prop := t = 0x0 ∨ t = 0xE ∨ t = 0xF

/-- The families of one instruction each, whose key is the top nibble alone. -/
abbrev LoneFamily (t : BitVec 4) : Prop := t ≠ 0x0 ∧ t ≠ 0x8 ∧ t ≠ 0xE ∧ t ≠ 0xF

theorem family_cases (t : BitVec 4) : t = 0x0 ∨ t = 0x8 ∨ t = 0xE ∨ t = 0xF ∨ LoneFamily t := by
  unfold LoneFamily
  tauto

theorem keyOf_of_loneFamily (h : LoneFamily (fieldT op)) : keyOf op = fieldT op ++ 0#12 := by
  obtain ⟨h0, h8, hE, hF⟩ := h
  conv_lhs => rw [← packNNN_fields op]
  exact keyOf_packNNN _ _ h0 h8 hE hF

theorem keyOf_of_byteFamily (h : ByteFamily (fieldT op)) : keyOf op = (fieldT op ++ 0#4) ++ fieldKK op := by
  conv_lhs => rw [← packXKK_fields op]
  exact keyOf_packXKK_byte _ _ _ h

theorem keyOf_of_aluFamily (h : fieldT op = 0x8) :
    keyOf op = (fieldT op ++ 0#4) ++ (0#4 ++ BitVec.ofFin (w := 4) (fieldN op)) := by
  conv_lhs => rw [← packXYN_fields op]
  rw [h]
  exact keyOf_packXYN_alu _ _ _

/-- Every mask holds the top nibble. -/
@[simp] theorem fieldT_keyOf (op : Word) : fieldT (keyOf op) = fieldT op := by
  have hmask : fieldT (familyMask op) = BitVec.allOnes 4 := by
    unfold familyMask
    split_ifs <;> decide
  calc fieldT (keyOf op) = fieldT op &&& fieldT (familyMask op) := BitVec.extractLsb'_and
    _ = fieldT op := by rw [hmask, BitVec.and_allOnes]

theorem fieldKK_keyOf (h : ByteFamily (fieldT op)) : fieldKK (keyOf op) = fieldKK op := by
  rw [keyOf_of_byteFamily h]
  exact extract_low _ _

theorem fieldN_keyOf (h : fieldT op = 0x8) : fieldN (keyOf op) = fieldN op := by
  rw [keyOf_of_aluFamily h]
  exact fieldN_packXYN _ 0 0 _

theorem keyOf_eq_iff_of_byteFamily (h : ByteFamily (fieldT op)) (hk : fieldT k = fieldT op) :
    keyOf k = keyOf op ↔ fieldKK k = fieldKK op where
  mp e := by rw [← fieldKK_keyOf (hk ▸ h), e, fieldKK_keyOf h]
  mpr e := by rw [keyOf_of_byteFamily h, keyOf_of_byteFamily (hk ▸ h), hk, e]

theorem keyOf_eq_iff_of_aluFamily (h : fieldT op = 0x8) (hk : fieldT k = fieldT op) :
    keyOf k = keyOf op ↔ fieldN k = fieldN op where
  mp e := by rw [← fieldN_keyOf (hk.trans h), e, fieldN_keyOf h]
  mpr e := by rw [keyOf_of_aluFamily h, keyOf_of_aluFamily (hk.trans h), hk, e]

end Key

/-! ## Decoding finds the row of the key (spec/30_encoding.md R85, R86, R89) -/

/-- The row is present and has the key `k`: the test by which `decodeWord` searches the table. -/
def Row.selects (r : Row) (has8xy0 : Bool) (k : Word) : Bool := r.key == k && (has8xy0 || !r.needs8xy0)

/-- The keys of the rows that are present. -/
def presentKeys (has8xy0 : Bool) : List Word :=
  (dispatch.filter (fun r => has8xy0 || !r.needs8xy0)).map Row.key

section Decode

variable {b : Bool} {op k : Word} {i : Instr}

theorem decodeWord_of_find (hk : keyOf op = k)
    (hr : ∃ r, dispatch.find? (·.selects b k) = some r ∧ r.build op = i) : decodeWord b op = .ok i := by
  obtain ⟨r, hfind, rfl⟩ := hr
  subst hk
  unfold Row.selects at hfind
  unfold decodeWord
  rw [hfind]

theorem exists_row_of_decodeWord (h : decodeWord b op = .ok i) :
    ∃ r ∈ dispatch, r.key = keyOf op ∧ (b || !r.needs8xy0) = true ∧ r.build op = i := by
  unfold decodeWord at h
  split at h
  next r hr =>
    obtain ⟨hkey, hpresent⟩ := Bool.and_eq_true_iff.1 (List.find?_some hr :)
    exact ⟨r, List.mem_of_find?_eq_some hr, beq_iff_eq.1 hkey, hpresent, Except.ok.inj h⟩
  next => cases h

theorem mem_presentKeys_iff : k ∈ presentKeys b ↔ ∃ r ∈ dispatch, r.selects b k = true := by
  simp only [presentKeys, Row.selects, List.mem_map, List.mem_filter, Bool.and_eq_true, beq_iff_eq, and_assoc,
    and_comm (a := Row.key _ = k)]

theorem decodeWord_eq_error_iff :
    decodeWord b op = .error (.invalidOpcode op) ↔ keyOf op ∉ presentKeys b := by
  rw [mem_presentKeys_iff]
  unfold decodeWord Row.selects
  split
  next r hr => exact iff_of_false nofun fun h => h ⟨r, List.mem_of_find?_eq_some hr, (List.find?_some hr :)⟩
  next hr => exact iff_of_true rfl fun ⟨r, hmem, hsel⟩ => List.find?_eq_none.1 hr r hmem hsel

end Decode

/-! ## Decoding a packed word (spec/30_encoding.md R86, R88) -/

section RoundTrip

open Laws

variable {b : Bool} {i : Instr}

/-- The word of every instruction has its row's key. -/
theorem keyOf_encode : ∀ i, keyOf (encode i) = EncodedKey.key i
  | .cls => EncodedKey.cls
  | .ret => EncodedKey.ret
  | .jp nnn => EncodedKey.jp nnn
  | .call nnn => EncodedKey.call nnn
  | .seVxKK x kk => EncodedKey.seVxKK x kk
  | .sneVxKK x kk => EncodedKey.sneVxKK x kk
  | .seVxVy x y => EncodedKey.seVxVy x y
  | .ldVxKK x kk => EncodedKey.ldVxKK x kk
  | .addVxKK x kk => EncodedKey.addVxKK x kk
  | .ldVxVy x y => EncodedKey.ldVxVy x y
  | .orVxVy x y => EncodedKey.orVxVy x y
  | .andVxVy x y => EncodedKey.andVxVy x y
  | .xorVxVy x y => EncodedKey.xorVxVy x y
  | .addVxVy x y => EncodedKey.addVxVy x y
  | .subVxVy x y => EncodedKey.subVxVy x y
  | .shrVx x => EncodedKey.shrVx x
  | .subnVxVy x y => EncodedKey.subnVxVy x y
  | .shlVx x => EncodedKey.shlVx x
  | .sneVxVy x y => EncodedKey.sneVxVy x y
  | .ldI nnn => EncodedKey.ldI nnn
  | .jpV0 nnn => EncodedKey.jpV0 nnn
  | .rnd x kk => EncodedKey.rnd x kk
  | .drw x y n => EncodedKey.drw x y n
  | .skp x => EncodedKey.skp x
  | .sknp x => EncodedKey.sknp x
  | .ldVxDT x => EncodedKey.ldVxDT x
  | .ldVxK x => EncodedKey.ldVxK x
  | .ldDTVx x => EncodedKey.ldDTVx x
  | .ldSTVx x => EncodedKey.ldSTVx x
  | .addIVx x => EncodedKey.addIVx x
  | .ldFVx x => EncodedKey.ldFVx x
  | .ldBVx x => EncodedKey.ldBVx x
  | .ldMemVx x => EncodedKey.ldMemVx x
  | .ldVxMem x => EncodedKey.ldVxMem x

/-- The search for an instruction's key stops at its row, which reads the instruction back from its word. -/
theorem exists_find_key (h : i.wellFormed b = true) :
    ∃ r, dispatch.find? (·.selects b (EncodedKey.key i)) = some r ∧ r.build (encode i) = i := by
  cases i
  case ldVxVy x y =>
    have hb : b = true := h
    simp [dispatch, dispatchLow, dispatchAlu, dispatchMid, dispatchHigh, row, Row.selects, EncodedKey.key, encode, hb]
  all_goals
    simp [dispatch, dispatchLow, dispatchAlu, dispatchMid, dispatchHigh, row, Row.selects, EncodedKey.key, encode]

/-- Settles O1: the word of an instruction has its row's key, and the row reads the operands that were packed. -/
theorem decodeEncodeRoundTrip : Obligations.DecodeEncodeRoundTrip := by
  unfold Obligations.DecodeEncodeRoundTrip
  intro b i h
  exact decodeWord_of_find (keyOf_encode i) (exists_find_key h)

/-- Settles O4: neither the key nor the row's operands hold the ignored field. -/
theorem ignoredBitsDoNotSelect : Obligations.IgnoredBitsDoNotSelect := by
  unfold Obligations.IgnoredBitsDoNotSelect
  intro b x y n
  refine ⟨decodeWord_of_find (keyOf_packXKK_byte _ _ _ (by decide)) ?_,
    decodeWord_of_find (keyOf_packXKK_byte _ _ _ (by decide)) ?_,
    decodeWord_of_find (keyOf_packXYN_plain _ _ _ _ (by decide) (by decide) (by decide) (by decide)) ?_,
    decodeWord_of_find (keyOf_packXYN_plain _ _ _ _ (by decide) (by decide) (by decide) (by decide)) ?_,
    decodeWord_of_find (keyOf_packXYN_alu _ _ _) ?_, decodeWord_of_find (keyOf_packXYN_alu _ _ _) ?_⟩
  all_goals simp [dispatch, dispatchLow, dispatchAlu, dispatchMid, dispatchHigh, row, Row.selects]

/-- Settles O5: the search of the table, run on each word. -/
theorem wordsDecodeAsTheTableSays : Obligations.WordsDecodeAsTheTableSays := by
  unfold Obligations.WordsDecodeAsTheTableSays
  exact ⟨rfl, rfl, rfl, rfl, rfl, rfl, rfl, rfl, rfl, rfl⟩

end RoundTrip

/-! ## A word that decodes (spec/30_encoding.md R84, R88) -/

/-- The row reads from a word of its key an instruction whose word is that word on every bit it uses. -/
def Row.Faithful (r : Row) : Prop :=
  ∀ op, keyOf op = r.key → op &&& usedBits (r.build op) = encode (r.build op)

/-! One lemma for each layout of a row: `k` is the row's key, `t` its family and `s` what selects in the family. -/

section Layouts

variable {op k : Word} {t : BitVec 4}

theorem and_FFFF (op : Word) : op &&& 0xFFFF = op := BitVec.and_allOnes

theorem word_eq_tnnn (ht : fieldT k = t) (h : keyOf op = k) : op &&& 0xFFFF = packNNN t (fieldNNN op) := by
  rw [and_FFFF, ← ht, ← h, fieldT_keyOf, packNNN_fields]

theorem word_eq_txkk (ht : fieldT k = t) (h : keyOf op = k) :
    op &&& 0xFFFF = packXKK t (fieldX op) (fieldKK op) := by
  rw [and_FFFF, ← ht, ← h, fieldT_keyOf, packXKK_fields]

theorem word_eq_txyn (ht : fieldT k = t) (h : keyOf op = k) :
    op &&& 0xFFFF = packXYN t (fieldX op) (fieldY op) (fieldN op) := by
  rw [and_FFFF, ← ht, ← h, fieldT_keyOf, packXYN_fields]

theorem word_eq_txy (ht : fieldT k = t) (h : keyOf op = k) :
    op &&& 0xFFF0 = packXYN t (fieldX op) (fieldY op) 0x0 := by
  rw [and_FFF0, ← ht, ← h, fieldT_keyOf]

section Byte

variable {s : Byte} (ht : fieldT k = t ∧ ByteFamily t) (hs : fieldKK k = s) (h : keyOf op = k)

include ht hs h

theorem selector_of_byteKey : fieldT op = t ∧ fieldKK op = s := by
  obtain ⟨rfl, hb⟩ := ht
  subst hs h
  rw [fieldT_keyOf] at hb ⊢
  exact ⟨rfl, (fieldKK_keyOf hb).symm⟩

theorem word_eq_txs : op &&& 0xFFFF = packXKK t (fieldX op) s := by
  obtain ⟨rfl, rfl⟩ := selector_of_byteKey ht hs h
  rw [and_FFFF, packXKK_fields]

theorem word_eq_ts : op &&& 0xF0FF = packXKK t 0 s := by
  obtain ⟨rfl, rfl⟩ := selector_of_byteKey ht hs h
  exact and_F0FF op

end Byte

section Alu

variable {s : Fin 16} (ht : fieldT k = 0x8) (hs : fieldN k = s) (h : keyOf op = k)

include ht hs h

theorem selector_of_aluKey : fieldT op = 0x8 ∧ fieldN op = s := by
  subst hs h
  rw [fieldT_keyOf] at ht
  exact ⟨ht, (fieldN_keyOf ht).symm⟩

theorem word_eq_8xys : op &&& 0xFFFF = packXYN 0x8 (fieldX op) (fieldY op) s := by
  obtain ⟨ht', rfl⟩ := selector_of_aluKey ht hs h
  rw [and_FFFF, ← ht', packXYN_fields]

theorem word_eq_8xs : op &&& 0xFF0F = packXYN 0x8 (fieldX op) 0 s := by
  obtain ⟨ht', rfl⟩ := selector_of_aluKey ht hs h
  rw [and_FF0F, ht']

end Alu

end Layouts

theorem faithful_of_mem_dispatchLow : ∀ r ∈ dispatchLow, r.Faithful := by
  simp only [dispatchLow, List.forall_mem_cons, List.not_mem_nil, false_imp_iff, implies_true, and_true, Row.Faithful,
    row, usedBits, encode]
  exact ⟨fun _ => word_eq_ts (by decide) (by decide), fun _ => word_eq_ts (by decide) (by decide),
    fun _ => word_eq_tnnn (by decide), fun _ => word_eq_tnnn (by decide),
    fun _ => word_eq_txkk (by decide), fun _ => word_eq_txkk (by decide),
    fun _ => word_eq_txy (by decide), fun _ => word_eq_txkk (by decide),
    fun _ => word_eq_txkk (by decide)⟩

theorem faithful_of_mem_dispatchAlu : ∀ r ∈ dispatchAlu, r.Faithful := by
  simp only [dispatchAlu, List.forall_mem_cons, List.not_mem_nil, false_imp_iff, implies_true, and_true, Row.Faithful,
    row, usedBits, encode]
  exact ⟨fun _ => word_eq_8xys (by decide) (by decide), fun _ => word_eq_8xys (by decide) (by decide),
    fun _ => word_eq_8xys (by decide) (by decide), fun _ => word_eq_8xys (by decide) (by decide),
    fun _ => word_eq_8xys (by decide) (by decide), fun _ => word_eq_8xys (by decide) (by decide),
    fun _ => word_eq_8xs (by decide) (by decide), fun _ => word_eq_8xys (by decide) (by decide),
    fun _ => word_eq_8xs (by decide) (by decide)⟩

theorem faithful_of_mem_dispatchMid : ∀ r ∈ dispatchMid, r.Faithful := by
  simp only [dispatchMid, List.forall_mem_cons, List.not_mem_nil, false_imp_iff, implies_true, and_true, Row.Faithful,
    row, usedBits, encode]
  exact ⟨fun _ => word_eq_txy (by decide), fun _ => word_eq_tnnn (by decide),
    fun _ => word_eq_tnnn (by decide), fun _ => word_eq_txkk (by decide),
    fun _ => word_eq_txyn (by decide), fun _ => word_eq_txs (by decide) (by decide),
    fun _ => word_eq_txs (by decide) (by decide)⟩

theorem faithful_of_mem_dispatchHigh : ∀ r ∈ dispatchHigh, r.Faithful := by
  simp only [dispatchHigh, List.forall_mem_cons, List.not_mem_nil, false_imp_iff, implies_true, and_true, Row.Faithful,
    row, usedBits, encode]
  and_intros <;> exact fun _ => word_eq_txs (by decide) (by decide)

theorem faithful_of_mem_dispatch : ∀ r ∈ dispatch, r.Faithful := by
  simp only [dispatch, List.forall_mem_append]
  exact ⟨⟨⟨faithful_of_mem_dispatchLow, faithful_of_mem_dispatchAlu⟩, faithful_of_mem_dispatchMid⟩,
    faithful_of_mem_dispatchHigh⟩

/-- The configuration has the instruction a row builds exactly if it has the row. -/
theorem wellFormed_of_mem_dispatch (b : Bool) (op : Word) :
    ∀ r ∈ dispatch, (r.build op).wellFormed b = (b || !r.needs8xy0) := by
  simp [dispatch, dispatchLow, dispatchAlu, dispatchMid, dispatchHigh, row, Instr.wellFormed]

/-- Settles O2: the word has the key of a row that is present, and the row is faithful to the word. -/
theorem decodedWordIsItsInstruction : Obligations.DecodedWordIsItsInstruction := by
  unfold Obligations.DecodedWordIsItsInstruction
  intro b op i h
  obtain ⟨r, hr, hkey, hpresent, rfl⟩ := exists_row_of_decodeWord h
  exact ⟨(wellFormed_of_mem_dispatch b op r hr).trans hpresent, faithful_of_mem_dispatch r hr op hkey.symm⟩

/-! ## The invalid words (spec/30_encoding.md R89) -/

section Invalid

variable {op : Word} {b : Bool}

theorem presentKeys_eq (b : Bool) : presentKeys b =
    [0x00E0, 0x00EE, 0x1000, 0x2000, 0x3000, 0x4000, 0x5000, 0x6000, 0x7000] ++ (if b then [0x8000] else []) ++
    [0x8001, 0x8002, 0x8003, 0x8004, 0x8005, 0x8006, 0x8007, 0x800E, 0x9000, 0xA000, 0xB000, 0xC000, 0xD000,
      0xE09E, 0xE0A1, 0xF007, 0xF00A, 0xF015, 0xF018, 0xF01E, 0xF029, 0xF033, 0xF055, 0xF065] := by
  cases b <;> rfl

theorem keyOf_of_mem_presentKeys : ∀ k ∈ presentKeys b, keyOf k = k := by
  cases b <;> simp [presentKeys_eq, keyOf, familyMask, fieldT]

/-- What the keys present in the family `t` have in the field `f`. -/
def selectors {α : Type} (b : Bool) (f : Word → α) (t : BitVec 4) : List α :=
  ((presentKeys b).filter (fieldT · == t)).map f

/-- Where the key is the family and the field `f`, a word has no row exactly if no present key of its family has its
field `f`. -/
theorem decodeWord_eq_error_iff_of_field {α : Type} (f : Word → α)
    (hf : ∀ k, fieldT k = fieldT op → (keyOf k = keyOf op ↔ f k = f op)) :
    decodeWord b op = .error (.invalidOpcode op) ↔ f op ∉ selectors b f (fieldT op) := by
  simp only [decodeWord_eq_error_iff, selectors, List.mem_map, List.mem_filter, beq_iff_eq]
  refine not_congr ⟨fun h => ⟨keyOf op, ⟨h, fieldT_keyOf op⟩, ?_⟩, ?_⟩
  · exact (hf _ (fieldT_keyOf op)).1 (keyOf_of_mem_presentKeys _ h)
  · rintro ⟨k, ⟨hk, ht⟩, he⟩
    rwa [← (hf k ht).2 he, keyOf_of_mem_presentKeys k hk]

theorem selectors_0 (b : Bool) : selectors b fieldKK 0x0 = [0xE0, 0xEE] := by
  cases b <;> simp [selectors, presentKeys_eq, fieldT, fieldKK]

theorem selectors_8 (b : Bool) :
    selectors b fieldN 0x8 = (if b then [0x0] else []) ++ [0x1, 0x2, 0x3, 0x4, 0x5, 0x6, 0x7, 0xE] := by
  cases b <;> simp [selectors, presentKeys_eq, fieldT, fieldN] <;> rfl

theorem selectors_E (b : Bool) : selectors b fieldKK 0xE = [0x9E, 0xA1] := by
  cases b <;> simp [selectors, presentKeys_eq, fieldT, fieldKK]

theorem selectors_F (b : Bool) :
    selectors b fieldKK 0xF = [0x07, 0x0A, 0x15, 0x18, 0x1E, 0x29, 0x33, 0x55, 0x65] := by
  cases b <;> simp [selectors, presentKeys_eq, fieldT, fieldKK]

/-- The low nibbles of family 0x8 that no row has. -/
theorem not_mem_selectors_8_iff : ∀ (b : Bool) (n : Fin 16), n ∉ selectors b fieldN 0x8 ↔
    n = 0x8 ∨ n = 0x9 ∨ n = 0xA ∨ n = 0xB ∨ n = 0xC ∨ n = 0xD ∨ n = 0xF ∨ (n = 0x0 ∧ b = false) := by
  simp only [selectors_8]
  decide

theorem mem_presentKeys_of_loneFamily : ∀ b t, LoneFamily t → t ++ 0#12 ∈ presentKeys b := by decide

theorem decodeWord_ne_error_of_loneFamily (h : LoneFamily (fieldT op)) :
    decodeWord b op ≠ .error (.invalidOpcode op) := by
  rw [Ne, decodeWord_eq_error_iff, not_not, keyOf_of_loneFamily h]
  exact mem_presentKeys_of_loneFamily b _ h

/-- Settles O3: family by family, by the field that selects in it. -/
theorem invalidWordsExactly : Obligations.InvalidWordsExactly := by
  unfold Obligations.InvalidWordsExactly
  intro b op
  have byteFamily (h : ByteFamily (fieldT op)) :=
    decodeWord_eq_error_iff_of_field (b := b) fieldKK fun _ => keyOf_eq_iff_of_byteFamily h
  rcases family_cases (fieldT op) with ht | ht | ht | ht | ht
  · rw [byteFamily (.inl ht), ht, selectors_0]
    simp [invalidWord, ht]
  · rw [decodeWord_eq_error_iff_of_field fieldN fun _ => keyOf_eq_iff_of_aluFamily ht, ht, not_mem_selectors_8_iff]
    simp [invalidWord, ht]
  · rw [byteFamily (.inr (.inl ht)), ht, selectors_E]
    simp [invalidWord, ht]
  · rw [byteFamily (.inr (.inr ht)), ht, selectors_F]
    simp [invalidWord, ht]
  · refine iff_of_false (decodeWord_ne_error_of_loneFamily ht) ?_
    obtain ⟨h0, h8, hE, hF⟩ := ht
    unfold invalidWord
    simp only [h0, h8, hE, hF, false_and, or_self, not_false_eq_true]

end Invalid

end Sys2Proof

namespace Sys2Proof.Machine

variable {s t : State}

/-! ## PC stays bounded (spec/40_cycle.md R112) -/

/-- The bound reads PC and the stack entries alone. -/
theorem State.PcBounded.of_parts (hs : s.PcBounded) (hpc : t.pc = s.pc) (hstack : t.stack = s.stack) : t.PcBounded where
  pc := hpc ▸ hs.pc
  stack := hstack ▸ hs.stack

theorem State.PcBounded.jump (hs : s.PcBounded) {a : Word} (ha : a.toNat ≤ 0x10FE) : (s.jump a).PcBounded where
  pc := ha
  stack := hs.stack

theorem State.PcBounded.push (hs : s.PcBounded) {w : Word} (hw : w.toNat ≤ 0x1000) {k : Nat} (hk : k < 16)
    (n : Fin 17) : State.PcBounded { s with stack := s.stack.set k w hk, free := n } where
  pc := hs.pc
  stack j := by
    show (s.stack.set k w hk)[j.val].toNat ≤ 0x1000
    rw [Vector.getElem_set]
    split
    case isTrue => exact hw
    case isFalse => exact hs.stack j

/-- JP and CALL reach at most 0xFFF. -/
theorem toNat_addrOf_lt (nnn : Addr12) : (addrOf nnn).toNat < 0x1000 := by
  unfold addrOf
  rw [BitVec.toNat_setWidth_of_le (by decide)]
  exact nnn.isLt

/-- JP V0,NNN reaches at most 0xFFF + 0xFF. -/
theorem toNat_indexedTarget_le (nnn : Addr12) (b : Byte) : (trunc16 ((addrOf nnn).toNat + b.toNat)).toNat ≤ 0x10FE := by
  have hnnn := toNat_addrOf_lt nnn
  have hb := b.isLt
  unfold trunc16
  rw [BitVec.toNat_ofNat]
  omega

/-- Adding 2 to a word that is not near 0xFFFF wraps nothing. -/
theorem toNat_add_two_le {pc : Word} {n : Nat} (h : pc.toNat ≤ n) (hn : n + 2 < 0x10000) :
    (pc + 2).toNat ≤ n + 2 := by
  rw [BitVec.toNat_add, show (2 : Word).toNat = 2 from rfl]
  omega

section Instruction

/-! A handler runs with PC at most 0x1000, which is what CALL pushes and a skip starts from. -/

variable (hs : s.PcBounded) (hpc : s.pc.toNat ≤ 0x1000)

include hs hpc

theorem State.PcBounded.skipIf (c : Bool) : (s.skipIf c).PcBounded := by
  cases c with
  | false => exact hs
  | true => exact hs.jump ((toNat_add_two_le hpc (by decide)).trans (by decide))

omit hpc in
theorem State.PcBounded.execRet (h : execRet s = .next t) : t.PcBounded := by
  unfold Machine.execRet at h
  rcases s.pop_cases with ⟨_, e⟩ | ⟨hfree, e⟩
  · rw [e] at h; cases h; exact hs.of_parts rfl rfl
  · rw [e] at h; cases h
    exact State.PcBounded.mk ((hs.stack ⟨s.free.val, hfree⟩).trans (by decide)) hs.stack

theorem State.PcBounded.execCall {nnn : Addr12} (h : execCall nnn s = .next t) : t.PcBounded := by
  unfold Machine.execCall at h
  rcases s.push_cases s.pc with ⟨_, e⟩ | ⟨_, e⟩
  · rw [e] at h; cases h; exact hs.of_parts rfl rfl
  · rw [e] at h; cases h
    exact (hs.push hpc _ _).jump ((toNat_addrOf_lt nnn).le.trans (by decide))

theorem State.PcBounded.execSkp {x : Reg} (h : execSkp x s = .next t) : t.PcBounded := by
  unfold Machine.execSkp at h
  dsimp only at h
  cases hk : s.keyAt (s.reg x).toNat with
  | none => rw [hk] at h; cases h; exact hs.of_parts rfl rfl
  | some pressed => rw [hk] at h; cases h; exact hs.skipIf hpc _

theorem State.PcBounded.execSknp {x : Reg} (h : execSknp x s = .next t) : t.PcBounded := by
  unfold Machine.execSknp at h
  dsimp only at h
  cases hk : s.keyAt (s.reg x).toNat with
  | none => rw [hk] at h; cases h; exact hs.of_parts rfl rfl
  | some pressed => rw [hk] at h; cases h; exact hs.skipIf hpc _

/-- A control transfer keeps the bound by its own target, every other instruction by its frame. -/
theorem State.PcBounded.exec {i : Instr} (h : exec i s = .next t) : t.PcBounded := by
  cases i with
  | ret => exact hs.execRet h
  | call => exact hs.execCall hpc h
  | skp => exact hs.execSkp hpc h
  | sknp => exact hs.execSknp hpc h
  | jp nnn => cases h; exact hs.jump ((toNat_addrOf_lt nnn).le.trans (by decide))
  | jpV0 nnn => cases h; exact hs.jump (toNat_indexedTarget_le nnn _)
  | seVxKK | sneVxKK | seVxVy | sneVxVy => cases h; exact hs.skipIf hpc _
  | _ =>
    obtain ⟨u, e, hu⟩ := exec_frame s _
    cases e.symm.trans h
    exact hs.of_parts (hu.pc rfl) (hu.stack rfl).1

end Instruction

/-- A fetch succeeds only where both bytes lie in memory, so the advanced PC is at most 0x1000; a failed one leaves
PC. -/
theorem State.PcBounded.fetchExecute (hs : s.PcBounded) (h : s.fetchExecute = .next t) : t.PcBounded := by
  have hadvance (hlt : s.pc.toNat + 1 < 4096) : (s.pc + 2).toNat ≤ 0x1000 :=
    toNat_add_two_le (n := 4094) (by omega) (by decide)
  have hfetched (w : Word) (hlt : s.pc.toNat + 1 < 4096) : (s.latchIpc.advance w).PcBounded :=
    ⟨(hadvance hlt).trans (by decide), hs.stack⟩
  rcases s.fetchExecute_cases with ⟨_, _, e⟩ | ⟨w, hlt, e⟩ | ⟨w, i, hlt, _, e⟩
  · cases e.symm.trans h; exact hs.of_parts rfl rfl
  · cases e.symm.trans h; exact (hfetched w hlt).of_parts rfl rfl
  · exact (hfetched w hlt).exec (hadvance hlt) (e.symm.trans h)

theorem State.PcBounded.endCycle (hs : s.PcBounded) : s.endCycle.PcBounded := by
  rcases s.endCycle_cases with ⟨_, e⟩ | ⟨_, e⟩
  · rw [e]; exact hs
  · rw [e]; exact hs.of_parts rfl rfl

theorem State.PcBounded.cycle (hs : s.PcBounded) (h : s.cycle = .next t) : t.PcBounded := by
  have hcheck : s.afterCheck.PcBounded := hs.of_parts rfl rfl
  rcases s.cycle_cases with ⟨_, e⟩ | ⟨_, _, e⟩ | ⟨_, _, e⟩
  · cases e.symm.trans h; exact hs.of_parts rfl rfl
  · obtain ⟨u, hu, rfl⟩ := endCycleOf_next (e.symm.trans h)
    exact (hcheck.fetchExecute hu).endCycle
  · cases e.symm.trans h; exact hcheck.of_parts rfl rfl

theorem State.PcBounded.cpuStep (hs : s.PcBounded) (h : s.cpuStep = .next t) : t.PcBounded := by
  rcases s.cpuStep_cases with ⟨_, e⟩ | ⟨_, e⟩ | ⟨_, e⟩ | ⟨_, e⟩
  · exact hs.cycle (e.symm.trans h)
  · cases e.symm.trans h; exact hs
  · cases e.symm.trans h
  · cases e.symm.trans h

theorem State.PcBounded.answerKey {k : Fin 16} (hs : s.PcBounded) (h : s.answerKey k = .next t) : t.PcBounded := by
  rcases s.answerKey_cases k with ⟨_, _, e⟩ | ⟨_, e⟩
  · cases e.symm.trans h; exact hs.of_parts rfl rfl
  · cases e.symm.trans h

theorem State.PcBounded.loadProgram {bytes : List Byte} (hs : s.PcBounded) (h : s.loadProgram bytes = .next t) :
    t.PcBounded := by
  rcases s.loadProgram_cases bytes with ⟨_, _, e⟩ | ⟨_, _, e⟩ | ⟨_, e⟩
  · cases e.symm.trans h; exact hs.of_parts rfl rfl
  · cases e.symm.trans h; exact hs.of_parts rfl rfl
  · cases e.symm.trans h

/-- Every agent's move keeps PC bounded. -/
theorem State.PcBounded.runMove {m : Move} (hs : s.PcBounded) (h : s.runMove m = .next t) : t.PcBounded := by
  cases m with
  | cpu => exact hs.cpuStep h
  | keyAnswer k => exact hs.answerKey h
  | load bytes => exact hs.loadProgram h
  | tickDT | tickST | setAlive | setKeys | supplyRnd | command =>
    have hcpu := sameCpuPart_of_runMove (by simp) (by simp) (by simp) h
    exact hs.of_parts hcpu.pc hcpu.stack

/-- Settles O54: a fetch advances PC from below 4095 alone, and each control transfer from there has a bounded target. -/
theorem stepKeepsPcBounded : Obligations.StepKeepsPcBounded := by
  unfold Obligations.StepKeepsPcBounded
  intro s t hs h
  rcases step_cases s with ⟨_, e⟩ | ⟨m, rest, _, e⟩
  · exact hs.cpuStep (e.symm.trans h)
  · have hrest : State.PcBounded { s with sched := rest } := hs.of_parts rfl rfl
    exact hrest.runMove (e.symm.trans h)

/-! ## Where the machine stops (spec/40_cycle.md R101, spec/60_exceptions.md R220, R271) -/

/-- No instruction stops the machine: whatever the fetch and the handler do, the outcome is a next state. -/
theorem State.exists_next_fetchExecute (s : State) : ∃ t, s.fetchExecute = .next t := by
  rcases s.fetchExecute_cases with ⟨_, _, e⟩ | ⟨_, _, e⟩ | ⟨w, i, _, _, e⟩
  · exact ⟨_, e⟩
  · exact ⟨_, e⟩
  · obtain ⟨t, ht, _⟩ := exec_surroundings (s.latchIpc.advance w) i
    exact ⟨t, e.trans ht⟩

theorem State.exists_next_cycle (s : State) : ∃ t, s.cycle = .next t := by
  rcases s.cycle_cases with ⟨_, e⟩ | ⟨_, _, e⟩ | ⟨_, _, e⟩
  · exact ⟨_, e⟩
  · obtain ⟨t, ht⟩ := s.afterCheck.exists_next_fetchExecute
    exact ⟨t.endCycle, by rw [e, ht]; rfl⟩
  · exact ⟨_, e⟩

theorem State.cpuStep_eq_fault_iff {f : Fault} : s.cpuStep = .fault f ↔
    (s.phase = .ended ∧ f = .runEnded) ∨ (s.phase = .loadFailed ∧ f = .loadFailed) := by
  rcases s.cpuStep_cases with ⟨hp, e⟩ | ⟨hp, e⟩ | ⟨hp, e⟩ | ⟨hp, e⟩
  · obtain ⟨t, ht⟩ := s.exists_next_cycle
    simp [e, ht, hp]
  · rcases hp with hp | ⟨x, hp⟩ <;> simp [e, hp]
  · simp [e, hp, eq_comm]
  · simp [e, hp, eq_comm]

theorem State.cpuStep_ne_refused {r : Refusal} : s.cpuStep ≠ .refused r := by
  rcases s.cpuStep_cases with ⟨_, e⟩ | ⟨_, e⟩ | ⟨_, e⟩ | ⟨_, e⟩
  · obtain ⟨t, ht⟩ := s.exists_next_cycle
    rw [e, ht]; nofun
  all_goals rw [e]; nofun

theorem State.answerKey_eq_refused_iff {k : Fin 16} {r : Refusal} :
    s.answerKey k = .refused r ↔ (∀ x, s.phase ≠ .waitKey x) ∧ r = .keyNotRequested := by
  rcases s.answerKey_cases k with ⟨x, hp, e⟩ | ⟨hp, e⟩
  · simp [e, hp]
  · simp [e, hp, eq_comm]

theorem State.loadProgram_eq_refused_iff {bytes : List Byte} {r : Refusal} :
    s.loadProgram bytes = .refused r ↔ s.phase ≠ .idle ∧ r = .loadOutsideIdle := by
  rcases s.loadProgram_cases bytes with ⟨hp, _, e⟩ | ⟨hp, _, e⟩ | ⟨hp, e⟩
  · simp [e, hp]
  · simp [e, hp]
  · simp [e, hp, eq_comm]

/-- The CPU's move alone faults. -/
theorem State.runMove_eq_fault_iff {m : Move} {f : Fault} :
    s.runMove m = .fault f ↔ m = .cpu ∧ s.cpuStep = .fault f := by
  cases m with
  | cpu => simp [State.runMove]
  | keyAnswer k => rcases s.answerKey_cases k with ⟨_, _, e⟩ | ⟨_, e⟩ <;> simp [State.runMove, e]
  | load bytes => rcases s.loadProgram_cases bytes with ⟨_, _, e⟩ | ⟨_, _, e⟩ | ⟨_, e⟩ <;> simp [State.runMove, e]
  | tickDT | tickST | setAlive | setKeys | supplyRnd | command => simp [State.runMove]

/-- A load and a key answer alone are refused. -/
theorem State.runMove_eq_refused_iff {m : Move} {r : Refusal} : s.runMove m = .refused r ↔
    (s.phase ≠ .idle ∧ r = .loadOutsideIdle ∧ ∃ bytes, m = .load bytes) ∨
    ((∀ x, s.phase ≠ .waitKey x) ∧ r = .keyNotRequested ∧ ∃ k, m = .keyAnswer k) := by
  cases m with
  | cpu => simp [State.runMove, State.cpuStep_ne_refused]
  | keyAnswer k => simp [State.runMove, State.answerKey_eq_refused_iff]
  | load bytes => simp [State.runMove, State.loadProgram_eq_refused_iff]
  | tickDT | tickST | setAlive | setKeys | supplyRnd | command => simp [State.runMove]

theorem State.cpuNext_iff_of_sched {m : Move} {rest : List Move} (h : s.sched = m :: rest) :
    s.cpuNext ↔ m = .cpu := by
  simp [State.cpuNext, h]

/-- Settles O57: the move the schedule names decides, and no cycle stops. -/
theorem stepStopsOnlyWhereTheSpecDoes : Obligations.StepStopsOnlyWhereTheSpecDoes := by
  unfold Obligations.StepStopsOnlyWhereTheSpecDoes
  intro s
  rcases step_cases s with ⟨hsched, e⟩ | ⟨m, rest, hsched, e⟩
  · have hcpu : s.cpuNext := .inl hsched
    refine ⟨fun f => ?_, fun r => ?_⟩
    · rw [e, State.cpuStep_eq_fault_iff]
      exact (and_iff_right hcpu).symm
    · rw [e]
      exact iff_of_false State.cpuStep_ne_refused (by simp [hsched])
  · refine ⟨fun f => ?_, fun r => ?_⟩
    · rw [e, State.runMove_eq_fault_iff, State.cpuStep_eq_fault_iff, State.cpuNext_iff_of_sched hsched]
    · rw [e, State.runMove_eq_refused_iff]
      simp [hsched]

/-! ## The final phases (spec/40_cycle.md R101, R114, spec/60_exceptions.md R240) -/

/-- What a final phase fixes: the CPU's part, the last snapshot, and after the end the timers and the tone port. -/
structure SameFinalPart (s t : State) : Prop extends SameCpuPart s t where
  frame : t.frame = s.frame
  timers : s.phase = .ended → t.dt = s.dt ∧ t.st = s.st ∧ t.tone = s.tone

theorem SameFinalPart.refl (s : State) : SameFinalPart s s :=
  { SameCpuPart.refl s with frame := rfl, timers := fun _ => ⟨rfl, rfl, rfl⟩ }

/-- A tick of either timer leaves the last snapshot, and in Ended is no step. -/
theorem SameFinalPart.unlessEnded {u : State} (hcpu : SameCpuPart s u) (hframe : u.frame = s.frame) :
    SameFinalPart s (s.unlessEnded u) := by
  rcases s.unlessEnded_cases u with ⟨_, e⟩ | ⟨hp, e⟩
  · rw [e]; exact SameFinalPart.refl s
  · rw [e]; exact { hcpu with frame := hframe, timers := fun h => absurd h hp }

/-- In a final phase the CPU's move faults, a load and a key answer are refused, and the other moves write nothing of
the final part. -/
theorem sameFinalPart_of_runMove {m : Move} (hfinal : s.phase = .ended ∨ s.phase = .loadFailed)
    (h : s.runMove m = .next t) : SameFinalPart s t := by
  cases m with
  | cpu =>
    have hfault : ∃ f, s.cpuStep = .fault f := by
      rcases hfinal with hp | hp
      · exact ⟨_, State.cpuStep_eq_fault_iff.2 (.inl ⟨hp, rfl⟩)⟩
      · exact ⟨_, State.cpuStep_eq_fault_iff.2 (.inr ⟨hp, rfl⟩)⟩
    obtain ⟨f, e⟩ := hfault
    cases e.symm.trans h
  | keyAnswer k =>
    have hp : ∀ x, s.phase ≠ .waitKey x := by rcases hfinal with hp | hp <;> simp [hp]
    cases (State.answerKey_eq_refused_iff.2 ⟨hp, rfl⟩).symm.trans h
  | load bytes =>
    have hp : s.phase ≠ .idle := by rcases hfinal with hp | hp <;> simp [hp]
    cases (State.loadProgram_eq_refused_iff.2 ⟨hp, rfl⟩).symm.trans h
  | tickDT => cases h; exact SameFinalPart.unlessEnded s.tickDT_sameCpuPart s.tickDT_frame
  | tickST => cases h; exact SameFinalPart.unlessEnded s.tickST_sameCpuPart s.tickST_frame
  | setAlive | setKeys | supplyRnd | command => cases h; exact { SameFinalPart.refl s with }

/-- Settles O60: every move that answers a next state leaves the final part. -/
theorem finalPhasesAreFinal : Obligations.FinalPhasesAreFinal := by
  unfold Obligations.FinalPhasesAreFinal
  intro s t hfinal h
  have hsame : SameFinalPart s t := by
    rcases step_cases s with ⟨_, e⟩ | ⟨m, rest, _, e⟩
    · exact sameFinalPart_of_runMove (m := .cpu) hfinal (e.symm.trans h)
    · exact { sameFinalPart_of_runMove (s := { s with sched := rest }) hfinal (e.symm.trans h) with }
  exact ⟨hsame.phase, hsame.v, hsame.i, hsame.pc, hsame.mem, hsame.stack, hsame.free, hsame.fb, hsame.key, hsame.mon,
    hsame.clog, hsame.frame, hsame.timers⟩

/-! ## The fetch of a cycle, by where PC lies (spec/40_cycle.md R104 to R108) -/

/-- Where both bytes lie in memory, the word they form runs with the address and the word latched. -/
theorem State.fetchExecute_of_read {hi lo : Byte} (hhi : s.mem.read s.pc.toNat = some hi)
    (hlo : s.mem.read (s.pc.toNat + 1) = some lo) : s.fetchExecute = (s.fetched (hi ++ lo)).runWord (hi ++ lo) := by
  unfold State.fetchExecute
  rw [State.fetchWord_of_read (s := s.latchIpc) hhi hlo]
  rfl

/-- The first failing index is 4096 where the high byte alone lies in memory, else PC. -/
theorem State.fetchExecute_of_le_pc (h : 4095 ≤ s.pc.toNat) :
    s.fetchExecute = .next (s.latchIpc.raise .outOfBoundsAddress (max s.pc.toNat 4096)) := by
  unfold State.fetchExecute
  rcases s.latchIpc.fetchWord_cases with ⟨hpc, e⟩ | ⟨hpc, e⟩ | ⟨hpc, _⟩ <;> rw [State.latchIpc_pc] at hpc
  · rw [e, Nat.max_eq_left hpc]; rfl
  · rw [e, hpc]; rfl
  · omega

theorem State.runWord_of_decode {w : Word} {i : Instr} (h : decodeWord s.has8xy0 w = .ok i) :
    s.runWord w = exec i s := by
  unfold State.runWord
  rw [h]

theorem State.runWord_of_decodeError {w : Word} {d : DecodeError} (h : decodeWord s.has8xy0 w = .error d) :
    s.runWord w = .next (s.raise .invalidOpcode w.toNat) := by
  unfold State.runWord
  rw [h]

/-- A word whose key no present row has is invalid (spec/30_encoding.md R89). -/
theorem decodeWord_eq_error_of_no_row {b : Bool} {op : Word}
    (h : ∀ r ∈ dispatch, r.key = keyOf op → r.needs8xy0 = true ∧ b = false) :
    decodeWord b op = .error (.invalidOpcode op) := by
  rw [decodeWord_eq_error_iff, mem_presentKeys_iff]
  rintro ⟨r, hr, hselects⟩
  obtain ⟨hkey, hpresent⟩ := Bool.and_eq_true_iff.1 hselects
  obtain ⟨hneeds, hb⟩ := h r hr (beq_iff_eq.1 hkey)
  simp [hneeds, hb] at hpresent

/-! ## The step of a CPU that moves, by what the cycle finds (spec/40_cycle.md R100) -/

/-- When the CPU moves, the step is its own, on the state whose schedule has moved on. -/
theorem step_of_cpuNext (h : s.cpuNext) : step s = State.cpuStep { s with sched := s.sched.tail } := by
  cases s
  rcases h with hs | ⟨rest, hs⟩
  · cases hs; rfl
  · cases hs; rfl

theorem State.cpuStep_of_ready (hp : s.phase = .ready) : s.cpuStep = s.cycle := by
  unfold State.cpuStep
  rw [hp]

/-- A Ready CPU that moves runs a cycle. -/
theorem step_of_ready (hcpu : s.cpuNext) (hp : s.phase = .ready) :
    step s = State.cycle { s with sched := s.sched.tail } :=
  (step_of_cpuNext hcpu).trans (State.cpuStep_of_ready (s := { s with sched := s.sched.tail }) hp)

/-- A permitted cycle fetches and executes after the checks, and then ends. -/
theorem step_of_atPermitted (h : s.atPermitted) : step s = endCycleOf s.checked.fetchExecute := by
  obtain ⟨⟨hcpu, hp, ha⟩, hpermit⟩ := h
  rw [step_of_ready hcpu hp]
  rcases State.cycle_cases { s with sched := s.sched.tail } with ⟨ha', _⟩ | ⟨_, _, e⟩ | ⟨_, hpermit', _⟩
  · exact absurd ha (ne_true_of_eq_false ha')
  · exact e
  · exact absurd hpermit (ne_true_of_eq_false hpermit')

/-- A permitted cycle whose instruction does not block clears `step` and emits a snapshot. -/
theorem step_of_atPermitted_of_not_waitKey (h : s.atPermitted) (ht : s.checked.fetchExecute = .next t)
    (hp : ∀ x, t.phase ≠ .waitKey x) :
    step s = .next (State.render { t with mon := { t.mon with step := false } }) := by
  rw [step_of_atPermitted h, ht]
  rcases t.endCycle_cases with ⟨⟨x, hx⟩, _⟩ | ⟨_, e⟩
  · exact absurd hx (hp x)
  · exact congrArg _ e

/-- The checks before the fetch leave the CPU Ready. -/
theorem State.phase_checked_of_atPermitted (h : s.atPermitted) : ∀ x, s.checked.phase ≠ .waitKey x := by
  obtain ⟨⟨_, hp, _⟩, _⟩ := h
  simp [State.checked, hp]

/-- Settles O8: the fetch reads the two bytes and the decoded instruction runs; the cycle's end asks the phase it left. -/
theorem stepRunsTheDecodedInstruction : Obligations.StepRunsTheDecodedInstruction := by
  unfold Obligations.StepRunsTheDecodedInstruction
  intro s t hi lo i hs hhi hlo hdecode hexec
  have hrun : s.checked.fetchExecute = .next t := by
    rw [State.fetchExecute_of_read (s := s.checked) hhi hlo,
      State.runWord_of_decode (s := s.checked.fetched (hi ++ lo)) hdecode, hexec]
  refine ⟨fun ⟨x, hx⟩ => ?_, fun hp => step_of_atPermitted_of_not_waitKey hs hrun hp⟩
  rw [step_of_atPermitted hs, hrun]
  rcases t.endCycle_cases with ⟨_, e⟩ | ⟨hp, _⟩
  · exact congrArg _ e
  · exact absurd hx (hp x)

/-- Settles O9: the failed fetch raises on the checked state, and the cycle ends. -/
theorem fetchOutsideMemoryRaises : Obligations.FetchOutsideMemoryRaises := by
  unfold Obligations.FetchOutsideMemoryRaises
  intro s hs hpc
  exact step_of_atPermitted_of_not_waitKey hs (State.fetchExecute_of_le_pc (s := s.checked) hpc)
    (State.phase_checked_of_atPermitted (s := s) hs)

/-- Settles O10: the word is fetched and has no row, and the record is raised on the fetched state. -/
theorem invalidWordIsReportedAndSkipped : Obligations.InvalidWordIsReportedAndSkipped := by
  unfold Obligations.InvalidWordIsReportedAndSkipped
  intro s hi lo hs hhi hlo hrow
  have hrun : s.checked.fetchExecute =
      .next ((s.checked.fetched (hi ++ lo)).raise .invalidOpcode (hi ++ lo).toNat) := by
    rw [State.fetchExecute_of_read (s := s.checked) hhi hlo]
    exact State.runWord_of_decodeError (decodeWord_eq_error_of_no_row hrow)
  exact step_of_atPermitted_of_not_waitKey hs hrun (State.phase_checked_of_atPermitted (s := s) hs)

/-- Settles O11: the cycle ends at the permission check, with Render alone. -/
theorem unpermittedCycleRunsNoInstruction : Obligations.UnpermittedCycleRunsNoInstruction := by
  unfold Obligations.UnpermittedCycleRunsNoInstruction
  rintro s ⟨hcpu, hp, ha⟩ hpermit
  rw [step_of_ready hcpu hp]
  rcases State.cycle_cases { s with sched := s.sched.tail } with ⟨ha', _⟩ | ⟨_, hpermit', _⟩ | ⟨_, _, e⟩
  · exact absurd ha (ne_true_of_eq_false ha')
  · exact absurd hpermit' (ne_true_of_eq_false hpermit)
  · exact e

theorem State.unlessEnded_of_ended (hp : s.phase = .ended) (u : State) : s.unlessEnded u = s := by
  rcases s.unlessEnded_cases u with ⟨_, e⟩ | ⟨hne, _⟩
  · exact e
  · exact absurd hp hne

/-- Settles O12: the cycle asks the level first, and in Ended no agent but the host has a step. -/
theorem livenessEndsTheRun : Obligations.LivenessEndsTheRun := by
  unfold Obligations.LivenessEndsTheRun
  refine ⟨fun s hcpu hp ha => ?_, fun s hp => ⟨fun hcpu => ?_, fun rest hsched => ?_⟩⟩
  · rw [step_of_ready hcpu hp]
    exact if_neg (ne_true_of_eq_false ha)
  · rw [step_of_cpuNext hcpu]
    exact State.cpuStep_eq_fault_iff.2 (.inl ⟨hp, rfl⟩)
  · rcases hsched with hsched | hsched
    all_goals
      rw [step_of_sched hsched]
      exact congrArg _ (State.unlessEnded_of_ended (s := { s with sched := rest }) hp _)

/-- A waiting CPU has no step of its own (R113). -/
theorem State.cpuStep_of_waitKey {x : Reg} (hp : s.phase = .waitKey x) : s.cpuStep = .next s := by
  unfold State.cpuStep
  rw [hp]

theorem State.answerKey_of_waitKey {x : Reg} (hp : s.phase = .waitKey x) (k : Fin 16) :
    s.answerKey k = .next (s.finishWait x k) := by
  unfold State.answerKey
  rw [hp]

/-- Vx holds the key's code, and the other registers what they held. -/
theorem State.reg_finishWait (x r : Reg) (k : Fin 16) :
    (s.finishWait x k).reg r = if r = x then BitVec.ofNat 8 k.val else s.reg r :=
  s.reg_setReg x r _

theorem State.toNat_reg_finishWait_self (x : Reg) (k : Fin 16) : ((s.finishWait x k).reg x).toNat = k.val := by
  rw [State.reg_finishWait, if_pos rfl, BitVec.toNat_ofNat]
  omega

theorem State.reg_finishWait_of_ne {x r : Reg} (hr : r ≠ x) (k : Fin 16) : (s.finishWait x k).reg r = s.reg r := by
  rw [State.reg_finishWait, if_neg hr]

/-- Settles O13: the waiting CPU only uses up its move, and the answer is the second step of LD Vx,K. -/
theorem keyAnswerCompletesTheWait : Obligations.KeyAnswerCompletesTheWait := by
  unfold Obligations.KeyAnswerCompletesTheWait
  intro s x hp
  refine ⟨fun hcpu => ?_, fun k rest hsched => ?_⟩
  · rw [step_of_cpuNext hcpu]
    exact State.cpuStep_of_waitKey (s := { s with sched := s.sched.tail }) hp
  · rw [step_of_sched hsched]
    exact ⟨_, State.answerKey_of_waitKey (s := { s with sched := rest }) hp k, State.toNat_reg_finishWait_self x k,
      rfl, rfl, rfl, rfl, rfl, fun _ hr => State.reg_finishWait_of_ne (s := { s with sched := rest }) hr k,
      rfl, rfl, rfl, rfl, rfl, rfl⟩

end Sys2Proof.Machine

namespace Sys2Proof.Machine

variable (s : State)

/-! ## Jumps and skips (spec/41_control_flow.md R121, R123 to R127) -/

/-- Extending the literal by zeros keeps its value. -/
@[simp] theorem toNat_addrOf (nnn : Addr12) : (addrOf nnn).toNat = nnn.toNat :=
  BitVec.toNat_setWidth_of_le (by decide)

/-- The target of JP V0,NNN is at most 0xFFF + 0xFF, so the sum does not wrap. -/
theorem toNat_indexedTarget (nnn : Addr12) (v0 : Byte) :
    (trunc16 ((addrOf nnn).toNat + v0.toNat)).toNat = nnn.toNat + v0.toNat := by
  have hnnn := nnn.isLt
  have hv0 := v0.isLt
  unfold trunc16
  rw [toNat_addrOf, BitVec.toNat_ofNat]
  omega

/-- Settles O14: each jump writes PC alone, the first its literal and the second a sum that does not wrap. -/
theorem jumpsSetPc : Obligations.JumpsSetPc := by
  unfold Obligations.JumpsSetPc
  intro nnn s
  exact ⟨decodeEncodeRoundTrip _ (.jp nnn) rfl, decodeEncodeRoundTrip _ (.jpV0 nnn) rfl,
    ⟨_, rfl, toNat_addrOf nnn, Frame.jump s _ rfl⟩,
    ⟨_, rfl, toNat_indexedTarget nnn (s.reg 0), Frame.jump s _ rfl⟩⟩

/-- A skip on equal bytes. -/
theorem State.pc_skipIf_beq (a b : Byte) : (s.skipIf (a == b)).pc = if a = b then s.pc + 2 else s.pc := by
  rw [State.skipIf_pc]
  exact if_congr beq_iff_eq rfl rfl

/-- A skip on different bytes. -/
theorem State.pc_skipIf_bne (a b : Byte) : (s.skipIf (a != b)).pc = if a = b then s.pc else s.pc + 2 := by
  rw [State.skipIf_pc]
  exact (if_congr bne_iff_ne rfl rfl).trans (ite_not _ _ _)

/-- Settles O15: each skip writes PC alone, by its comparison. -/
theorem skipsCompareAndAdvance : Obligations.SkipsCompareAndAdvance := by
  unfold Obligations.SkipsCompareAndAdvance
  intro x y n kk s
  obtain ⟨_, _, hse, hsne, _⟩ := ignoredBitsDoNotSelect s.has8xy0 x y n
  exact ⟨decodeEncodeRoundTrip _ (.seVxKK x kk) rfl, decodeEncodeRoundTrip _ (.sneVxKK x kk) rfl, hse, hsne,
    ⟨_, rfl, s.pc_skipIf_beq _ _, Frame.skipIf s _ rfl⟩, ⟨_, rfl, s.pc_skipIf_bne _ _, Frame.skipIf s _ rfl⟩,
    ⟨_, rfl, s.pc_skipIf_beq _ _, Frame.skipIf s _ rfl⟩, ⟨_, rfl, s.pc_skipIf_bne _ _, Frame.skipIf s _ rfl⟩⟩

/-! ## The stack pointer and the free entries (spec/10_state.md R26) -/

theorem State.neg_one_lt_sp_iff : -1 < s.sp ↔ s.free.val ≠ 0 := by unfold State.sp; omega

theorem State.sp_eq_neg_one_iff : s.sp = -1 ↔ s.free.val = 0 := by unfold State.sp; omega

theorem State.sp_lt_fifteen_iff : s.sp < 15 ↔ s.free.val < 16 := by unfold State.sp; omega

theorem State.sp_eq_fifteen_iff : s.sp = 15 ↔ s.free.val = 16 := by unfold State.sp; omega

/-! ## CALL and RET (spec/41_control_flow.md R120, R122) -/

variable {s}

/-- CALL with a free entry puts PC in the next free one and jumps. -/
theorem exec_call_of_free (h : s.free.val ≠ 0) (nnn : Addr12) :
    exec (.call nnn) s = .next (State.jump { s with
      stack := s.stack.set (s.free.val - 1) s.pc (by omega)
      free := ⟨s.free.val - 1, by omega⟩ } (addrOf nnn)) := by
  show execCall nnn s = _
  unfold execCall
  rcases s.push_cases s.pc with ⟨hfull, _⟩ | ⟨_, e⟩
  · exact absurd hfull h
  · rw [e]

/-- CALL on a full stack raises at depth 16. -/
theorem exec_call_of_full (h : s.free.val = 0) (nnn : Addr12) :
    exec (.call nnn) s = .next (s.raise .stackOverflow 16) := by
  show execCall nnn s = _
  unfold execCall
  rcases s.push_cases s.pc with ⟨_, e⟩ | ⟨hfree, _⟩
  · rw [e, State.depth, h]
  · exact absurd h hfree

/-- RET with an entry in use jumps to the one put last, which becomes the next free entry. -/
theorem exec_ret_of_used (h : s.free.val < 16) :
    exec .ret s = .next (State.jump { s with free := ⟨s.free.val + 1, by omega⟩ } s.stack[s.free.val]) := by
  show execRet s = _
  unfold execRet
  rcases s.pop_cases with ⟨hempty, _⟩ | ⟨_, e⟩
  · omega
  · rw [e]

/-- RET on an empty stack raises at depth 0. -/
theorem exec_ret_of_empty (h : s.free.val = 16) : exec .ret s = .next (s.raise .stackUnderflow 0) := by
  show execRet s = _
  unfold execRet
  rcases s.pop_cases with ⟨_, e⟩ | ⟨hused, _⟩
  · rw [e, State.depth, h]
  · omega

/-- The push writes the entry at SP and no other. -/
theorem State.getElem_stack_set (h : s.free.val ≠ 0) (w : Word) (k : Fin 16) :
    (s.stack.set (s.free.val - 1) w (by omega))[k.val] = if (k.val : Int) = s.sp then w else s.stack[k.val] := by
  rw [Vector.getElem_set]
  exact if_congr (by unfold State.sp; omega) rfl rfl

/-- Settles O16: by whether an entry is free, the push and the jump, or the record. -/
theorem callPushesTheReturnAddress : Obligations.CallPushesTheReturnAddress := by
  unfold Obligations.CallPushesTheReturnAddress
  intro nnn s
  refine ⟨fun hsp => ?_, fun hsp => ?_⟩
  · have hfree := s.neg_one_lt_sp_iff.1 hsp
    refine ⟨_, exec_call_of_free hfree nnn, toNat_addrOf nnn, ?_, State.getElem_stack_set hfree s.pc,
      (Frame.setStack s _ _ rfl).trans (Frame.jump _ _ rfl)⟩
    show ((s.free.val - 1 : Nat) : Int) - 1 = (s.free.val : Int) - 1 - 1
    omega
  · exact ⟨_, exec_call_of_full (s.sp_eq_neg_one_iff.1 hsp) nnn, rfl, Frame.raise s _ _ rfl⟩

/-- Settles O17: by whether an entry is in use, the pop and the jump, or the record. -/
theorem retPopsTheReturnAddress : Obligations.RetPopsTheReturnAddress := by
  unfold Obligations.RetPopsTheReturnAddress
  intro s
  refine ⟨fun hsp => ?_, fun hsp => ?_⟩
  · have hused := s.sp_lt_fifteen_iff.1 hsp
    refine ⟨_, exec_ret_of_used hused, ?_, rfl, fun k hk => ?_,
      (Frame.setStack s s.stack _ rfl).trans (Frame.jump _ _ rfl)⟩
    · show ((s.free.val + 1 : Nat) : Int) - 1 = (s.free.val : Int) - 1 + 1
      omega
    · have hk : s.free.val = k.val := by unfold State.sp at hk; omega
      exact getElem_congr_idx hk
  · exact ⟨_, exec_ret_of_empty (s.sp_eq_fifteen_iff.1 hsp), rfl, Frame.raise s _ _ rfl⟩

/-- Settles O18: RET pops the entry the CALL put last, which holds the PC of the CALL. -/
theorem callThenRetReturns : Obligations.CallThenRetReturns := by
  unfold Obligations.CallThenRetReturns
  intro nnn s t u hsp hcall hstack hfree
  have hs := s.neg_one_lt_sp_iff.1 hsp
  cases (exec_call_of_free hs nnn).symm.trans hcall
  have hu : u.free.val = s.free.val - 1 := congrArg Fin.val hfree
  refine ⟨_, exec_ret_of_used (by omega), ?_, Fin.ext (by show u.free.val + 1 = _; omega)⟩
  calc u.stack[u.free.val]
    _ = (s.stack.set (s.free.val - 1) s.pc (by omega))[s.free.val - 1] := getElem_congr hstack hu _
    _ = s.pc := Vector.getElem_set_self _

end Sys2Proof.Machine

namespace Sys2Proof.Machine

variable (s : State)

/-! ## A result and its flag (spec/42_alu.md R140) -/

theorem State.reg_setResultFlag_flag (x : Reg) (r f : Byte) : (s.setResultFlag x r f).reg VF = f :=
  State.reg_setReg_self _ VF f

/-- The flag, written last, leaves the result in any destination but VF. -/
theorem State.reg_setResultFlag_result {x : Reg} (h : x ≠ VF) (r f : Byte) : (s.setResultFlag x r f).reg x = r := by
  rw [State.reg_setResultFlag, if_neg h, if_pos rfl]

/-- A one-register instruction writes its destination alone. -/
theorem Frame.onlyReg (x : Reg) (b : Byte) : Frame { regs := [x] } s (s.setReg x b) :=
  Frame.setReg s x b List.mem_cons_self

/-- An instruction with a flag writes its destination and VF alone. -/
theorem Frame.onlyResultFlag (x : Reg) (r f : Byte) : Frame { regs := [x, VF] } s (s.setResultFlag x r f) :=
  Frame.setResultFlag s x r f List.mem_cons_self (List.mem_cons_of_mem x List.mem_cons_self)

/-! ## The values of the results and the flags (spec/42_alu.md R147 to R151) -/

theorem toNat_trunc8 (n : Nat) : (trunc8 n).toNat = n % 256 := BitVec.toNat_ofNat n 8

/-- The 256 put in for the borrow is lost in the narrowing. -/
theorem trunc8_add_256_sub (a b : Byte) : trunc8 (a.toNat + 256 - b.toNat) = a - b := by
  rw [BitVec.sub_def]
  unfold trunc8
  congr 1
  omega

theorem toNat_trunc8_shiftLeft_one (a : Byte) : (trunc8 (a.toNat <<< 1)).toNat = 2 * a.toNat % 256 := by
  rw [toNat_trunc8, Nat.shiftLeft_eq, Nat.mul_comm]

theorem toNat_flag (p : Prop) [Decidable p] : (flag (decide p)).toNat = if p then 1 else 0 := by
  unfold flag
  rw [apply_ite BitVec.toNat]
  exact if_congr decide_eq_true_iff rfl rfl

theorem toNat_carryFlag (a b : Byte) : (carryFlag a b).toNat = if a.toNat + b.toNat > 255 then 1 else 0 :=
  toNat_flag _

theorem toNat_noBorrowFlag (a b : Byte) : (noBorrowFlag a b).toNat = if b.toNat ≤ a.toNat then 1 else 0 :=
  toNat_flag _

theorem toNat_lsbFlag (a : Byte) : (lsbFlag a).toNat = a.toNat % 2 := by
  unfold lsbFlag
  rw [BitVec.toNat_and]
  exact Nat.and_one_is_mod _

theorem toNat_msbFlag (a : Byte) : (msbFlag a).toNat = a.toNat / 128 := by
  unfold msbFlag
  rw [BitVec.toNat_ushiftRight, Nat.shiftRight_eq_div_pow]

/-! ## One register written (spec/42_alu.md R141 to R146) -/

/-- Settles O19: each writes Vx alone, the byte or the sum narrowed. -/
theorem byteLoadAndAdd : Obligations.ByteLoadAndAdd := by
  unfold Obligations.ByteLoadAndAdd
  intro x kk s
  exact ⟨decodeEncodeRoundTrip _ (.ldVxKK x kk) rfl, decodeEncodeRoundTrip _ (.addVxKK x kk) rfl,
    ⟨_, rfl, s.reg_setReg_self x kk, Frame.onlyReg s x _⟩,
    ⟨_, rfl, by rw [State.reg_setReg_self, toNat_trunc8], Frame.onlyReg s x _⟩⟩

/-- Settles O20: each writes Vx alone, with the two registers combined bit by bit. -/
theorem bitwiseCombine : Obligations.BitwiseCombine := by
  unfold Obligations.BitwiseCombine
  intro x y s
  exact ⟨decodeEncodeRoundTrip _ (.orVxVy x y) rfl, decodeEncodeRoundTrip _ (.andVxVy x y) rfl,
    decodeEncodeRoundTrip _ (.xorVxVy x y) rfl,
    ⟨_, rfl, fun k _ => by rw [State.reg_setReg_self, BitVec.getLsbD_or], Frame.onlyReg s x _⟩,
    ⟨_, rfl, fun k _ => by rw [State.reg_setReg_self, BitVec.getLsbD_and], Frame.onlyReg s x _⟩,
    ⟨_, rfl, fun k _ => by rw [State.reg_setReg_self, BitVec.getLsbD_xor], Frame.onlyReg s x _⟩⟩

/-- Without `HAS_8XY0` the word 8xy0 is in the invalid space of R89. -/
theorem invalidWord_8xy0 (x y : Reg) : invalidWord false (packXYN 0x8 x y 0x0) := by
  have hn : fieldN (packXYN 0x8 x y 0x0) = 0x0 := fieldN_packXYN _ x y _
  unfold invalidWord
  rw [hn]
  exact .inr (.inl ⟨fieldT_packXYN _ x y _, by decide⟩)

/-- Settles O21: 8xy0 has its row only with `HAS_8XY0`, and the copy writes Vx alone. -/
theorem copyRegister : Obligations.CopyRegister := by
  unfold Obligations.CopyRegister
  intro x y s
  exact ⟨decodeEncodeRoundTrip true (.ldVxVy x y) rfl, (invalidWordsExactly _ _).2 (invalidWord_8xy0 x y),
    ⟨_, rfl, s.reg_setReg_self x _, Frame.onlyReg s x _⟩⟩

/-! ## A register and the flag written (spec/42_alu.md R147 to R151) -/

/-- Settles O22: the sum narrowed, then the carry. -/
theorem addSetsCarry : Obligations.AddSetsCarry := by
  unfold Obligations.AddSetsCarry
  intro x y s
  refine ⟨_, rfl, fun hx => ?_, ?_, Frame.onlyResultFlag s x _ _⟩
  · rw [State.reg_setResultFlag_result s hx, toNat_trunc8]
  · rw [State.reg_setResultFlag_flag, toNat_carryFlag]

/-- What SUB and SUBN share: the difference of the operands, in the order given, and its not-borrow. -/
theorem State.setResultFlag_difference {t : State} {x : Reg} {a b : Byte}
    (ht : t = s.setResultFlag x (trunc8 (a.toNat + 256 - b.toNat)) (noBorrowFlag a b)) :
    (x ≠ VF → t.reg x = a - b) ∧ (t.reg VF).toNat = (if b.toNat ≤ a.toNat then 1 else 0) ∧
      Frame { regs := [x, VF] } s t := by
  subst ht
  refine ⟨fun hx => ?_, ?_, Frame.onlyResultFlag s x _ _⟩
  · rw [State.reg_setResultFlag_result s hx, trunc8_add_256_sub]
  · rw [State.reg_setResultFlag_flag, toNat_noBorrowFlag]

/-- Settles O23: the difference narrowed, then the not-borrow, with the operands in either order. -/
theorem subtractSetsNotBorrow : Obligations.SubtractSetsNotBorrow := by
  unfold Obligations.SubtractSetsNotBorrow
  intro x y s
  exact ⟨⟨_, rfl, s.setResultFlag_difference rfl⟩, ⟨_, rfl, s.setResultFlag_difference rfl⟩⟩

/-- Settles O24: the byte shifted, then the bit that left it. -/
theorem shiftsSetTheBitShiftedOut : Obligations.ShiftsSetTheBitShiftedOut := by
  unfold Obligations.ShiftsSetTheBitShiftedOut
  intro x s
  refine ⟨⟨_, rfl, fun hx => ?_, ?_, Frame.onlyResultFlag s x _ _⟩,
    ⟨_, rfl, fun hx => ?_, ?_, Frame.onlyResultFlag s x _ _⟩⟩
  · rw [State.reg_setResultFlag_result s hx, BitVec.toNat_ushiftRight, Nat.shiftRight_one]
  · rw [State.reg_setResultFlag_flag, toNat_lsbFlag]
  · rw [State.reg_setResultFlag_result s hx, toNat_trunc8_shiftLeft_one]
  · rw [State.reg_setResultFlag_flag, toNat_msbFlag]

/-! ## The random port (spec/42_alu.md R152) -/

/-- A supplied byte is the one drawn, and is used up. -/
theorem State.drawByte_of_supplied {b : Byte} {rest : List Byte} (h : s.rnd = b :: rest) :
    s.drawByte = (b, { s with rnd := rest }) := by
  rcases s.drawByte_cases with ⟨b', rest', h', e⟩ | ⟨h', _⟩
  · cases h.symm.trans h'
    exact e
  · cases h.symm.trans h'

/-- Settles O25: the draw, whatever it gives, is masked into Vx. -/
theorem randomByteIsMasked : Obligations.RandomByteIsMasked := by
  unfold Obligations.RandomByteIsMasked
  intro x kk s
  refine ⟨s.drawByte.2.setReg x (s.drawByte.1 &&& kk), rfl, ⟨s.drawByte.1, State.reg_setReg_self _ x _, ?_⟩, ?_,
    (Frame.drawByte s rfl).trans (Frame.setReg _ x _ List.mem_cons_self)⟩
  · intro b rest h
    rw [State.setReg_rnd, s.drawByte_of_supplied h]
    exact ⟨rfl, rfl⟩
  · intro k _ hk
    rw [State.reg_setReg_self, BitVec.getLsbD_and, hk, Bool.and_false]

end Sys2Proof.Machine

namespace Sys2Proof.Machine

variable (s : State)

/-! ## Setting I (spec/43_index_memory.md R170 to R172) -/

theorem toNat_trunc16 (n : Nat) : (trunc16 n).toNat = n % 65536 := BitVec.toNat_ofNat n 16

/-- Settles O26: LD I,NNN writes I alone, with its literal extended by zeros. -/
theorem loadIndexLiteral : Obligations.LoadIndexLiteral := by
  unfold Obligations.LoadIndexLiteral
  intro nnn s
  exact ⟨decodeEncodeRoundTrip _ (.ldI nnn) rfl, ⟨_, rfl, toNat_addrOf nnn, Frame.setI s _ rfl⟩⟩

/-- 5 times a byte is at most 1275, so the narrowing keeps it. -/
theorem toNat_trunc16_five_mul (b : Byte) : (trunc16 (5 * b.toNat)).toNat = 5 * b.toNat := by
  have hb := b.isLt
  rw [toNat_trunc16]
  omega

/-- Settles O27: each writes I alone, the sum narrowed or a product that needs no narrowing. -/
theorem indexArithmetic : Obligations.IndexArithmetic := by
  unfold Obligations.IndexArithmetic
  intro x s
  exact ⟨⟨_, rfl, toNat_trunc16 _, Frame.setI s _ rfl⟩,
    ⟨_, rfl, toNat_trunc16_five_mul (s.reg x), Frame.setI s _ rfl⟩⟩

/-! ## The log after an access from I on (spec/20_memory.md R66) -/

/-- A store from I on reports as `State.logAfterAccess` says. -/
theorem State.clog_storeIndexed_zero (bs : List Byte) : (s.storeIndexed 0 bs).clog = s.logAfterAccess bs.length :=
  (s.clog_storeIndexed 0 bs).trans (if_congr (or_congr_left List.length_eq_zero_iff.symm) rfl rfl)

/-- A load from I on reports as `State.logAfterAccess` says. -/
theorem State.clog_loadIndexed_zero (n : Nat) : (s.loadIndexed 0 n).clog = s.logAfterAccess n :=
  s.clog_loadIndexed 0 n

/-! ## The block transfers (spec/43_index_memory.md R175, R176) -/

/-- LD [I],Vx stores x + 1 registers. -/
theorem State.length_take_v (x : Reg) : (s.v.toList.take (x.val + 1)).length = x.val + 1 := by
  rw [List.length_take, Vector.length_toList]
  omega

theorem clog_of_execLdMemVx {s t : State} {x : Reg} (h : exec (.ldMemVx x) s = .next t) :
    t.clog = s.logAfterAccess (x.val + 1) := by
  cases h
  rw [State.clog_storeIndexed_zero, State.length_take_v]

/-- No byte outside memory is read, before or after. -/
theorem Memory.read_eq_read_of_outside (m m' : Memory) {a : Nat} (h : 4096 ≤ a) : m'.read a = m.read a :=
  ((m'.read_eq_none a).2 h).trans ((m.read_eq_none a).2 h).symm

/-- Settles O29: the bytes stored, and the frame of the instruction for the bytes around the block. -/
theorem blockStore : Obligations.BlockStore := by
  unfold Obligations.BlockStore
  intro x s
  obtain ⟨t, ht, hframe⟩ := exec_frame s (.ldMemVx x)
  refine ⟨t, ht, read_of_execLdMemVx ht, fun a ha => ?_, clog_of_execLdMemVx ht, hframe⟩
  by_cases hin : 4096 ≤ a
  · exact Memory.read_eq_read_of_outside s.mem t.mem hin
  · have hout : a ∉ s.bytesFromI (x.val + 1) := by rw [State.mem_bytesFromI]; omega
    exact hframe.mem a hout

/-- What LD Vx,[I] leaves in a register of the block. -/
theorem State.some_reg_loadIndexed (x r : Reg) (hr : r ≤ x) :
    some ((s.loadIndexed 0 (x.val + 1)).reg r) =
      if s.i.toNat + r.val < 4096 then s.mem.read (s.i.toNat + r.val) else some (s.reg r) := by
  have hrx : r.val < 0 + (x.val + 1) := by have := Fin.le_def.1 hr; omega
  rw [s.reg_loadIndexed 0 (x.val + 1) (by omega) r]
  by_cases hin : s.i.toNat + r.val < 4096
  · rw [if_pos ⟨Nat.zero_le _, hrx, hin⟩, if_pos hin, Memory.read_of_lt _ hin]
    rfl
  · rw [if_neg fun ⟨_, _, h⟩ => hin h, if_neg hin]

/-- Settles O30: each register of the block takes its byte, if that lies in memory. -/
theorem blockLoad : Obligations.BlockLoad := by
  unfold Obligations.BlockLoad
  intro x s
  exact ⟨_, rfl, s.some_reg_loadIndexed x, s.clog_loadIndexed_zero _, Frame.loadIndexed s x rfl rfl⟩

/-- Settles O31: the load reads at each index the byte the store left there, since neither moved I. -/
theorem blockStoreThenLoadRestores : Obligations.BlockStoreThenLoadRestores := by
  unfold Obligations.BlockStoreThenLoadRestores
  intro x s t u hblock hstore hmem hi
  obtain ⟨w, hload, hloaded, _⟩ := blockLoad x u
  refine ⟨w, hload, fun r hr => Option.some.inj ?_⟩
  have hti : t.i = s.i := by cases hstore; exact s.storeIndexed_i 0 _
  have hin : s.i.toNat + r.val < 4096 := by have := Fin.le_def.1 hr; omega
  calc some (w.reg r)
    _ = u.mem.read (u.i.toNat + r.val) := by rw [hloaded r hr, if_pos (by rw [hi, hti]; exact hin)]
    _ = t.mem.read (s.i.toNat + r.val) := by rw [hmem, hi, hti]
    _ = some (s.reg r) := read_of_execLdMemVx hstore r hr hin

/-! ## The double-dabble (spec/43_index_memory.md R174) -/

/-- The accumulators hold the three decimal digits of `n`. -/
structure BcdAcc.Holds (a : BcdAcc) (n : Nat) : Prop where
  hundreds : a.h.toNat = n / 100
  tens : a.t.toNat = n / 10 % 10
  ones : a.o.toNat = n % 10

/-- A corrected digit, shifted with the top bit of the corrected digit below it, is doubled modulo 10 with the decimal
carry of that digit's double. -/
theorem toNat_shift_bcdCorrect_carry : ∀ d e : BitVec 4, d.toNat < 10 → e.toNat < 10 →
    ((bcdCorrect d <<< 1) ||| (bcdCorrect e >>> 3)).toNat = (2 * d.toNat + 2 * e.toNat / 10) % 10 := by decide

/-- The lowest digit, shifted with the bit brought in, is doubled modulo 10 with that bit. -/
theorem toNat_shift_bcdCorrect_bit : ∀ (d : BitVec 4) (b : Bool), d.toNat < 10 →
    ((bcdCorrect d <<< 1) ||| (if b then 1 else 0)).toNat = (2 * d.toNat + b.toNat) % 10 := by decide

/-- An iteration doubles the number held and adds the bit brought in: each digit by the lemma of its place. -/
theorem BcdAcc.Holds.bcdStep {a : BcdAcc} {n : Nat} (h : a.Holds n) (hn : n < 500) (v : Byte) (i : Nat) :
    (bcdStep v a i).Holds (2 * n + (v.getLsbD i).toNat) := by
  obtain ⟨hh, ht, ho⟩ := h
  have hbit := (v.getLsbD i).toNat_lt
  constructor
  · refine (toNat_shift_bcdCorrect_carry a.h a.t (by omega) (by omega)).trans ?_
    omega
  · refine (toNat_shift_bcdCorrect_carry a.t a.o (by omega) (by omega)).trans ?_
    omega
  · refine (toNat_shift_bcdCorrect_bit a.o (v.getLsbD i) (by omega)).trans ?_
    omega

/-- Bringing in bit `k` moves from the bits above `k` to the bits from `k` on. -/
theorem two_mul_shiftRight_succ_add (v : Byte) (k : Nat) :
    2 * (v.toNat >>> (k + 1)) + (v.getLsbD k).toNat = v.toNat >>> k := by
  rw [Nat.shiftRight_succ, BitVec.getLsbD, Nat.toNat_testBit, ← Nat.shiftRight_eq_div_pow]
  omega

/-- From the digits of the bits above, the iterations over the `k` low bits reach the digits of the byte. -/
theorem BcdAcc.Holds.foldl_bcdStep {a : BcdAcc} (v : Byte) (k : Nat) (h : a.Holds (v.toNat >>> k)) :
    ((List.range k).reverse.foldl (Machine.bcdStep v) a).Holds v.toNat := by
  induction k generalizing a with
  | zero => exact h
  | succ k ih =>
    rw [List.range_succ, List.reverse_concat, List.foldl_cons]
    apply ih
    rw [← two_mul_shiftRight_succ_add]
    refine h.bcdStep ?_ v k
    have hle : v.toNat >>> (k + 1) ≤ v.toNat := Nat.shiftRight_le _ _
    have hv := v.isLt
    omega

/-- `BCD(v)` holds the three decimal digits of `v`. -/
theorem holds_bcd (v : Byte) : (bcd v).Holds v.toNat := by
  have hstart : BcdAcc.Holds ⟨0, 0, 0⟩ (v.toNat >>> 8) := by
    rw [Nat.shiftRight_eq_zero _ _ v.isLt]
    constructor <;> rfl
  exact hstart.foldl_bcdStep v 8

/-- An accumulator stored as a byte keeps its value. -/
theorem setWidth_eq_ofNat_of_toNat {d : BitVec 4} {n : Nat} (h : d.toNat = n) : d.setWidth 8 = BitVec.ofNat 8 n :=
  h ▸ (BitVec.ofNat_toNat 8 d).symm

/-- A store from I on leaves each byte whose address lies in memory at that address. -/
theorem State.read_storeIndexed_zero (bs : List Byte) {j : Nat} (hj : j < bs.length) (hin : s.i.toNat + j < 4096) :
    (s.storeIndexed 0 bs).mem.read (s.i.toNat + j) = some bs[j] := by
  have hoff : s.i.toNat + j - s.indexAddr 0 = j := Nat.add_sub_cancel_left _ j
  rw [State.read_storeIndexed, dif_pos ⟨Nat.le_add_right _ j, hoff.symm ▸ hj, hin⟩]
  simp only [hoff]

/-- A store of three bytes from I on, address by address. -/
theorem State.read_storeIndexed_three (b₀ b₁ b₂ : Byte) (a : Nat) :
    (s.storeIndexed 0 [b₀, b₁, b₂]).mem.read a =
      if 4096 ≤ a then none
      else if a = s.i.toNat then some b₀
      else if a = s.i.toNat + 1 then some b₁
      else if a = s.i.toNat + 2 then some b₂
      else s.mem.read a := by
  split_ifs with hout h₀ h₁ h₂
  · exact (Memory.read_eq_none _ a).2 hout
  · subst h₀; exact s.read_storeIndexed_zero [b₀, b₁, b₂] (j := 0) (by simp) (by omega)
  · subst h₁; exact s.read_storeIndexed_zero [b₀, b₁, b₂] (j := 1) (by simp) (by omega)
  · subst h₂; exact s.read_storeIndexed_zero [b₀, b₁, b₂] (j := 2) (by simp) (by omega)
  · refine s.read_storeIndexed_outside [b₀, b₁, b₂] fun h => ?_
    rw [State.mem_bytesFromI, List.length_cons, List.length_cons, List.length_singleton] at h
    omega

/-- Settles O28: the double-dabble gives the decimal digits, and the three bytes are stored. -/
theorem bcdDigitsStored : Obligations.BcdDigitsStored := by
  unfold Obligations.BcdDigitsStored
  intro x s
  obtain ⟨hundreds, tens, ones⟩ := holds_bcd (s.reg x)
  refine ⟨_, rfl, fun a => ?_, s.clog_storeIndexed_zero _, Frame.storeIndexed s _ rfl rfl⟩
  rw [State.read_storeIndexed_three, setWidth_eq_ofNat_of_toNat hundreds, setWidth_eq_ofNat_of_toNat tens,
    setWidth_eq_ofNat_of_toNat ones]

end Sys2Proof.Machine

namespace Sys2Proof.Machine

variable (s : State)

/-! ## CLS (spec/44_display_input.md R190) -/

/-- Settles O33: CLS writes the framebuffer alone, with cells all 0. -/
theorem clearScreen : Obligations.ClearScreen := by
  unfold Obligations.ClearScreen
  intro x s
  obtain ⟨hcls, _⟩ := ignoredBitsDoNotSelect s.has8xy0 x 0 0
  exact ⟨hcls, _, rfl, fun r _ c _ => FrameBuffer.cell_clear r c, Frame.setFB s _ rfl⟩

/-! ## The keypad (spec/44_display_input.md R194 to R196) -/

theorem State.keyAt_of_eq {n : Nat} {k : Fin 16} (h : n = k.val) : s.keyAt n = some s.key[k.val] := by
  subst h
  exact dif_pos k.isLt

theorem State.keyAt_of_le {n : Nat} (h : 16 ≤ n) : s.keyAt n = none := dif_neg (by omega)

/-- The state of a key decides the skips. -/
theorem exec_skips_of_key (x : Reg) {pressed : Bool} (h : s.keyAt (s.reg x).toNat = some pressed) :
    exec (.skp x) s = .next (s.skipIf pressed) ∧ exec (.sknp x) s = .next (s.skipIf (!pressed)) := by
  simp only [exec, execSkp, execSknp, h, and_self]

/-- Both report a code that no key has. -/
theorem exec_skips_of_no_key (x : Reg) (h : s.keyAt (s.reg x).toNat = none) :
    exec (.skp x) s = .next (s.raise .outOfBoundsAddress (s.reg x).toNat) ∧
      exec (.sknp x) s = .next (s.raise .outOfBoundsAddress (s.reg x).toNat) := by
  simp only [exec, execSkp, execSknp, h, and_self]

theorem State.pc_skipIf_not (b : Bool) : (s.skipIf (!b)).pc = if b = true then s.pc else s.pc + 2 := by
  cases b <;> rfl

/-- Settles O36: the register's value is the code of a key, whose state decides the skip, or else is reported. -/
theorem keySkips : Obligations.KeySkips := by
  unfold Obligations.KeySkips
  refine fun x s => ⟨fun k hk => ?_, fun hlarge => ?_⟩
  · obtain ⟨hskp, hsknp⟩ := exec_skips_of_key s x (s.keyAt_of_eq hk)
    exact ⟨⟨_, hskp, s.skipIf_pc _, Frame.skipIf s _ rfl⟩, ⟨_, hsknp, s.pc_skipIf_not _, Frame.skipIf s _ rfl⟩⟩
  · obtain ⟨hskp, hsknp⟩ := exec_skips_of_no_key s x (s.keyAt_of_le hlarge)
    exact ⟨⟨_, hskp, rfl, Frame.raise s _ _ rfl⟩, ⟨_, hsknp, rfl, Frame.raise s _ _ rfl⟩⟩

/-- Settles O37: the first step of LD Vx,K writes the phase alone. -/
theorem keyWaitBlocks : Obligations.KeyWaitBlocks := by
  unfold Obligations.KeyWaitBlocks
  exact fun x s => ⟨_, rfl, rfl, Frame.setPhase s _ rfl⟩

/-! ## Drawing a set of points (spec/44_display_input.md R191, R193)

A set of points of the plane is a `Nat → Nat → Bool`, by row and column. Each part of the drawing loop draws the points
of its own set, and parts that draw disjoint sets compose (`Inverts.union`). -/

/-- Some point of the set is a set cell of the screen. -/
def State.Collides (s : State) (points : Nat → Nat → Bool) : Prop :=
  ∃ r < 32, ∃ c < 64, s.fb.cell r c = true ∧ points r c = true

/-- From `s` to `t` the points on the screen were inverted, and VF was set to 1 if one of them was set before. -/
structure Inverts (points : Nat → Nat → Bool) (s t : State) : Prop where
  cell : ∀ r < 32, ∀ c < 64, t.fb.cell r c = (s.fb.cell r c ^^ points r c)
  hit : s.Collides points → t.reg VF = 1
  miss : ¬ s.Collides points → t.reg VF = s.reg VF

/-- A set with no point on the screen is drawn by doing nothing. -/
theorem Inverts.of_blank {points : Nat → Nat → Bool} {s t : State} (hfb : t.fb = s.fb) (hv : t.v = s.v)
    (hblank : ∀ r < 32, ∀ c < 64, points r c = false) : Inverts points s t where
  cell r hr c hc := by rw [hfb, hblank r hr c hc, Bool.xor_false]
  hit := by
    rintro ⟨r, hr, c, hc, -, hp⟩
    rw [hblank r hr c hc] at hp
    cases hp
  miss _ := State.reg_congr hv VF

section Union

variable {p q points : Nat → Nat → Bool} {s t u : State} (hp : Inverts p s t)
  (hdisj : ∀ r c, p r c = true → q r c = false)
  (hunion : ∀ r < 32, ∀ c < 64, points r c = (p r c || q r c))

include hp hdisj hunion

/-- The second of two disjoint sets meets the cells as they were at the start. -/
theorem Inverts.collides_union_iff : s.Collides points ↔ s.Collides p ∨ t.Collides q := by
  have hsame : ∀ r < 32, ∀ c < 64, q r c = true → t.fb.cell r c = s.fb.cell r c := fun r hr c hc hqc => by
    have hpc : p r c = false := Bool.eq_false_iff.2 fun h => absurd hqc (ne_true_of_eq_false (hdisj r c h))
    rw [hp.cell r hr c hc, hpc, Bool.xor_false]
  constructor
  · rintro ⟨r, hr, c, hc, hs, h⟩
    rw [hunion r hr c hc, Bool.or_eq_true] at h
    rcases h with h | h
    · exact .inl ⟨r, hr, c, hc, hs, h⟩
    · exact .inr ⟨r, hr, c, hc, (hsame r hr c hc h).trans hs, h⟩
  · rintro (⟨r, hr, c, hc, hs, h⟩ | ⟨r, hr, c, hc, ht, h⟩)
    · exact ⟨r, hr, c, hc, hs, by rw [hunion r hr c hc, h, Bool.true_or]⟩
    · exact ⟨r, hr, c, hc, (hsame r hr c hc h).symm.trans ht, by rw [hunion r hr c hc, h, Bool.or_true]⟩

/-- Two disjoint sets drawn one after the other are their union drawn; a flag once set stays. -/
theorem Inverts.union (hq : Inverts q t u) : Inverts points s u where
  cell r hr c hc := by
    rw [hq.cell r hr c hc, hp.cell r hr c hc, hunion r hr c hc]
    cases hpc : p r c with
    | false => simp
    | true => simp [hdisj r c hpc]
  hit h := by
    by_cases hcoll : t.Collides q
    · exact hq.hit hcoll
    · rw [hq.miss hcoll]
      exact hp.hit (((hp.collides_union_iff hdisj hunion).1 h).resolve_right hcoll)
  miss h := by
    obtain ⟨hnp, hnq⟩ := not_or.1 (mt (hp.collides_union_iff hdisj hunion).2 h)
    rw [hq.miss hnq, hp.miss hnp]

end Union

/-! ## The pixels of one sprite row (spec/44_display_input.md R191, R192) -/

/-- One point of the plane, if `set`. -/
def onePoint (set : Bool) (py px r c : Nat) : Bool := decide (r = py ∧ c = px) && set

/-- The first `n` pixels of the row `bits` placed at row `py`, from column `vx` on. -/
def rowBit (bits : Byte) (vx py n r c : Nat) : Bool :=
  decide (r = py ∧ vx ≤ c ∧ c < vx + n) && bits.getLsbD (7 - (c - vx))

theorem State.plot_inverts {py px : Nat} (hr : py < 32) (hc : px < 64) :
    Inverts (onePoint true py px) s (s.plot py px) where
  cell r _ c _ := by
    rw [State.plot_fb, FrameBuffer.cell_toggle]
    by_cases h : r = py ∧ c = px
    · obtain ⟨rfl, rfl⟩ := h
      simp [onePoint, hr, hc]
    · have hno : ¬ (r = py ∧ c = px ∧ py < 32 ∧ px < 64) := fun ⟨h₁, h₂, _⟩ => h ⟨h₁, h₂⟩
      simp [onePoint, hno, h]
  hit := by
    rintro ⟨r, -, c, -, hs, hp⟩
    obtain ⟨rfl, rfl⟩ : r = py ∧ c = px := by simpa [onePoint] using hp
    simp [State.plot_reg, hs]
  miss hnone := by
    have hclear : ¬ s.fb.cell py px = true := fun hs => hnone ⟨py, hr, px, hc, hs, by simp [onePoint]⟩
    simp [State.plot_reg, hclear]

/-- A clear pixel and a column to the right of the screen draw nothing. -/
theorem State.plotColumn_inverts (bits : Byte) (vx k : Nat) {py : Nat} (hr : py < 32) :
    Inverts (onePoint (bits.getLsbD (7 - k)) py (vx + k)) s (State.plotColumn bits vx py s k) := by
  unfold State.plotColumn
  by_cases hbit : bits.getLsbD (7 - k) = true
  · by_cases hc : vx + k < 64
    · rw [if_pos (by simp [hbit, hc]), hbit]
      exact s.plot_inverts hr hc
    · rw [if_neg (by simp [hc])]
      refine Inverts.of_blank rfl rfl fun r _ c hc' => ?_
      have : ¬ (r = py ∧ c = vx + k) := by omega
      simp [onePoint, this]
  · rw [if_neg (by simp [hbit])]
    exact Inverts.of_blank rfl rfl fun r _ c _ => by simp [onePoint, hbit]

/-- The first `n` columns draw the first `n` pixels: the last of them is a point the others do not draw. -/
theorem State.foldl_plotColumn_inverts (bits : Byte) (vx n : Nat) {py : Nat} (hr : py < 32) :
    Inverts (rowBit bits vx py n) s ((List.range n).foldl (State.plotColumn bits vx py) s) := by
  induction n with
  | zero =>
    refine Inverts.of_blank rfl rfl fun r _ c _ => ?_
    have hempty : ¬ (vx ≤ c ∧ c < vx + 0) := by omega
    rw [rowBit, decide_eq_false fun h => hempty h.2, Bool.false_and]
  | succ n ih =>
    rw [List.range_succ, List.foldl_concat]
    refine ih.union (fun r c h => ?_) (fun r _ c _ => ?_) (State.plotColumn_inverts _ bits vx n hr)
    · obtain ⟨⟨_, _, hlt⟩, _⟩ : (r = py ∧ vx ≤ c ∧ c < vx + n) ∧ _ := by
        simpa only [rowBit, Bool.and_eq_true, decide_eq_true_eq] using h
      rw [onePoint, decide_eq_false fun e => absurd e.2 hlt.ne, Bool.false_and]
    · by_cases hlast : c = vx + n
      · subst hlast; simp [rowBit, onePoint]
      · have : c < vx + (n + 1) ↔ c < vx + n := by omega
        simp [rowBit, onePoint, hlast, this]

/-- A row below the screen draws nothing. -/
theorem State.drawRow_inverts (bits : Byte) (vx py : Nat) : Inverts (rowBit bits vx py 8) s (s.drawRow bits vx py) := by
  unfold State.drawRow
  by_cases hr : py < 32
  · rw [if_pos hr]
    exact s.foldl_plotColumn_inverts bits vx 8 hr
  · rw [if_neg hr]
    refine Inverts.of_blank rfl rfl fun r hr' c _ => ?_
    have : ¬ (r = py ∧ vx ≤ c ∧ c < vx + 8) := by omega
    simp [rowBit, this]

/-! ## The rows of a sprite (spec/44_display_input.md R191, spec/20_memory.md R66) -/

/-- A sprite depends on memory and I alone. -/
theorem State.spriteBit_congr {s t : State} (hmem : t.mem = s.mem) (hi : t.i = s.i) : t.spriteBit = s.spriteBit := by
  funext vx vy rows r c
  rw [State.spriteBit, State.spriteBit, hmem, hi]

theorem State.bytesInMemory_congr {s t : State} (hi : t.i = s.i) (n : Nat) : t.bytesInMemory n = s.bytesInMemory n := by
  rw [State.bytesInMemory, State.bytesInMemory, hi]

/-- What the rows from row `k` on of a sprite of `rows` rows draw. -/
def State.spriteFrom (s : State) (vx vy rows k r c : Nat) : Bool :=
  decide (vy + k ≤ r) && s.spriteBit vx vy rows r c

/-- From row 0 on it is the whole sprite. -/
theorem State.spriteFrom_zero (vx vy rows : Nat) : s.spriteFrom vx vy rows 0 = s.spriteBit vx vy rows := by
  funext r c
  by_cases h : vy ≤ r <;> simp [State.spriteFrom, State.spriteBit, h]

theorem State.spriteFrom_congr {s t : State} (hmem : t.mem = s.mem) (hi : t.i = s.i) : t.spriteFrom = s.spriteFrom := by
  funext vx vy rows k r c
  rw [State.spriteFrom, State.spriteFrom, State.spriteBit_congr hmem hi]

/-- No row is left after the last. -/
theorem State.spriteFrom_of_le (vx vy : Nat) {rows k : Nat} (h : rows ≤ k) (r c : Nat) :
    s.spriteFrom vx vy rows k r c = false := by
  by_cases hr : vy + k ≤ r
  · have : ¬ r < vy + rows := by omega
    simp [State.spriteFrom, State.spriteBit, this]
  · simp [State.spriteFrom, hr]

/-- From row `k` on there are row `k` and the rows after it. -/
theorem State.spriteFrom_eq_or (vx vy : Nat) {rows k : Nat} (h : k < rows) (r c : Nat) :
    s.spriteFrom vx vy rows k r c =
      (rowBit (s.mem.peek (s.indexAddr k)) vx (vy + k) 8 r c || s.spriteFrom vx vy rows (k + 1) r c) := by
  by_cases hrow : r = vy + k
  · subst hrow
    simp [State.spriteFrom, State.spriteBit, rowBit, State.indexAddr, h]
  · have : vy + k ≤ r ↔ vy + (k + 1) ≤ r := by omega
    simp [State.spriteFrom, rowBit, hrow, this]

/-- Row `k` draws no point of the rows after it. -/
theorem State.spriteFrom_succ_of_rowBit {bits : Byte} {vx vy k w r c : Nat} (rows : Nat)
    (h : rowBit bits vx (vy + k) w r c = true) : s.spriteFrom vx vy rows (k + 1) r c = false := by
  obtain ⟨⟨rfl, _⟩, _⟩ : (r = vy + k ∧ _) ∧ _ := by simpa only [rowBit, Bool.and_eq_true, decide_eq_true_eq] using h
  simp [State.spriteFrom]

/-- Row `k` is there exactly if its byte lies in memory. -/
theorem State.lt_bytesInMemory_iff (k n : Nat) : k < s.bytesInMemory (k + (n + 1)) ↔ s.indexAddr k < 4096 := by
  unfold State.bytesInMemory State.indexAddr
  omega

/-- The loop from row `k` on draws the rest of the sprite, as far as it lies in memory. -/
theorem State.drawRows_inverts (vx vy k n : Nat) :
    Inverts (s.spriteFrom vx vy (s.bytesInMemory (k + n)) k) s (s.drawRows vx vy k n) := by
  induction n generalizing s k with
  | zero => exact Inverts.of_blank rfl rfl fun r _ c _ => s.spriteFrom_of_le vx vy (Nat.min_le_left _ _) r c
  | succ n ih =>
    unfold State.drawRows State.readIndexed
    by_cases hin : s.indexAddr k < 4096
    · rw [Memory.read_of_lt _ hin]
      have hrest := ih (s.drawRow (s.mem.peek (s.indexAddr k)) vx (vy + k)) (k + 1)
      rw [State.spriteFrom_congr (State.drawRow_mem ..) (State.drawRow_i ..),
        State.bytesInMemory_congr (State.drawRow_i ..), Nat.add_assoc, Nat.add_comm 1 n] at hrest
      exact (s.drawRow_inverts _ vx (vy + k)).union (fun r c => s.spriteFrom_succ_of_rowBit _)
        (fun r _ c _ => s.spriteFrom_eq_or vx vy ((s.lt_bytesInMemory_iff k n).2 hin) r c) hrest
    · have hout := mt (s.lt_bytesInMemory_iff k n).1 hin
      rw [(s.mem.read_eq_none _).2 (Nat.not_lt.1 hin)]
      exact Inverts.of_blank rfl rfl fun r _ c _ => s.spriteFrom_of_le vx vy (Nat.not_lt.1 hout) r c

/-! ## DRW (spec/44_display_input.md R191) -/

/-- Drawing the whole sprite. -/
theorem State.drawRows_zero_inverts (vx vy n : Nat) :
    Inverts (s.spriteBit vx vy (s.bytesInMemory n)) s (s.drawRows vx vy 0 n) := by
  have h := s.drawRows_inverts vx vy 0 n
  rwa [Nat.zero_add, State.spriteFrom_zero] at h

/-- Settles O34: once VF is 0, the rows draw the sprite, and its points on the screen are what they invert. -/
theorem drawIsClippedXor : Obligations.DrawIsClippedXor := by
  unfold Obligations.DrawIsClippedXor
  intro x y n s
  obtain ⟨t, ht, hframe⟩ := exec_frame s (.drw x y n)
  obtain ⟨hcell, hhit, hmiss⟩ := (s.setReg VF 0).drawRows_zero_inverts (s.reg x).toNat (s.reg y).toNat n.val
  cases ht
  refine ⟨_, rfl, hcell, hhit, fun hnone => ?_, State.clog_drawRows .., hframe⟩
  rw [hmiss, State.reg_setReg_self]
  rintro ⟨r, hr, c, hc, hs, hp⟩
  exact absurd hp (ne_true_of_eq_false (hnone r hr c hc hs))

/-- Settles O35: the second draw has the first one's sprite and place, and an exclusive or undoes itself. -/
theorem drawTwiceRestoresTheScreen : Obligations.DrawTwiceRestoresTheScreen := by
  unfold Obligations.DrawTwiceRestoresTheScreen
  intro x y n s t hx hy ht
  obtain ⟨_, ht', hfirst, _, _, _, hframe⟩ := drawIsClippedXor x y n s
  cases ht.symm.trans ht'
  obtain ⟨u, hu, hsecond, _⟩ := drawIsClippedXor x y n t
  have hmem : t.mem = s.mem := by cases ht; exact State.drawRows_mem ..
  have hregx : t.reg x = s.reg x := hframe.regs x (by simpa using hx)
  have hregy : t.reg y = s.reg y := hframe.regs y (by simpa using hy)
  refine ⟨u, hu, fun r hr c hc => ?_⟩
  rw [hsecond r hr c hc, hfirst r hr c hc, hregx, hregy, State.bytesInMemory_congr (hframe.i rfl),
    State.spriteBit_congr hmem (hframe.i rfl), Bool.xor_assoc, Bool.xor_self, Bool.xor_false]

end Sys2Proof.Machine

namespace Sys2Proof.Machine

variable (s : State)

/-! ## Reading and setting a timer (spec/45_timer_access.md R210 to R212, spec/60_exceptions.md R236) -/

/-- Settles O38: LD Vx,DT writes the count into Vx alone. -/
theorem readDelayTimer : Obligations.ReadDelayTimer := by
  unfold Obligations.ReadDelayTimer
  intro x s
  exact ⟨decodeEncodeRoundTrip _ (.ldVxDT x) rfl, _, rfl, s.reg_setReg_self x _, Frame.onlyReg s x _⟩

/-- A set starts the task of an enabled timer exactly for a value that is not 0; a disabled one has no task
(spec/60_exceptions.md R236, R239). -/
theorem Timer.set_running_eq_decide (t : Timer) (v : Byte) :
    (t.set v).running = if t.disabled = true then t.running else decide (v ≠ 0) := by
  rw [Timer.set_running, decide_not]
  rfl

/-- A set emits a tone event only where it stops a running task (spec/60_exceptions.md R236, R238). -/
theorem State.tone_setST (v : Byte) : (s.setST v).tone =
    if s.st.disabled = false ∧ s.st.running = true ∧ v = 0 then s.tone ++ [.off] else s.tone := by
  rw [State.setST_tone, Bool.and_right_comm]
  simp [and_assoc]

/-- Settles O39: each set writes its timer by `TimerSet`, and that of ST also the tone port. -/
theorem setTimers : Obligations.SetTimers := by
  unfold Obligations.SetTimers
  intro x s
  exact ⟨⟨_, rfl, s.dt.set_value _, s.dt.set_disabled _, s.dt.set_running_eq_decide _, Frame.setDT s _ rfl⟩,
    ⟨_, rfl, s.st.set_value _, s.st.set_disabled _, s.st.set_running_eq_decide _, s.tone_setST _,
      Frame.setST s _ rfl⟩⟩

end Sys2Proof.Machine

namespace Sys2Proof.Machine

variable {s t : State}

/-! ## The Monitor's commands and its check (spec/60_exceptions.md R245 to R251) -/

theorem Monitor.breakAt_setBreakpoint (m : Monitor) (a b : Word) :
    (m.apply (.setBreakpoint a)).breakAt b = (decide (b = a) || m.breakAt b) := by
  rw [Bool.eq_iff_iff, Bool.or_eq_true, decide_eq_true_iff, Monitor.breakAt_iff, Monitor.breakAt_iff]
  exact mem_setBreak m.bp a b

theorem Monitor.breakAt_clearBreakpoint (m : Monitor) (a b : Word) :
    (m.apply (.clearBreakpoint a)).breakAt b = (decide (b ≠ a) && m.breakAt b) := by
  rw [Bool.eq_iff_iff, Bool.and_eq_true, decide_eq_true_iff, Monitor.breakAt_iff, Monitor.breakAt_iff]
  exact mem_clearBreak m.bp a b

/-- Settles O43: the two breakpoint commands by membership in the list, the other three by their rules. -/
theorem debuggerCommands : Obligations.DebuggerCommands := by
  unfold Obligations.DebuggerCommands
  intro m a b
  refine ⟨m.breakAt_setBreakpoint a b, m.breakAt_clearBreakpoint a b, ?_, rfl, rfl, rfl⟩
  rintro c (rfl | rfl)
  · exact ⟨rfl, rfl, rfl⟩
  · exact ⟨rfl, rfl, rfl⟩

theorem Monitor.permit_of_active {m : Monitor} (h : m.active = true) (pc : Word) : m.permit pc = (m.step, m) :=
  if_pos h

/-- A Running check at an unguarded breakpoint pauses the machine (R246). -/
theorem Monitor.permit_of_break {m : Monitor} {pc : Word} (ha : m.active = false) (hb : m.breakAt pc = true)
    (hs : m.skipOnce = false) : m.permit pc = (false, { m with active := true, step := false }) := by
  unfold Monitor.permit
  simp [ha, hb, hs]

/-- A Running check elsewhere, or under the guard, lets the cycle run and uses the guard up (R246). -/
theorem Monitor.permit_of_no_break {m : Monitor} {pc : Word} (ha : m.active = false)
    (h : m.breakAt pc = false ∨ m.skipOnce = true) : m.permit pc = (true, { m with skipOnce := false }) := by
  unfold Monitor.permit
  rcases h with h | h <;> simp [ha, h]

/-- Settles O42: one lemma a branch of the check. -/
theorem permissionCheck : Obligations.PermissionCheck := by
  unfold Obligations.PermissionCheck
  intro m pc
  refine ⟨fun ha => Monitor.permit_of_active ha pc, fun ha hb hs => ?_, fun ha h => Monitor.permit_of_no_break ha ?_⟩
  · exact Monitor.permit_of_break ha ((m.breakAt_iff pc).2 hb) hs
  · rwa [← Bool.not_eq_true, Monitor.breakAt_iff]

/-- Settles O44: the check pauses the machine, and an unpermitted cycle runs no instruction. -/
theorem breakpointStopsBeforeTheInstruction : Obligations.BreakpointStopsBeforeTheInstruction := by
  unfold Obligations.BreakpointStopsBeforeTheInstruction
  intro s hs ha hb hskip
  have hpermit := Monitor.permit_of_break ha hb hskip
  have hmon : s.checked.mon = { s.monAtCheck with active := true, step := false } := congrArg Prod.snd hpermit
  exact ⟨_, unpermittedCycleRunsNoInstruction s hs (congrArg Prod.fst hpermit), rfl, congrArg Monitor.active hmon,
    congrArg Monitor.step hmon, rfl, fun _ => rfl, rfl, rfl, rfl, rfl, rfl, rfl, rfl⟩

/-- Fetch and execute leave the Monitor (R254). -/
theorem mon_of_fetchExecute (h : s.fetchExecute = .next t) : t.mon = s.mon := by
  rcases s.fetchExecute_cases with ⟨_, _, e⟩ | ⟨_, _, e⟩ | ⟨w, i, _, _, e⟩
  · cases e.symm.trans h; rfl
  · cases e.symm.trans h; rfl
  · obtain ⟨u, hu, hsame⟩ := exec_surroundings (s.latchIpc.advance w) i
    cases (e.trans hu).symm.trans h
    exact hsame.mon

/-- Settles O45: the command arms the Paused machine, the check lets the cycle run, the instruction leaves the Monitor,
and the end of a cycle that is not blocked disarms it. -/
theorem stepCommandRunsOneCycle : Obligations.StepCommandRunsOneCycle := by
  unfold Obligations.StepCommandRunsOneCycle
  intro s hs hactive hq
  have harmed : s.monAtCheck = { s.mon with step := true } := by
    unfold State.monAtCheck
    rw [hq]
    exact if_pos hactive
  have hpermit : s.monAtCheck.permit s.pc = (true, { s.mon with step := true }) := by
    rw [harmed]
    exact Monitor.permit_of_active (m := { s.mon with step := true }) hactive s.pc
  have hpermitted : s.atPermitted := ⟨hs, congrArg Prod.fst hpermit⟩
  obtain ⟨u, hu⟩ := s.checked.exists_next_fetchExecute
  have hmon : u.mon = { s.mon with step := true } := (mon_of_fetchExecute hu).trans (congrArg Prod.snd hpermit)
  have hstep : step s = .next u.endCycle := (step_of_atPermitted hpermitted).trans (congrArg endCycleOf hu)
  refine ⟨congrArg Prod.fst hpermit, u.endCycle, hstep, ?_⟩
  rcases u.endCycle_cases with ⟨⟨x, hx⟩, e⟩ | ⟨hx, e⟩
  · rw [e]
    exact ⟨fun hne => absurd hx (hne x), fun _ => hmon⟩
  · rw [e]
    refine ⟨fun _ => ?_, fun ⟨x, hwait⟩ => absurd hwait (hx x)⟩
    show ({ u.mon with step := false } : Monitor) = _
    rw [hmon]

/-! ## Timers left alone (spec/60_exceptions.md R237, R238, R242) -/

/-- The timer stands at `n`, and has a tick to come exactly if `n` is not 0. -/
structure Timer.Counts (t : Timer) (n : Nat) : Prop where
  value : t.value.toNat = n
  running : t.running = decide (0 < n)

/-- The invariant of spec/10_state.md R43 makes a running timer one that counts. -/
theorem Timer.counts_of_ok {t : Timer} (hr : t.running = true) (h : t.ok) : t.Counts t.value.toNat := by
  have hpos : 0 < t.value.toNat := Nat.pos_of_ne_zero fun e => (h hr).1 (BitVec.eq_of_toNat_eq e)
  exact ⟨rfl, hr.trans (decide_eq_true hpos).symm⟩

theorem Timer.Counts.running_of_succ {t : Timer} {n : Nat} (h : t.Counts (n + 1)) : t.running = true :=
  h.running.trans (decide_eq_true n.succ_pos)

/-- A tick of a timer at `n + 1` stops it exactly if it reaches 0 (R237). -/
theorem Timer.Counts.tick {t : Timer} {n : Nat} (h : t.Counts (n + 1)) : t.tick.Counts n := by
  have hv : (t.value - 1).toNat = n := by have := h.value; bv_omega
  refine ⟨hv, ?_⟩
  rw [Timer.tick_running, Bool.eq_iff_iff, bne_iff_ne, decide_eq_true_iff, ← hv, Nat.pos_iff_ne_zero]
  exact not_congr (BitVec.toNat_inj (y := 0)).symm

theorem Timer.Counts.eq_stopped {t : Timer} (h : t.Counts 0) : t = { t with value := 0, running := false } := by
  have hv : t.value = 0 := BitVec.eq_of_toNat_eq h.value
  have hr : t.running = false := h.running
  rw [← hv, ← hr]

theorem run_succ_of_step {M : Host.Core} {s t : M.State} {k : Nat} (h : M.step s = .next t) :
    M.run (k + 1) s = M.run k t := by
  rw [Host.Core.run, h]

theorem State.unlessEnded_of_ne_ended (hp : s.phase ≠ .ended) (u : State) : s.unlessEnded u = u := by
  rcases s.unlessEnded_cases u with ⟨h, _⟩ | ⟨_, e⟩
  · exact absurd h hp
  · exact e

theorem step_tickDT_of_running {rest : List Move} (hp : s.phase ≠ .ended) (hr : s.dt.running = true)
    (hsched : s.sched = .tickDT :: rest) : step s = .next { s with dt := s.dt.tick, sched := rest } := by
  rw [step_of_sched hsched]
  exact congrArg _ ((State.unlessEnded_of_ne_ended (s := { s with sched := rest }) hp _).trans (if_pos hr))

theorem step_tickST_of_running {rest : List Move} (hp : s.phase ≠ .ended) (hr : s.st.running = true)
    (hsched : s.sched = .tickST :: rest) : step s = .next { s with
      st := s.st.tick
      tone := s.tone ++ .on :: (if s.st.value - 1 = 0 then [.off] else [])
      sched := rest } := by
  rw [step_of_sched hsched]
  exact congrArg _ ((State.unlessEnded_of_ne_ended (s := { s with sched := rest }) hp _).trans (if_pos hr))

theorem step_tickST_of_stopped {rest : List Move} (hp : s.phase ≠ .ended) (hr : s.st.running = false)
    (hsched : s.sched = .tickST :: rest) : step s = .next { s with sched := rest } := by
  rw [step_of_sched hsched]
  exact congrArg _ ((State.unlessEnded_of_ne_ended (s := { s with sched := rest }) hp _).trans
    (if_neg (ne_true_of_eq_false hr)))

/-- A delay timer at `n + k` is at `n` after `k` of its ticks. -/
theorem run_tickDT {n k : Nat} {rest : List Move} (hp : s.phase ≠ .ended) (hc : s.dt.Counts (n + k))
    (hsched : s.sched = List.replicate k .tickDT ++ rest) :
    ∃ d : Timer, Host.Core.run Sys2Proof.core k s = .next { s with dt := d, sched := rest } ∧ d.Counts n ∧
      d.disabled = s.dt.disabled := by
  induction k generalizing s with
  | zero => exact ⟨s.dt, by cases hsched; rfl, hc, rfl⟩
  | succ k ih =>
    have hstep := step_tickDT_of_running hp hc.running_of_succ hsched
    obtain ⟨d, hrun, hd, hdis⟩ :=
      ih (s := { s with dt := s.dt.tick, sched := List.replicate k .tickDT ++ rest }) hp hc.tick rfl
    exact ⟨d, (run_succ_of_step (M := core) hstep).trans hrun, hd, hdis⟩

/-- Settles O40: the timer at N = (N - k) + k counts down by k. -/
theorem delayTimerCountsDown : Obligations.DelayTimerCountsDown := by
  unfold Obligations.DelayTimerCountsDown
  intro k s rest hp hr hok hk hsched
  have hc : s.dt.Counts (s.dt.value.toNat - k + k) := by
    rw [Nat.sub_add_cancel hk]
    exact Timer.counts_of_ok hr hok
  obtain ⟨d, hrun, hd, hdis⟩ := run_tickDT hp hc hsched
  exact ⟨d, hrun, hd.value, hdis, hd.running.trans (decide_eq_decide.2 Nat.sub_pos_iff_lt)⟩

/-- The tick that stops the sound timer emits ToneOn and then ToneOff. -/
theorem step_tickST_of_last {rest : List Move} (hp : s.phase ≠ .ended) (hc : s.st.Counts 1)
    (hsched : s.sched = .tickST :: rest) : step s = .next { s with
      st := { s.st with value := 0, running := false }
      tone := s.tone ++ [.on] ++ [.off]
      sched := rest } := by
  have hzero : s.st.value - 1 = 0 := BitVec.eq_of_toNat_eq hc.tick.value
  rw [step_tickST_of_running hp hc.running_of_succ hsched, if_pos hzero, hc.tick.eq_stopped, List.append_assoc]
  rfl

/-- A tick of the sound timer before its last emits ToneOn alone. -/
theorem step_tickST_of_more {n : Nat} {rest : List Move} (hp : s.phase ≠ .ended) (hc : s.st.Counts (n + 2))
    (hsched : s.sched = .tickST :: rest) :
    step s = .next { s with st := s.st.tick, tone := s.tone ++ [.on], sched := rest } := by
  have hmore : s.st.value - 1 ≠ 0 := fun e => n.succ_ne_zero (hc.tick.value.symm.trans (congrArg BitVec.toNat e))
  rw [step_tickST_of_running hp hc.running_of_succ hsched, if_neg hmore]

/-- A sound timer at `n + 1` sounds for `n + 1` ticks, and the tick after them is empty. -/
theorem run_tickST {n : Nat} {rest : List Move} (hp : s.phase ≠ .ended) (hc : s.st.Counts (n + 1))
    (hsched : s.sched = List.replicate (n + 2) .tickST ++ rest) :
    Host.Core.run Sys2Proof.core (n + 2) s = .next { s with
      st := { s.st with value := 0, running := false }
      tone := s.tone ++ List.replicate (n + 1) .on ++ [.off]
      sched := rest } := by
  induction n generalizing s with
  | zero =>
    refine (run_succ_of_step (M := core) (step_tickST_of_last hp hc hsched)).trans ?_
    exact run_succ_of_step (M := core) (step_tickST_of_stopped (s := { s with
      st := { s.st with value := 0, running := false }
      tone := s.tone ++ [.on] ++ [.off]
      sched := .tickST :: rest }) hp rfl rfl)
  | succ n ih =>
    have htone : s.tone ++ [ToneEvent.on] ++ List.replicate (n + 1) ToneEvent.on =
        s.tone ++ List.replicate (n + 2) ToneEvent.on :=
      List.append_assoc _ _ _
    refine (run_succ_of_step (M := core) (step_tickST_of_more hp hc hsched)).trans ?_
    rw [← htone]
    exact ih (s := { s with
      st := s.st.tick, tone := s.tone ++ [.on], sched := List.replicate (n + 2) .tickST ++ rest }) hp hc.tick rfl

/-- Settles O41: a running timer is not at 0, so it has a last tick. -/
theorem soundTimerTones : Obligations.SoundTimerTones := by
  unfold Obligations.SoundTimerTones
  intro s rest hp hr hok hsched
  have hc := Timer.counts_of_ok hr hok
  cases hn : s.st.value.toNat with
  | zero => exact absurd (BitVec.eq_of_toNat_eq hn) (hok hr).1
  | succ n =>
    rw [hn] at hc hsched
    exact run_tickST hp hc hsched

/-! ## What no instruction observes (spec/60_exceptions.md R254, spec/10_state.md R42) -/

/-- The part of the state no instruction reads: the Monitor, its queue, the records reported so far and the
snapshots. -/
structure Unobserved where
  mon : Monitor
  cmdq : List DbgCommand
  clog : List CondRecord
  frame : Option FrameBuffer
  frames : Nat

def State.unobserved (s : State) : Unobserved := ⟨s.mon, s.cmdq, s.clog, s.frame, s.frames⟩

def State.withUnobserved (s : State) (h : Unobserved) : State :=
  { s with mon := h.mon, cmdq := h.cmdq, clog := h.clog, frame := h.frame, frames := h.frames }

theorem State.withUnobserved_self (s : State) : s.withUnobserved s.unobserved = s := rfl

/-- The record an instruction reports, if it reports one, goes to the end of the log. -/
def Unobserved.report (h : Unobserved) : Option CondRecord → Unobserved
  | none => h
  | some r => { h with clog := h.clog ++ [r] }

theorem Unobserved.report_eq (h : Unobserved) (new : Option CondRecord) :
    h.report new = { h with clog := h.clog ++ new.toList } := by
  cases new with
  | none => exact congrArg (fun l => { h with clog := l }) (List.append_nil h.clog).symm
  | some r => rfl

/-- In `s`, whatever the unobserved part holds, `run` answers one state and carries that part along, with at most one
new record. -/
def Oblivious (run : State → Result) (s : State) : Prop :=
  ∃ (t : State) (new : Option CondRecord), ∀ h, run (s.withUnobserved h) = .next (t.withUnobserved (h.report new))

/-- The state answered carries along the part `s` itself holds, with the record. -/
theorem Oblivious.of_next {run : State → Result} (ho : Oblivious run s) (hrun : run s = .next t) :
    ∃ new : Option CondRecord, t.clog = s.clog ++ new.toList ∧
      ∀ h, run (s.withUnobserved h) = .next (t.withUnobserved (h.report new)) := by
  obtain ⟨u, new, e⟩ := ho
  have hself := e s.unobserved
  rw [State.withUnobserved_self] at hself
  cases hself.symm.trans hrun
  exact ⟨new, by rw [Unobserved.report_eq]; rfl, e⟩

/-- An operation that reports nothing; its outcome in `s` fixes the state it answers. -/
theorem Oblivious.silent {run : State → Result} (_ : run s = .next t)
    (e : ∀ h, run (s.withUnobserved h) = .next (t.withUnobserved h)) : Oblivious run s :=
  ⟨t, none, e⟩

theorem Oblivious.raises {run : State → Result} (c : Cond) (info : Nat)
    (e : ∀ h, run (s.withUnobserved h) = .next ((s.withUnobserved h).raise c info)) : Oblivious run s :=
  ⟨s, some (s.recordOf c info), e⟩

/-! ### The shared operations -/

theorem State.oblivious_raiseIndexed (s : State) (k : Nat) : Oblivious (fun u => .next (u.raiseIndexed k)) s :=
  .raises .outOfBoundsAddress (s.indexAddr k) fun _ => rfl

theorem State.skipIf_withUnobserved (s : State) (h : Unobserved) (c : Bool) :
    (s.withUnobserved h).skipIf c = (s.skipIf c).withUnobserved h := by
  cases c <;> rfl

theorem State.drawByte_of_not_supplied (h : s.rnd = []) :
    s.drawByte = (Config.freeByte s.draws, { s with draws := s.draws + 1 }) := by
  rcases s.drawByte_cases with ⟨_, _, h', _⟩ | ⟨_, e⟩
  · cases h.symm.trans h'
  · exact e

theorem State.drawByte_withUnobserved (s : State) (h : Unobserved) :
    (s.withUnobserved h).drawByte = (s.drawByte.1, s.drawByte.2.withUnobserved h) := by
  rcases s.drawByte_cases with ⟨b, rest, hr, e⟩ | ⟨hr, e⟩
  · rw [e, State.drawByte_of_supplied (s := s.withUnobserved h) hr]; rfl
  · rw [e, State.drawByte_of_not_supplied (s := s.withUnobserved h) hr]; rfl

theorem State.plotColumn_withUnobserved (s : State) (h : Unobserved) (bits : Byte) (vx py c : Nat) :
    State.plotColumn bits vx py (s.withUnobserved h) c = (State.plotColumn bits vx py s c).withUnobserved h := by
  unfold State.plotColumn State.plot
  split
  · rw [show (s.withUnobserved h).fb = s.fb from rfl]
    split <;> rfl
  · rfl

theorem State.foldl_plotColumn_withUnobserved (s : State) (h : Unobserved) (bits : Byte) (vx py : Nat)
    (cs : List Nat) : cs.foldl (State.plotColumn bits vx py) (s.withUnobserved h) =
      (cs.foldl (State.plotColumn bits vx py) s).withUnobserved h := by
  induction cs generalizing s with
  | nil => rfl
  | cons c cs ih => rw [List.foldl_cons, State.plotColumn_withUnobserved, ih, List.foldl_cons]

theorem State.drawRow_withUnobserved (s : State) (h : Unobserved) (bits : Byte) (vx py : Nat) :
    (s.withUnobserved h).drawRow bits vx py = (s.drawRow bits vx py).withUnobserved h := by
  unfold State.drawRow
  split
  · exact s.foldl_plotColumn_withUnobserved h bits vx py _
  · rfl

theorem State.oblivious_storeIndexed (s : State) (k : Nat) (bs : List Byte) :
    Oblivious (fun u => .next (u.storeIndexed k bs)) s := by
  induction bs generalizing s k with
  | nil => exact .silent rfl fun _ => rfl
  | cons b bs ih =>
    have hwrite (h : Unobserved) :
        (s.withUnobserved h).mem.write ((s.withUnobserved h).indexAddr k) b = s.mem.write (s.indexAddr k) b := rfl
    unfold Oblivious State.storeIndexed State.writeIndexed
    simp only [hwrite]
    cases s.mem.write (s.indexAddr k) b with
    | none => exact s.oblivious_raiseIndexed k
    | some m => exact ih { s with mem := m } (k + 1)

theorem State.oblivious_loadIndexed (s : State) (k n : Nat) :
    Oblivious (fun u => .next (u.loadIndexed k n)) s := by
  induction n generalizing s k with
  | zero => exact .silent rfl fun _ => rfl
  | succ n ih =>
    have hread (h : Unobserved) : (s.withUnobserved h).readIndexed k = s.readIndexed k := rfl
    unfold Oblivious State.loadIndexed
    simp only [hread]
    cases s.readIndexed k with
    | none => exact s.oblivious_raiseIndexed k
    | some b => exact ih (s.setReg (regOf k) b) (k + 1)

theorem State.oblivious_drawRows (s : State) (vx vy r n : Nat) :
    Oblivious (fun u => .next (u.drawRows vx vy r n)) s := by
  induction n generalizing s r with
  | zero => exact .silent rfl fun _ => rfl
  | succ n ih =>
    have hread (h : Unobserved) : (s.withUnobserved h).readIndexed r = s.readIndexed r := rfl
    unfold Oblivious State.drawRows
    simp only [hread]
    cases s.readIndexed r with
    | none => exact s.oblivious_raiseIndexed r
    | some bits =>
      simp only [State.drawRow_withUnobserved]
      exact ih (s.drawRow bits vx (vy + r)) (r + 1)

/-! ### The instructions -/

theorem oblivious_ret (s : State) : Oblivious (exec .ret) s := by
  by_cases hf : s.free.val < 16
  · exact .silent (exec_ret_of_used hf) fun h => exec_ret_of_used (s := s.withUnobserved h) hf
  · exact .raises _ _ fun h => exec_ret_of_empty (s := s.withUnobserved h) (show s.free.val = 16 by omega)

theorem oblivious_call (s : State) (nnn : Addr12) : Oblivious (exec (.call nnn)) s := by
  by_cases hf : s.free.val = 0
  · exact .raises _ _ fun h => exec_call_of_full (s := s.withUnobserved h) hf nnn
  · exact .silent (exec_call_of_free hf nnn) fun h => exec_call_of_free (s := s.withUnobserved h) hf nnn

theorem oblivious_keySkips (s : State) (x : Reg) : Oblivious (exec (.skp x)) s ∧ Oblivious (exec (.sknp x)) s := by
  cases hk : s.keyAt (s.reg x).toNat with
  | none =>
    have hraise (h : Unobserved) := exec_skips_of_no_key (s := s.withUnobserved h) x hk
    exact ⟨.raises _ (s.reg x).toNat fun h => (hraise h).1, .raises _ (s.reg x).toNat fun h => (hraise h).2⟩
  | some pressed =>
    have hskip (h : Unobserved) := exec_skips_of_key (s := s.withUnobserved h) x hk
    simp only [State.skipIf_withUnobserved] at hskip
    obtain ⟨hskp, hsknp⟩ := exec_skips_of_key s x hk
    exact ⟨.silent hskp fun h => (hskip h).1, .silent hsknp fun h => (hskip h).2⟩

/-- The draw takes the byte of the random port, which the unobserved part does not hold. -/
theorem oblivious_rnd (s : State) (x : Reg) (kk : Byte) : Oblivious (exec (.rnd x kk)) s := by
  refine .silent rfl fun h => ?_
  show execRnd x kk (s.withUnobserved h) = _
  unfold execRnd
  rw [State.drawByte_withUnobserved]
  rfl

/-- The digits are those of the register, which the unobserved part does not hold. -/
theorem oblivious_ldBVx (s : State) (x : Reg) : Oblivious (exec (.ldBVx x)) s := by
  have hreg (h : Unobserved) : (s.withUnobserved h).reg x = s.reg x := rfl
  unfold Oblivious exec execLdBVx
  simp only [hreg]
  exact s.oblivious_storeIndexed 0 _

/-- No instruction observes the unobserved part, as its shared operations do not, and each reports at most one
condition (R230). -/
theorem oblivious_exec (i : Instr) (s : State) : Oblivious (exec i) s := by
  cases i with
  | ret => exact oblivious_ret s
  | call nnn => exact oblivious_call s nnn
  | skp x => exact (oblivious_keySkips s x).1
  | sknp x => exact (oblivious_keySkips s x).2
  | seVxKK | sneVxKK | seVxVy | sneVxVy => exact .silent rfl fun h => congrArg _ (s.skipIf_withUnobserved h _)
  | rnd x kk => exact oblivious_rnd s x kk
  | drw x y n => exact (s.setReg VF 0).oblivious_drawRows (s.reg x).toNat (s.reg y).toNat 0 n.val
  | ldBVx x => exact oblivious_ldBVx s x
  | ldMemVx x => exact s.oblivious_storeIndexed 0 (s.v.toList.take (x.val + 1))
  | ldVxMem x => exact s.oblivious_loadIndexed 0 (x.val + 1)
  | _ => exact .silent rfl fun _ => rfl

/-- Settles O46: the part carried along is any the statement names. -/
theorem programCannotObserveTheMonitor : Obligations.ProgramCannotObserveTheMonitor := by
  unfold Obligations.ProgramCannotObserveTheMonitor
  intro i s t m q log f k h
  obtain ⟨new, hlog, hcarried⟩ := (oblivious_exec i s).of_next h
  have hnew := hcarried ⟨m, q, log, f, k⟩
  rw [Unobserved.report_eq] at hnew
  exact ⟨new.toList, hlog, hnew⟩

/-! ## A step reports at most one condition (spec/60_exceptions.md R226, R230) -/

/-- The log of `t` is that of `s`, or that with one record more. -/
def AtMostOneReport (s t : State) : Prop := t.clog = s.clog ∨ ∃ r, t.clog = s.clog ++ [r]

theorem atMostOneReport_of_exec {i : Instr} (h : exec i s = .next t) : AtMostOneReport s t := by
  obtain ⟨new, hlog, _⟩ := (oblivious_exec i s).of_next h
  cases new with
  | none => exact .inl (hlog.trans (List.append_nil _))
  | some r => exact .inr ⟨r, hlog⟩

theorem atMostOneReport_of_fetchExecute (h : s.fetchExecute = .next t) : AtMostOneReport s t := by
  rcases s.fetchExecute_cases with ⟨_, _, e⟩ | ⟨_, _, e⟩ | ⟨w, _, _, _, e⟩
  · cases e.symm.trans h; exact .inr ⟨_, rfl⟩
  · cases e.symm.trans h; exact .inr ⟨_, rfl⟩
  · exact atMostOneReport_of_exec (s := s.latchIpc.advance w) (e.symm.trans h)

theorem State.clog_endCycle (s : State) : s.endCycle.clog = s.clog := by
  rcases s.endCycle_cases with ⟨_, e⟩ | ⟨_, e⟩
  · rw [e]
  · rw [e]; rfl

theorem atMostOneReport_of_cycle (h : s.cycle = .next t) : AtMostOneReport s t := by
  rcases s.cycle_cases with ⟨_, e⟩ | ⟨_, _, e⟩ | ⟨_, _, e⟩
  · cases e.symm.trans h; exact .inl rfl
  · obtain ⟨u, hu, rfl⟩ := endCycleOf_next (e.symm.trans h)
    unfold AtMostOneReport
    rw [u.clog_endCycle]
    exact atMostOneReport_of_fetchExecute (s := s.afterCheck) hu
  · cases e.symm.trans h; exact .inl rfl

theorem atMostOneReport_of_cpuStep (h : s.cpuStep = .next t) : AtMostOneReport s t := by
  rcases s.cpuStep_cases with ⟨_, e⟩ | ⟨_, e⟩ | ⟨_, e⟩ | ⟨_, e⟩
  · exact atMostOneReport_of_cycle (e.symm.trans h)
  · cases e.symm.trans h; exact .inl rfl
  · cases e.symm.trans h
  · cases e.symm.trans h

/-- A load that is too large reports, no other move but the CPU's does. -/
theorem atMostOneReport_of_runMove {m : Move} (h : s.runMove m = .next t) : AtMostOneReport s t := by
  cases m with
  | cpu => exact atMostOneReport_of_cpuStep h
  | keyAnswer k =>
    rcases s.answerKey_cases k with ⟨_, _, e⟩ | ⟨_, e⟩
    · cases e.symm.trans h; exact .inl rfl
    · cases e.symm.trans h
  | load bytes =>
    rcases s.loadProgram_cases bytes with ⟨_, _, e⟩ | ⟨_, _, e⟩ | ⟨_, e⟩
    · cases e.symm.trans h; exact .inr ⟨_, rfl⟩
    · cases e.symm.trans h; exact .inl rfl
    · cases e.symm.trans h
  | tickDT | tickST | setAlive | setKeys | supplyRnd | command =>
    exact .inl (sameCpuPart_of_runMove (by simp) (by simp) (by simp) h).clog

/-- Settles O56: every agent's move reports at most one condition. -/
theorem stepReportsAtMostOneCondition : Obligations.StepReportsAtMostOneCondition := by
  unfold Obligations.StepReportsAtMostOneCondition
  intro s t h
  rcases step_cases s with ⟨_, e⟩ | ⟨m, rest, _, e⟩
  · exact atMostOneReport_of_cpuStep (e.symm.trans h)
  · exact atMostOneReport_of_runMove (s := { s with sched := rest }) (e.symm.trans h)

end Sys2Proof.Machine

namespace Sys2Proof.Machine

variable {s : State}

/-! ## Loading a program (spec/70_reset_and_hazards.md R281, R282) -/

/-- Bytes placed inside memory are read back, and every other address reads as before. -/
theorem Memory.read_pokeAll (m : Memory) {a : Nat} {bs : List Byte} (h : a + bs.length ≤ 4096) (k : Nat) :
    (m.pokeAll a bs).read k = if a ≤ k ∧ k < a + bs.length then bs[k - a]? else m.read k := by
  by_cases hk : a ≤ k ∧ k < a + bs.length
  · obtain ⟨hle, hlt⟩ := hk
    have hin : k - a < bs.length := by omega
    rw [if_pos ⟨hle, hlt⟩, Memory.read_of_lt _ (by omega), Memory.peek_pokeAll, dif_pos ⟨hle, hin⟩,
      List.getElem?_eq_getElem hin]
  · have hpeek : (m.pokeAll a bs).peek k = m.peek k := by
      rw [Memory.peek_pokeAll, dif_neg (by omega)]
    rw [if_neg hk, Memory.read, Memory.read, hpeek]

theorem State.loadProgram_of_fits {bytes : List Byte} (hp : s.phase = .idle) (hlen : bytes.length ≤ 3584) :
    s.loadProgram bytes = .next { s with mem := s.mem.pokeAll 0x200 bytes, phase := .ready } := by
  rcases s.loadProgram_cases bytes with ⟨_, hlarge, _⟩ | ⟨_, _, e⟩ | ⟨hne, _⟩
  · exact absurd hlarge (Nat.not_lt.2 hlen)
  · exact e
  · exact absurd hp hne

theorem State.loadProgram_of_too_large {bytes : List Byte} (hp : s.phase = .idle) (hlen : 3584 < bytes.length) :
    s.loadProgram bytes = .next { s with
      clog := s.clog ++ [⟨.programTooLarge, none, none, bytes.length⟩], phase := .loadFailed } := by
  rcases s.loadProgram_cases bytes with ⟨_, _, e⟩ | ⟨_, hfits, _⟩ | ⟨hne, _⟩
  · exact e
  · exact absurd hlen (Nat.not_lt.2 hfits)
  · exact absurd hp hne

/-- The CPU has no step after a failed load (R282). -/
theorem step_of_loadFailed (hcpu : s.cpuNext) (hp : s.phase = .loadFailed) : step s = .fault .loadFailed := by
  rw [step_of_cpuNext hcpu]
  exact State.cpuStep_eq_fault_iff.2 (.inr ⟨hp, rfl⟩)

/-- Settles O48: the program fits, and a program that fits is poked whole inside memory. -/
theorem loadPlacesTheProgram : Obligations.LoadPlacesTheProgram := by
  unfold Obligations.LoadPlacesTheProgram
  intro s bytes rest hp hlen hsched
  have hend : 0x200 + bytes.length ≤ 4096 := by omega
  refine ⟨s.mem.pokeAll 0x200 bytes, ?_, s.mem.read_pokeAll hend⟩
  rw [step_of_sched hsched]
  exact State.loadProgram_of_fits (s := { s with sched := rest }) hp hlen

/-- Settles O49: the program does not fit, so the load only reports, and in LoadFailed the CPU's move is the fault. -/
theorem oversizedProgramIsFatal : Obligations.OversizedProgramIsFatal := by
  unfold Obligations.OversizedProgramIsFatal
  intro s bytes rest hp hlen hsched
  refine ⟨_, ?_, rfl, fun hcpu => step_of_loadFailed hcpu rfl⟩
  rw [step_of_sched hsched]
  exact State.loadProgram_of_too_large (s := { s with sched := rest }) hp hlen

end Sys2Proof.Machine
